-- ==== Sys2Proof/Word.lean ====
section
/-! DEFINITION. The words the controller computes with (00_scope.md R10, R11; 20_memory.md R77). -/

namespace Sys2Proof

/-- A CSR, a register-space word or a command word: 32 bits (10 R26, 20 R77). -/
abbrev Word := BitVec 32

/-- One byte of the memory space (20 R70). -/
abbrev Byte := BitVec 8

/-- What one memory access carries: 8 bytes, little-endian (20 R74, R77). -/
abbrev Dword := BitVec 64

/-- A memory-space address: 40 bits (20 R71). -/
abbrev PAddr := BitVec 40

end Sys2Proof
end

