-- ==== Sys2Proof/Syntax.lean ====
section
/-! DEFINITION. The MC45 command set, version 1 (30_encoding.md R100-R106): one constructor per row of
spec/opcode_table.json, each operand field of the command word an argument. -/

namespace Sys2Proof

/-- AGT, bit 8: the agent descriptor slot (R101). -/
inductive Slot where
  | zero
  | one
  deriving DecidableEq, Repr, Inhabited

/-- TARGET, bits 5:4: RESET(0) < DISABLE(1) < CONFIG(2) < OPERATION(3) (R101, R113). -/
inductive AgentMode where
  | reset
  | disable
  | config
  | operation
  deriving DecidableEq, Repr, Inhabited

/-- DIR, bit 4: 0 receive, 1 transmit (R101). -/
inductive Dir where
  | receive
  | transmit
  deriving DecidableEq, Repr, Inhabited

/-- LAYOUT, bit 5: 0 plain, 1 timestamped (R101). -/
inductive Layout where
  | plain
  | timestamped
  deriving DecidableEq, Repr, Inhabited

/-- The commands. Operands outside the command word come from the snapshot (R105), not from here. -/
inductive Instr where
  /-- NOP (R145). -/
  | nop
  /-- WAIT (R140). -/
  | wait
  /-- MODE a, t (R150). -/
  | mode (agt : Slot) (target : AgentMode)
  /-- FORMAT (R170): chain index, layout, direction. -/
  | format (chain : Nat) (layout : Layout) (dir : Dir)
  /-- MDIO_RD a, phy, dev (R210). -/
  | mdioRd (agt : Slot) (phy dev : Nat)
  /-- MDIO_WR a, phy, dev (R220). -/
  | mdioWr (agt : Slot) (phy dev : Nat)
  deriving DecidableEq, Repr, Inhabited

end Sys2Proof
end

