-- ==== Sys2Proof/WellFormed.lean ====
section
/-! DEFINITION. Which instructions have a command word: "The assembler refuses an operand that does not fit its
field: a > 1, T > 3, c > 255, phy > 31 or dev > 31" (30_encoding.md R117). The types Slot and AgentMode have no
value with a > 1 or T > 3. -/

namespace Sys2Proof

/-- CHAIN fits bits 23:16. -/
abbrev chainFits (c : Nat) : Prop := c ≤ 255

/-- PHY fits bits 20:16. -/
abbrev phyFits (p : Nat) : Prop := p ≤ 31

/-- DEV fits bits 28:24. -/
abbrev devFits (d : Nat) : Prop := d ≤ 31

/-- Every operand fits its field of the command word. -/
def wellFormed : Instr → Bool
  | .nop => true
  | .wait => true
  | .mode _ _ => true
  | .format c _ _ => decide (chainFits c)
  | .mdioRd _ phy dev => decide (phyFits phy ∧ devFits dev)
  | .mdioWr _ phy dev => decide (phyFits phy ∧ devFits dev)

/-- The check as a decidable proposition. -/
abbrev WellFormed (i : Instr) : Prop := wellFormed i = true

end Sys2Proof
end

