-- ==== Sys2Proof/Decode.lean ====
section
/-! DEFINITION. From a command word to an instruction, total on any 32-bit word (30_encoding.md R100-R104), and the
encoder written from the same tables (R101, R117). -/

namespace Sys2Proof

/-- Why a word selects no command (R104: "Two cases reach this"). -/
inductive DecodeError where
  /-- An opcode 0x6-0xF. -/
  | reservedOpcode
  /-- A 1 in a reserved bit of its format. -/
  | reservedBit
  deriving DecidableEq, Repr

/-- One row of R103's table. -/
structure OpcodeRow where
  mnemonic  : String
  mask      : Word
  pattern   : Word
  deriving DecidableEq, Repr

def rowNop    : OpcodeRow := ⟨"NOP",     0xFFFFFFFF, 0x00000000⟩
def rowWait   : OpcodeRow := ⟨"WAIT",    0xFFFFFFFF, 0x00000001⟩
def rowMode   : OpcodeRow := ⟨"MODE",    0xFFFFFECF, 0x00000002⟩
def rowFormat : OpcodeRow := ⟨"FORMAT",  0xFF00FFCF, 0x00000003⟩
def rowMdioRd : OpcodeRow := ⟨"MDIO_RD", 0xE0E0FEFF, 0x00000004⟩
def rowMdioWr : OpcodeRow := ⟨"MDIO_WR", 0xE0E0FEFF, 0x00000005⟩

/-- R103's table. -/
def opcodeRows : List OpcodeRow := [rowNop, rowWait, rowMode, rowFormat, rowMdioRd, rowMdioWr]

/-- "A word w selects a command when `(w & mask) == match`" (R103). -/
def OpcodeRow.selects (r : OpcodeRow) (w : Word) : Bool := w &&& r.mask == r.pattern

/-- OP, bits 3:0 (R100). -/
def opField (w : Word) : BitVec 4 := w.extractLsb' 0 4

def Slot.ofBit : Bool → Slot
  | false => .zero
  | true => .one

def Slot.bits : Slot → Word
  | .zero => 0
  | .one => 1

/-- R113: the state-to-register-value table. -/
def AgentMode.bits : AgentMode → Word
  | .reset => 0
  | .disable => 1
  | .config => 2
  | .operation => 3

def AgentMode.ofBits (b : BitVec 2) : AgentMode :=
  if b = 0 then .reset else if b = 1 then .disable else if b = 2 then .config else .operation

def Dir.ofBit : Bool → Dir
  | false => .receive
  | true => .transmit

def Dir.bits : Dir → Word
  | .receive => 0
  | .transmit => 1

def Layout.ofBit : Bool → Layout
  | false => .plain
  | true => .timestamped

def Layout.bits : Layout → Word
  | .plain => 0
  | .timestamped => 1

/-- AGT, bit 8. -/
def agtField (w : Word) : Slot := Slot.ofBit (w.getLsbD 8)
/-- TARGET, bits 5:4. -/
def targetField (w : Word) : AgentMode := AgentMode.ofBits (w.extractLsb' 4 2)
/-- DIR, bit 4. -/
def dirField (w : Word) : Dir := Dir.ofBit (w.getLsbD 4)
/-- LAYOUT, bit 5. -/
def layoutField (w : Word) : Layout := Layout.ofBit (w.getLsbD 5)
/-- CHAIN, bits 23:16. -/
def chainField (w : Word) : Nat := (w.extractLsb' 16 8).toNat
/-- PHY, bits 20:16. -/
def phyField (w : Word) : Nat := (w.extractLsb' 16 5).toNat
/-- DEV, bits 28:24. -/
def devField (w : Word) : Nat := (w.extractLsb' 24 5).toNat

/-- The command a word selects, or why it selects none (R104). -/
def decode (w : Word) : Except DecodeError Instr :=
  if rowNop.selects w then .ok .nop
  else if rowWait.selects w then .ok .wait
  else if rowMode.selects w then .ok (.mode (agtField w) (targetField w))
  else if rowFormat.selects w then .ok (.format (chainField w) (layoutField w) (dirField w))
  else if rowMdioRd.selects w then .ok (.mdioRd (agtField w) (phyField w) (devField w))
  else if rowMdioWr.selects w then .ok (.mdioWr (agtField w) (phyField w) (devField w))
  else if (opField w).toNat ≤ 5 then .error .reservedBit
  else .error .reservedOpcode

/-- The command word of an instruction (R101, R117). -/
def encode : Instr → Word
  | .nop => 0x0
  | .wait => 0x1
  | .mode a t => 0x2 ||| (t.bits <<< 4) ||| (a.bits <<< 8)
  | .format c l d => 0x3 ||| (d.bits <<< 4) ||| (l.bits <<< 5) ||| (BitVec.ofNat 32 c <<< 16)
  | .mdioRd a phy dev => 0x4 ||| (a.bits <<< 8) ||| (BitVec.ofNat 32 phy <<< 16) ||| (BitVec.ofNat 32 dev <<< 24)
  | .mdioWr a phy dev => 0x5 ||| (a.bits <<< 8) ||| (BitVec.ofNat 32 phy <<< 16) ||| (BitVec.ofNat 32 dev <<< 24)

/-- What the decoder reads from the table's numbering of an instruction's bits: one 32-bit word, no byte order
(20 R75, 30 R100). -/
def decodeTableWord (nbits w : Nat) : Option Instr :=
  if nbits ≤ 32 ∧ w < 2 ^ nbits then
    match decode (BitVec.ofNat 32 w) with
    | .ok i => some i
    | .error _ => none
  else none

end Sys2Proof
end

