-- ==== Sys2Proof/Config.lean ====
section
/-! DEFINITION. What an implementation or the environment fixes and the spec leaves open: the OPEN
parameters of 00_scope.md R9, and the environment's free answers (20 R72, R73; 60 R243). -/

namespace Sys2Proof

/-- The OPEN parameters of R9, "an argument of the model": State carries them, no step changes them. -/
structure Params where
  /-- `CTRL_BASE`: where the 256-byte CSR window sits in the host's address space. -/
  ctrlBase    : Nat
  /-- `NUM_CHAINS`: entries of the base-descriptor table, 2 <= NUM_CHAINS <= 256. -/
  numChains   : Nat
  /-- `BUS_MAY_ERROR`: whether the bus can answer an engine access with an error. -/
  busMayError : Bool
  deriving DecidableEq, Repr

/-- R9's bound on NUM_CHAINS. -/
abbrev Params.wf (p : Params) : Prop := 2 ≤ p.numChains ∧ p.numChains ≤ 256

/-- What the environment answers to one access. -/
structure Answer where
  /-- The access is answered with an error (looked at for engine accesses when BUS_MAY_ERROR holds, R243). -/
  error : Bool
  /-- The value a read gives (a 32-bit read takes bits 31:0); `none`: what was last written there, as the
  deterministic test environment of 95_test_vectors.md does (log 3). -/
  data  : Option Dword
  deriving DecidableEq, Repr, Inhabited

/-- Free value: the answer to the n-th access for which no answer is listed in State (R72, R73, R243; log 2). -/
opaque Config.freeAnswer : Nat → Answer

/-- Free value: what a location nothing has written holds, at the n-th access (I1, I2 of 93; log 3). -/
opaque Config.freeDword : Nat → Dword

/-- The OPEN `CTRL_BASE` of the machine right after reset (R9; log 4). -/
opaque Config.ctrlBase : Nat

/-- NUM_CHAINS - 2: the OPEN `NUM_CHAINS` is any of 2..256 (R9; log 4). -/
opaque Config.chainsAboveTwo : Fin 255

/-- The OPEN `BUS_MAY_ERROR` (R9; log 4). -/
opaque Config.busMayError : Bool

/-- The parameters of the machine right after reset: no value of them can be proved (log 4). -/
def Config.params : Params :=
  { ctrlBase := Config.ctrlBase, numChains := Config.chainsAboveTwo.val + 2, busMayError := Config.busMayError }

end Sys2Proof
end

