-- ==== Sys2Proof/Machine/State.lean ====
section
/-! DEFINITION. The state of the machine as plain data: the controller's CSRs (10_state.md R26-R40), the engine's
snapshot and hidden state while BUSY (R41, R45, R46), the external state the controller touches (R50-R54), and the
model's own fields (schedule, environment answers, history). Reset values: R57. -/

namespace Sys2Proof.Machine

/-- STATUS.CODE: completion codes (60 R242). Codes 5-15 are "never produced", so they have no name here. -/
inductive Code where
  /-- 0: the command ran to its end. -/
  | ok
  /-- 1: a POLL made T reads with no match. -/
  | timeout
  /-- 2: the word selects no command. -/
  | illegal
  /-- 3: an operand check failed. -/
  | badArg
  /-- 4: the bus answered an engine access with an error. -/
  | busErr
  deriving DecidableEq, Repr, Inhabited

/-- STATUS.PHASE: where a TIMEOUT arose (10 R29). -/
inductive Phase where
  /-- 0 -/
  | none
  /-- 1: MDIO address phase. -/
  | address
  /-- 2: MDIO op phase. -/
  | op
  /-- 3: the poll of WAIT or MODE. -/
  | poll
  deriving DecidableEq, Repr, Inhabited

/-- The arguments of `finish(code, phase, result)` (00 R12, 60 R244). -/
structure Completion where
  code   : Code
  phase  : Phase
  result : Word
  deriving DecidableEq, Repr, Inhabited

/-- The six registers of an agent descriptor slot (10 R38). Address registers store bits 31:2 and AGTa_CLK_BIT bits
4:0; the other bits are hardwired 0 (R26; log 12). -/
structure AgentRegs where
  mcAddr      : BitVec 30
  msAddr      : BitVec 30
  msMask      : Word
  clkBit      : BitVec 5
  mdioAccAddr : BitVec 30
  mdioStsAddr : BitVec 30
  deriving DecidableEq, Repr, Inhabited

/-- ARG0-ARG7 (10 R40). -/
structure ArgFile where
  arg0 : Word
  arg1 : Word
  arg2 : Word
  arg3 : Word
  arg4 : Word
  arg5 : Word
  arg6 : Word
  arg7 : Word
  deriving DecidableEq, Repr, Inhabited

/-- The CSRs that acceptance copies into the snapshot, CMD apart (10 R41). Only stored bits are held: CLKEN_ADDR,
CLKDIS_ADDR, CHAIN_CTRL_BASE bits 31:2, BDT_BASE_LO bits 31:3, BDT_BASE_HI bits 7:0 (R34-R37; log 12). -/
structure Setup where
  timeout       : Word
  clkenAddr     : BitVec 30
  clkdisAddr    : BitVec 30
  bdtBaseLo     : BitVec 29
  bdtBaseHi     : BitVec 8
  chainCtrlBase : BitVec 30
  agt0          : AgentRegs
  agt1          : AgentRegs
  args          : ArgFile
  deriving DecidableEq, Repr, Inhabited

/-- The snapshot of R41: the CMD value being written and the copied CSRs. -/
structure Snapshot where
  cmd   : Word
  setup : Setup
  deriving DecidableEq, Repr, Inhabited

/-- AGTa_STATE (10 R39): MODE and VALID; bits 30:2 read 0. -/
structure AgentShadow where
  mode  : AgentMode
  valid : Bool
  deriving DecidableEq, Repr, Inhabited

/-- Every stored CSR bit (10 R26). ID is a constant, STATUS.BUSY is the presence of `State.engine` (R45; log 12). -/
structure Csrs where
  /-- CMD (R28). -/
  cmd       : Word
  /-- STATUS.DONE (R29). -/
  done      : Bool
  /-- STATUS.ERR. -/
  err       : Bool
  /-- STATUS.OVERRUN. -/
  overrun   : Bool
  /-- STATUS.CODE. -/
  code      : Code
  /-- STATUS.PHASE. -/
  phase     : Phase
  /-- RESULT (R30). -/
  result    : Word
  /-- IRQ_EN.DONE_IE (R31). -/
  doneIe    : Bool
  /-- POLL_COUNT (R33). -/
  pollCount : Word
  /-- TIMEOUT, the address CSRs, the agent descriptors, ARG0-ARG7. -/
  setup     : Setup
  /-- AGT0_STATE (R39). -/
  state0    : AgentShadow
  /-- AGT1_STATE. -/
  state1    : AgentShadow
  deriving DecidableEq, Repr, Inhabited

/-- Which POLL of a command: the MDIO address phase, the MDIO op phase, or the one poll of WAIT or MODE. -/
inductive Site where
  | address
  | op
  | single
  deriving DecidableEq, Repr, Inhabited

/-- The 8-byte words of a ring slot, in ascending address (42 R177). -/
inductive SlotWord where
  | header
  | extension
  | timestamp
  deriving DecidableEq, Repr, Inhabited

/-- The engine's position (10 R46): the primitive of the command's pseudocode that it performs next. -/
inductive Pos where
  /-- Accepted; nothing performed yet. -/
  | start
  /-- POLL: the read of the next round (40 R130). -/
  | pollRead (site : Site)
  /-- POLL: in `WaitTick()`. -/
  | pollTick (site : Site)
  /-- MODE step 1: write the clock-enable register (41 R151). -/
  | gateSet
  /-- MODE step 2: write the mode-control register (41 R152). -/
  | modeWrite
  /-- MODE step 4 with CLKDIS_ADDR = 0: read the clock-enable register again (41 R153). -/
  | gateReread
  /-- MODE step 4 with CLKDIS_ADDR = 0: write it back. -/
  | gateClear
  /-- MODE step 4 with CLKDIS_ADDR ≠ 0: write the clock-disable register. -/
  | gateDisable
  /-- FORMAT: read the buffer-table entry of data slot idx (42 R180). -/
  | entryRead
  /-- FORMAT: write a word of data slot idx (42 R174, R175, R177). -/
  | slot (w : SlotWord)
  /-- FORMAT: write a word of the link slot (42 R176, R177). -/
  | link (w : SlotWord)
  /-- FORMAT: write the base-descriptor table entry (42 R179). -/
  | table
  /-- FORMAT: write the chain control register (42 R184). -/
  | control
  /-- MDIO step 2: write ADDR_WORD (43 R212). -/
  | mdioAddress
  /-- MDIO step 3: clear address-complete (43 R214). -/
  | mdioAck
  /-- MDIO step 4: write RD_WORD or WR_WORD (43 R215). -/
  | mdioOp
  /-- MDIO_RD step 5: read the access register (43 R216). -/
  | mdioData
  /-- MDIO_RD step 5: clear read-complete. -/
  | mdioReadAck
  /-- The command's `finish` (60 R244). -/
  | finish
  deriving DecidableEq, Repr, Inhabited

/-- The engine while BUSY: the snapshot (R41) and the hidden state (R46). -/
structure Engine where
  snap  : Snapshot
  /-- Position in the command's access sequence. -/
  pos   : Pos
  /-- The loop counter n of the poll in progress. -/
  n     : Nat
  /-- The last value polled. -/
  last  : Word
  /-- The last value a register read outside a poll gave: the clock-enable register, or the MDIO access register. -/
  read  : Word
  /-- The last value a memory read gave: a buffer-table entry. -/
  entry : Dword
  /-- The loop index of a FORMAT. -/
  idx   : Nat
  /-- At the position `finish`: what it is called with. -/
  out   : Completion
  deriving DecidableEq, Repr, Inhabited

/-- A performed bus access (00 R12). Addresses are exact numbers. -/
inductive Access where
  | r32 (a : Nat) (v : Word)
  | w32 (a : Nat) (v : Word)
  | memRead (pa : Nat) (v : Dword)
  | memWrite (pa : Nat) (v : Dword)
  deriving DecidableEq, Repr

/-- Who performed an access. -/
inductive Master where
  | engine
  | host
  deriving DecidableEq, Repr

/-- The environment: external state (10 R50-R54) and what it will answer. -/
structure Env where
  /-- The memory space: bytes written, strictly rising addresses, no entry for a byte nothing has written (log 3). -/
  mem     : List Host.Cell
  /-- The register space: the word last written to each address, strictly rising addresses (log 3). -/
  regs    : List (Nat × Word)
  /-- The model's own: the answers to the next accesses, first one first (log 2). -/
  answers : List Answer
  /-- The model's own: how many answers have been taken, the argument of the free answers (log 2). -/
  draws   : Nat
  /-- The model's own: the accesses performed, newest first (20 R98 "a sequentially consistent history"; log 14). -/
  history : List (Master × Access)
  deriving DecidableEq, Repr, Inhabited

/-- What the host's last access was answered (the model's own; log 9). -/
inductive HostReply where
  /-- Nothing: no access yet, a completed write, or an access that did not reach the port. -/
  | none
  /-- A CSR read or a register-space read. -/
  | word (v : Word)
  /-- A memory-space read. -/
  | dword (v : Dword)
  /-- "answered with a slave error on the host port" (10 R43). -/
  | slaveError
  deriving DecidableEq, Repr, Inhabited

/-- The host's own target accesses, not through the controller (00 R15, 30 R117). -/
inductive TargetAccess where
  | r32 (a : Nat)
  | w32 (a : Nat) (v : Word)
  | ld64 (pa : Nat)
  | st64 (pa : Nat) (v : Dword)
  deriving DecidableEq, Repr

/-- A change of target state the environment makes by itself (20 R72; 00 R15 "advances target state"). -/
inductive TargetChange where
  | register (a : Nat) (v : Word)
  | byte (pa : Nat) (b : Byte)
  deriving DecidableEq, Repr

/-- One atomic step of one of the four agents (00 R15, 10 R25). -/
inductive Event where
  /-- The engine moves. -/
  | engine
  /-- The host reads `size` bytes at an address of its own address space. -/
  | hostRead (addr size : Nat)
  /-- The host writes. -/
  | hostWrite (addr size : Nat) (v : Word)
  /-- The host accesses a target itself. -/
  | hostTarget (a : TargetAccess)
  /-- The environment changes a target. -/
  | environment (c : TargetChange)
  /-- The environment emits a tick (10 R22). -/
  | tick
  /-- The reset input is asserted (10 R24). -/
  | reset
  deriving DecidableEq, Repr

/-- The whole machine. -/
structure State where
  /-- The OPEN parameters (00 R9); no step changes them (log 4). -/
  params : Params
  /-- The controller's CSRs. -/
  csr    : Csrs
  /-- The engine: IDLE is `none` (10 R45). -/
  engine : Option Engine
  /-- The external state and the environment's answers. -/
  env    : Env
  /-- The host port's last answer (the model's own; log 9). -/
  host   : HostReply
  /-- The model's own: the coming atomic steps, first one first; empty: the engine moves alone (log 1). -/
  inputs : List Event
  deriving DecidableEq, Repr

/-- Why the model stops. The controller itself has no trap (60 R247): its errors are completion codes. No engine step
from a state that meets `StateInv` (Safety.lean) raises any of these. -/
inductive Fault where
  /-- A register access with a[1:0] ≠ 0. Raised by register accesses of the engine (never under StateInv: 20 R76), of the
  host and of the environment. Safe: the model stops. -/
  | registerMisaligned
  /-- A register access at or above 2^32. Raised as registerMisaligned is. Safe. -/
  | registerOutside
  /-- A memory access of 8 bytes with pa[2:0] ≠ 0. Raised by memory accesses of the engine (never under StateInv) and of
  the host. Safe. -/
  | memoryMisaligned
  /-- A memory access that reaches 2^40 (20 R71). Raised by memory accesses of the engine (never under StateInv), of the
  host and of the environment. Safe. -/
  | memoryOutside
  /-- A meaning run while the engine is IDLE: no command is accepted. Never raised by `step`. Safe. -/
  | engineIdle
  /-- A meaning run at a position of another command. Never under StateInv. Safe. -/
  | wrongPosition
  deriving DecidableEq, Repr

/-- Why the model has no meaning for an instruction. -/
inductive Refusal where
  /-- Raised by exec's arm of an instruction that has no meaning yet (none in this model). Safe. -/
  | notModelled (mnemonic : String)
  deriving DecidableEq, Repr

/-- AGTa_MS_MASK resets to 0x3, the rest of a descriptor slot to 0 (R57). -/
def AgentRegs.reset : AgentRegs :=
  { mcAddr := 0, msAddr := 0, msMask := 0x3, clkBit := 0, mdioAccAddr := 0, mdioStsAddr := 0 }

/-- ARG0-ARG7 reset to 0 (R57). -/
def ArgFile.reset : ArgFile :=
  { arg0 := 0, arg1 := 0, arg2 := 0, arg3 := 0, arg4 := 0, arg5 := 0, arg6 := 0, arg7 := 0 }

/-- TIMEOUT resets to 1000, the address CSRs to 0 (R57). -/
def Setup.reset : Setup :=
  { timeout := 0x3E8, clkenAddr := 0, clkdisAddr := 0, bdtBaseLo := 0, bdtBaseHi := 0, chainCtrlBase := 0,
    agt0 := AgentRegs.reset, agt1 := AgentRegs.reset, args := ArgFile.reset }

/-- AGTa_STATE resets to MODE 0, VALID 0 (R57). -/
def AgentShadow.reset : AgentShadow := { mode := .reset, valid := false }

/-- R57: the reset value of every CSR. -/
def Csrs.reset : Csrs :=
  { cmd := 0, done := false, err := false, overrun := false, code := .ok, phase := .none, result := 0,
    doneIe := false, pollCount := 0, setup := Setup.reset, state0 := AgentShadow.reset, state1 := AgentShadow.reset }

/-- The environment of State.reset: nothing listed (log 21). -/
def Env.reset : Env := { mem := [], regs := [], answers := [], draws := 0, history := [] }

/-- The machine right after reset (R57, 70 R280, R283): every CSR at its reset value, the engine IDLE, no snapshot and
no hidden state; the OPEN parameters open (log 4), nothing scheduled and nothing listed in the environment (log 21). -/
def State.reset : State :=
  { params := Config.params, csr := Csrs.reset, engine := none, env := Env.reset, host := .none, inputs := [] }

end Sys2Proof.Machine
end

