-- ==== Sys2Proof/Machine/Flags.lean ====
section
/-! DEFINITION. The STATUS bits and everything that sets or clears them (10_state.md R29; 60_exceptions.md R240-R250),
POLL_COUNT (R33), AGTa_STATE (R39, 41 R154) and irq (R23, R250). -/

namespace Sys2Proof.Machine

/-- Completion codes as STATUS.CODE shows them (60 R242). -/
def Code.bits : Code → BitVec 4
  | .ok => 0
  | .timeout => 1
  | .illegal => 2
  | .badArg => 3
  | .busErr => 4

/-- STATUS.PHASE (10 R29). -/
def Phase.bits : Phase → BitVec 2
  | .none => 0
  | .address => 1
  | .op => 2
  | .poll => 3

/-- The phase code a POLL's caller raises Timeout with (40 R140, 41 R150, 43 R210). -/
def Site.phase : Site → Phase
  | .address => .address
  | .op => .op
  | .single => .poll

/-- STATUS.BUSY: the engine runs a command (10 R29, R45). -/
def State.busy (s : State) : Bool := s.engine.isSome

/-- STATUS as a 32-bit word (10 R29): bits 31:10 read 0. -/
def State.statusWord (s : State) : Word :=
  0#22 ++ s.csr.phase.bits ++ s.csr.code.bits ++ BitVec.ofBool s.csr.overrun ++ BitVec.ofBool s.csr.err
    ++ BitVec.ofBool s.csr.done ++ BitVec.ofBool s.busy

/-- A host write to STATUS: "changes only DONE, ERR and OVERRUN, each only where the written bit is 1" (10 R29). -/
def Csrs.writeStatus (c : Csrs) (w : Word) : Csrs :=
  { c with
    done := c.done && !w.getLsbD 1
    err := c.err && !w.getLsbD 2
    overrun := c.overrun && !w.getLsbD 3 }

/-- `irq = STATUS.DONE & IRQ_EN.DONE_IE` (10 R23, 60 R250). -/
def State.irq (s : State) : Bool := s.csr.done && s.csr.doneIe

/-- Acceptance: CMD <- w; DONE, ERR, CODE, PHASE, POLL_COUNT <- 0; OVERRUN and RESULT unchanged (60 R240). -/
def Csrs.accept (c : Csrs) (w : Word) : Csrs :=
  { c with cmd := w, done := false, err := false, code := .ok, phase := .none, pollCount := 0 }

/-- A CMD write while BUSY: OVERRUN <- 1, nothing else (60 R241). -/
def Csrs.overran (c : Csrs) : Csrs := { c with overrun := true }

/-- `finish`: RESULT, CODE, PHASE, ERR <- (code != 0), DONE <- 1 (60 R244). -/
def Csrs.finish (c : Csrs) (k : Completion) : Csrs :=
  { c with result := k.result, code := k.code, phase := k.phase, err := decide (k.code ≠ .ok), done := true }

/-- One poll read counted: saturates at 0xFFFFFFFF (10 R33, 40 R130). -/
def Csrs.countPoll (c : Csrs) : Csrs :=
  { c with pollCount := if c.pollCount = 0xFFFFFFFF then 0xFFFFFFFF else c.pollCount + 1 }

/-- AGTa_STATE after a MODE command to t finished with a code (41 R154). -/
def AgentShadow.after (h : AgentShadow) (t : AgentMode) (k : Code) : AgentShadow :=
  match k with
  | .ok => { mode := t, valid := true }
  | .timeout => { h with valid := false }
  | .illegal => { h with valid := false }
  | .badArg => { h with valid := false }
  | .busErr => { h with valid := false }

/-- AGTa_STATE when command i finishes: "Only MODE commands write AGTa_STATE" (10 R39, 41 R154). -/
def Csrs.shadow (c : Csrs) (i : Option Instr) (k : Code) : Csrs :=
  match i with
  | some (.mode .zero t) => { c with state0 := c.state0.after t k }
  | some (.mode .one t) => { c with state1 := c.state1.after t k }
  | some .nop => c
  | some .wait => c
  | some (.format _ _ _) => c
  | some (.mdioRd _ _ _) => c
  | some (.mdioWr _ _ _) => c
  | none => c

/-- AGTa_STATE as a word: MODE in bits 1:0, VALID in bit 31 (10 R39). -/
def AgentShadow.word (h : AgentShadow) : Word :=
  BitVec.ofBool h.valid ++ 0#29 ++ h.mode.bits.extractLsb' 0 2

/-- IRQ_EN as a word (10 R31). -/
def Csrs.irqEnWord (c : Csrs) : Word := 0#31 ++ BitVec.ofBool c.doneIe

end Sys2Proof.Machine
end

