-- ==== Sys2Proof/Machine/Operands.lean ====
section
/-! DEFINITION. Operand assembly (30_encoding.md R105-R107) and every word the controller writes to a target
(R108-R115; 20_memory.md R80-R87): addresses as exact numbers (00 R11), contents as bit vectors. -/

namespace Sys2Proof.Machine

/-! ## Addresses held in CSRs -/

/-- The register-port address whose bits 31:2 a CSR stores; bits 1:0 are hardwired 0 (10 R26). -/
def regAddr (v : BitVec 30) : Nat := 4 * v.toNat

/-- The descriptor registers of a slot (10 R38; 41 R158). -/
def Setup.agt (u : Setup) : Slot → AgentRegs
  | .zero => u.agt0
  | .one => u.agt1

/-- `BDT_BASE = {BDT_BASE_HI[7:0], BDT_BASE_LO[31:0]}` (10 R36). -/
def Setup.bdtBase (u : Setup) : PAddr := u.bdtBaseHi ++ u.bdtBaseLo ++ 0#3

/-! ## WAIT (R105, 40 R140) -/

def Snapshot.waitAddr (p : Snapshot) : Word := p.setup.args.arg0
def Snapshot.waitMask (p : Snapshot) : Word := p.setup.args.arg1
def Snapshot.waitExpected (p : Snapshot) : Word := p.setup.args.arg2

/-- `ADDR[1:0] == 0`, the check of R140. -/
def Snapshot.waitAligned (p : Snapshot) : Bool := p.waitAddr.extractLsb' 0 2 == 0

/-! ## MODE (R113, R115, 41 R150) -/

/-- `CLKMASK(a) = 1 << snap.AGTa_CLK_BIT[4:0]` (R115). -/
def Snapshot.clkMask (p : Snapshot) (a : Slot) : Word := 1#32 <<< (p.setup.agt a).clkBit.toNat

/-- "numeric value is written directly to a mode-control register": `zext_32(TARGET)` (R113). -/
def modeWord (t : AgentMode) : Word := t.bits

/-! ## FORMAT (R105, R114; 20 R80-R87; 42 R170-R184) -/

/-- RB, the address of slot 0. -/
def Snapshot.ringBase (p : Snapshot) : PAddr := p.setup.args.arg1.extractLsb' 0 8 ++ p.setup.args.arg0
/-- BT, the buffer-address table. -/
def Snapshot.bufTable (p : Snapshot) : PAddr := p.setup.args.arg3.extractLsb' 0 8 ++ p.setup.args.arg2
/-- NUM_RING. -/
def Snapshot.numRing (p : Snapshot) : Nat := (p.setup.args.arg4.extractLsb' 0 16).toNat
/-- BUFSZ. -/
def Snapshot.bufSize (p : Snapshot) : BitVec 16 := p.setup.args.arg5.extractLsb' 0 16

/-- S: 16 bytes for the plain layout, 24 for the timestamped (42 R172). -/
def slotSize : Layout → Nat
  | .plain => 16
  | .timestamped => 24

/-- Slot i is at `RB + i·S` (20 R85). -/
def slotAddr (p : Snapshot) (l : Layout) (i : Nat) : Nat := p.ringBase.toNat + i * slotSize l

/-- Buffer-table entry i is at `BT + 8·i` (20 R87). -/
def entryAddr (p : Snapshot) (i : Nat) : Nat := p.bufTable.toNat + 8 * i

/-- Base-descriptor table entry c is at `BDT_BASE + 8·c` (20 R86). -/
def tableAddr (p : Snapshot) (c : Nat) : Nat := p.setup.bdtBase.toNat + 8 * c

/-- `CCA = snap.CHAIN_CTRL_BASE + 4*c`, exact (42 R170, R184). -/
def controlAddr (p : Snapshot) (c : Nat) : Nat := regAddr p.setup.chainCtrlBase + 4 * c

/-- Descriptor types (20 R84): bits 7:4 of die_dt. -/
inductive DescType where
  | linkfix
  | fempty
  | fsingle
  | fstart
  | fmid
  | fend
  | lempty
  | eempty
  | link
  | eos
  deriving DecidableEq, Repr

/-- The type codes of R84 (general-knowledge numbers the spec adopts; log 19). -/
def DescType.code : DescType → BitVec 4
  | .linkfix => 0x0
  | .fempty => 0x4
  | .fsingle => 0x8
  | .fstart => 0x9
  | .fmid => 0xA
  | .fend => 0xB
  | .lempty => 0xC
  | .eempty => 0xD
  | .link => 0xE
  | .eos => 0xF

/-- `{DT, 0b000, DIE}` (20 R81). -/
def dieDt (t : DescType) (die : Bool) : Byte := t.code ++ 0#3 ++ BitVec.ofBool die

/-- HDR: a descriptor header as one little-endian 64-bit word (42 R170, 20 R80). -/
def header (info : BitVec 16) (dt : Byte) (ptr : PAddr) : Dword :=
  info.setWidth 64
    ||| (dt.setWidth 64 <<< 16)
    ||| ((ptr.extractLsb' 32 8).setWidth 64 <<< 24)
    ||| ((ptr.extractLsb' 0 32).setWidth 64 <<< 32)

/-- The header of a data slot: R174 (receive, e the buffer-table entry) and R175 (transmit). -/
def dataHeader (p : Snapshot) (d : Dir) (e : Dword) : Dword :=
  match d with
  | .receive => header p.bufSize (dieDt .fempty true) (e.extractLsb' 0 40)
  | .transmit => header 0 (dieDt .eempty true) 0

/-- The header of the link slot: pointer RB; info_ds keeps the data-slot value (42 R176). -/
def linkHeader (p : Snapshot) (d : Dir) : Dword :=
  match d with
  | .receive => header p.bufSize (dieDt .linkfix false) p.ringBase
  | .transmit => header 0 (dieDt .linkfix false) p.ringBase

/-- The base-descriptor table entry (42 R179). -/
def tableHeader (p : Snapshot) : Dword := header 0 (dieDt .linkfix false) p.ringBase

/-- Bits 63:40 of a buffer-table entry must be 0 (20 R87, 42 R181). -/
def entryFits (e : Dword) : Bool := e.extractLsb' 40 24 == 0

/-- Byte offset of a slot's word (20 R83). -/
def SlotWord.offset : SlotWord → Nat
  | .header => 0
  | .extension => 8
  | .timestamp => 16

/-- Only the header word is not 0 (42 R177). -/
def SlotWord.value (w : SlotWord) (h : Dword) : Dword :=
  match w with
  | .header => h
  | .extension => 0
  | .timestamp => 0

/-- The next 8-byte word of a slot, ascending; `none` after the last (42 R177, R178). -/
def SlotWord.next (w : SlotWord) (l : Layout) : Option SlotWord :=
  match w, l with
  | .header, _ => some .extension
  | .extension, .timestamped => some .timestamp
  | .extension, .plain => none
  | .timestamp, _ => none

/-- `CC(DIR, LAYOUT)` (R114): BALR and DIE_EN always, DQT when transmit, ETS when timestamped. -/
def controlWord (d : Dir) (l : Layout) : Word :=
  0x01000000 ||| 0x00000100
    ||| (match d with | .receive => 0 | .transmit => 0x00000800)
    ||| (match l with | .plain => 0 | .timestamped => 0x00000200)

/-- VALIDATE (42 R173), in the order of its table; `true` when every check passes. -/
def validate (m : Params) (p : Snapshot) (c : Nat) (l : Layout) (d : Dir) : Bool :=
  decide (2 ≤ p.numRing)
    && decide (c < m.numChains)
    && decide (p.ringBase.toNat % 8 = 0)
    && decide (p.ringBase.toNat + p.numRing * slotSize l ≤ 2 ^ 40)
    && decide (tableAddr p c + 8 ≤ 2 ^ 40)
    && decide (controlAddr p c ≤ 0xFFFFFFFC)
    && (match d with
        | .transmit => true
        | .receive =>
          decide (p.bufTable.toNat % 8 = 0)
            && decide (p.bufTable.toNat + 8 * (p.numRing - 1) ≤ 2 ^ 40))

/-! ## MDIO (R109-R112) -/

/-- REG, `snap.ARG0[15:0]`. -/
def Snapshot.mdioReg (p : Snapshot) : BitVec 16 := p.setup.args.arg0.extractLsb' 0 16
/-- DATA, `snap.ARG1[15:0]`. -/
def Snapshot.mdioWriteData (p : Snapshot) : BitVec 16 := p.setup.args.arg1.extractLsb' 0 16

/-- PHY in bits 7:3, DEV in bits 12:8, C45 in bit 2, START in bit 0 (R110). -/
def mdioFrame (phy dev : Nat) : Word :=
  ((BitVec.ofNat 5 dev).setWidth 32 <<< 8) ||| ((BitVec.ofNat 5 phy).setWidth 32 <<< 3) ||| 0x4 ||| 0x1

/-- ADDR_WORD (R112). -/
def addrWord (phy dev : Nat) (reg : BitVec 16) : Word :=
  (reg.setWidth 32 <<< 16) ||| (0x0#32 <<< 13) ||| mdioFrame phy dev
/-- RD_WORD: opcode 0x03 (R112). -/
def readWord (phy dev : Nat) : Word := (0x3#32 <<< 13) ||| mdioFrame phy dev
/-- WR_WORD: opcode 0x01, data in bits 31:16 (R112). -/
def writeWord (phy dev : Nat) (data : BitVec 16) : Word :=
  (data.setWidth 32 <<< 16) ||| (0x1#32 <<< 13) ||| mdioFrame phy dev

/-- Clear-all word (R111). -/
def allFlags : Word := 0xFFFFFFFF
/-- RD_DONE, bit 0 (R111). -/
def rdDone : Word := 0x1
/-- WR_DONE, bit 1. -/
def wrDone : Word := 0x2
/-- ADDR_DONE, bit 2. -/
def addrDone : Word := 0x4

/-- The read result: bits 31:16 of the access register, zero-extended (43 R216). -/
def readResult (v : Word) : Word := (v.extractLsb' 16 16).setWidth 32

end Sys2Proof.Machine
end

