-- ==== Sys2Proof/Machine/Ops.lean ====
section
/-! DEFINITION. The named operations the meanings share: the two address spaces of the environment, the engine's four
bus primitives (00_scope.md R12), acceptance and `finish` (60_exceptions.md R240, R244) and POLL (40_wait.md R130). -/

namespace Sys2Proof

/-! ## Sparse storage: lists of (address, value) pairs in strictly rising address order -/

/-- The value listed at an address. -/
def Cells.find {α : Type} : List (Nat × α) → Nat → Option α
  | [], _ => none
  | (k, v) :: r, a => if k = a then some v else Cells.find r a

/-- The list with the value at an address, in order. -/
def Cells.put {α : Type} : List (Nat × α) → Nat → α → List (Nat × α)
  | [], a, v => [(a, v)]
  | (k, w) :: r, a, v =>
    if a < k then (a, v) :: (k, w) :: r
    else if a = k then (a, v) :: r
    else (k, w) :: Cells.put r a v

/-- Addresses strictly rise from `lo` on. -/
def Cells.rising {α : Type} : Nat → List (Nat × α) → Bool
  | _, [] => true
  | lo, (k, _) :: r => decide (lo ≤ k) && Cells.rising (k + 1) r

/-- The memory space's canonical form: strictly rising addresses below 2^40 (20 R71). A byte nothing has written is not
listed, so no entry equals what an unlisted address holds (log 3). -/
def Memory.wf (m : List Host.Cell) : Bool :=
  Cells.rising 0 m && m.all fun c => decide (c.1 < 2 ^ 40)

/-- The register space's canonical form: strictly rising, 4-aligned addresses below 2^32 (20 R70). -/
def Registers.wf (r : List (Nat × Word)) : Bool :=
  Cells.rising 0 r && r.all fun c => decide (c.1 % 4 = 0 ∧ c.1 < 2 ^ 32)

/-- The byte at an address; `none` where nothing has written. -/
def Memory.byte (m : List Host.Cell) (pa : Nat) : Option Byte := Cells.find m pa

/-- The word last written to a register; `none` where nothing has written. -/
def Registers.word (r : List (Nat × Word)) (a : Nat) : Option Word := Cells.find r a

/-- Byte k of an 8-byte value: `v[8k+7:8k]` (20 R74). -/
def byteOf (v : Dword) (k : Nat) : Byte := v.extractLsb' (8 * k) 8

/-- Bytes 0..k-1 of v stored from pa on. -/
def Memory.storeBytes (m : List Host.Cell) (pa : Nat) (v : Dword) : Nat → List Host.Cell
  | 0 => m
  | k + 1 => Cells.put (Memory.storeBytes m pa v k) (pa + k) (byteOf v k)

/-- `MemWrite(pa, 8, v)`: byte k of v at pa+k, k = 0..7 (20 R74). -/
def Memory.store8 (m : List Host.Cell) (pa : Nat) (v : Dword) : List Host.Cell := Memory.storeBytes m pa v 8

/-- The 8 bytes from pa on as one little-endian value (20 R74); a byte nothing has written is that byte of `free`. -/
def Memory.load8 (m : List Host.Cell) (pa : Nat) (free : Dword) : Dword :=
  let b (k : Nat) : Byte := (Memory.byte m (pa + k)).getD (byteOf free k)
  b 7 ++ b 6 ++ b 5 ++ b 4 ++ b 3 ++ b 2 ++ b 1 ++ b 0

namespace Machine

/-! ## The environment's answers (20 R72, R73; log 2, 3) -/

/-- The answer to the next access: the first one listed, else a free one. -/
def Env.answer (e : Env) : Answer :=
  match e.answers with
  | a :: _ => a
  | [] => Config.freeAnswer e.draws

/-- The environment after that answer is taken. -/
def Env.took (e : Env) : Env := { e with answers := e.answers.tail, draws := e.draws + 1 }

/-- The value an `R32(a)` made now returns. -/
def Env.regValue (e : Env) (a : Nat) : Word :=
  match e.answer.data with
  | some v => v.setWidth 32
  | none => (Registers.word e.regs a).getD ((Config.freeDword e.draws).setWidth 32)

/-- The value a `MemRead(pa, 8)` made now returns. -/
def Env.memValue (e : Env) (pa : Nat) : Dword :=
  match e.answer.data with
  | some v => v
  | none => Memory.load8 e.mem pa (Config.freeDword e.draws)

/-- The environment after an access is performed: the answer taken, the history longer. -/
def Env.performed (e : Env) (m : Master) (x : Access) : Env := { e.took with history := (m, x) :: e.history }

/-- A register-space word stored. -/
def Env.putReg (e : Env) (a : Nat) (v : Word) : Env := { e with regs := Cells.put e.regs a v }

/-- Eight memory-space bytes stored. -/
def Env.putMem (e : Env) (pa : Nat) (v : Dword) : Env := { e with mem := Memory.store8 e.mem pa v }

/-- One memory-space byte stored. -/
def Env.putByte (e : Env) (pa : Nat) (b : Byte) : Env := { e with mem := Cells.put e.mem pa b }

/-- Why an address is no register-space address, if it is none (20 R70, R76). -/
def regFault (a : Nat) : Option Fault :=
  if a % 4 ≠ 0 then some .registerMisaligned
  else if 2 ^ 32 ≤ a then some .registerOutside
  else none

/-- Why an address is no address of an 8-byte memory access, if it is none (20 R71, R76). -/
def memFault (pa : Nat) : Option Fault :=
  if pa % 8 ≠ 0 then some .memoryMisaligned
  else if 2 ^ 40 < pa + 8 then some .memoryOutside
  else none

/-! ## The engine's bus primitives (00 R12; 20 R90) -/

/-- How the bus answers one primitive of the engine. -/
inductive Reply (α : Type) where
  /-- Performed, with the value of a read. -/
  | done (v : α) (s : State)
  /-- "answered with an error instead of completing" (60 R243): not performed. -/
  | error (s : State)

/-- The bus answers the next engine access with an error (60 R243). -/
def State.busFails (s : State) : Bool := s.params.busMayError && s.env.answer.error

/-- `R32(a)`. -/
def read32 (a : Nat) (s : State) : Reply Word :=
  if s.busFails then .error { s with env := s.env.took }
  else .done (s.env.regValue a) { s with env := s.env.performed .engine (.r32 a (s.env.regValue a)) }

/-- `W32(a, v)`. -/
def write32 (a : Nat) (v : Word) (s : State) : Reply Unit :=
  if s.busFails then .error { s with env := s.env.took }
  else .done () { s with env := (s.env.performed .engine (.w32 a v)).putReg a v }

/-- `MemRead(pa, 8)`. -/
def memRead8 (pa : Nat) (s : State) : Reply Dword :=
  if s.busFails then .error { s with env := s.env.took }
  else .done (s.env.memValue pa) { s with env := s.env.performed .engine (.memRead pa (s.env.memValue pa)) }

/-- `MemWrite(pa, 8, v)`. -/
def memWrite8 (pa : Nat) (v : Dword) (s : State) : Reply Unit :=
  if s.busFails then .error { s with env := s.env.took }
  else .done () { s with env := (s.env.performed .engine (.memWrite pa v)).putMem pa v }

/-! ## Acceptance and finish -/

/-- `finish(OK, 0, result)`. -/
def okWith (result : Word) : Completion := { code := .ok, phase := .none, result := result }
/-- `finish(ILLEGAL, 0, 0)` (30 R104). -/
def illegalCommand : Completion := { code := .illegal, phase := .none, result := 0 }
/-- `finish(BAD_ARG, 0, 0)` (40 R140; 42 R173, R181). -/
def badArgument : Completion := { code := .badArg, phase := .none, result := 0 }
/-- `finish(BUS_ERR, 0, 0)` (60 R243). -/
def busError : Completion := { code := .busErr, phase := .none, result := 0 }

/-- `raise Timeout(phase)`: RESULT is the last value polled for WAIT and MODE, 0 for MDIO (40 R140, 41 R150,
43 R210, R220). -/
def timeoutAt (x : Site) (last : Word) : Completion :=
  match x with
  | .address => { code := .timeout, phase := .address, result := 0 }
  | .op => { code := .timeout, phase := .op, result := 0 }
  | .single => { code := .timeout, phase := .poll, result := last }

/-- The engine right after acceptance: the snapshot taken, nothing performed (10 R41, 60 R240). -/
def Engine.accepted (w : Word) (u : Setup) : Engine :=
  { snap := { cmd := w, setup := u }, pos := .start, n := 0, last := 0, read := 0, entry := 0, idx := 0,
    out := okWith 0 }

/-- Acceptance of w, one atomic step (60 R240). -/
def accept (w : Word) (s : State) : State :=
  { s with csr := s.csr.accept w, engine := some (Engine.accepted w s.csr.setup) }

/-- A host write to CMD: acceptance when IDLE, OVERRUN when BUSY (10 R28; 60 R240, R241). -/
def writeCmd (w : Word) (s : State) : State :=
  match s.engine with
  | none => accept w s
  | some _ => { s with csr := s.csr.overran }

/-- `finish(code, phase, result)` of command i (`none`: a word that selects no command), one atomic step: the
controller's exception entry (60 R244, R247). Its return is a STATUS write or the next acceptance (R248). -/
def finish (i : Option Instr) (k : Completion) (s : State) : State :=
  { s with csr := (s.csr.finish k).shadow i k.code, engine := none }

/-! ## Running a command -/

/-- The engine runs a command: a meaning needs one accepted. -/
def running (s : State) (k : Engine → Host.Outcome State Fault Refusal) : Host.Outcome State Fault Refusal :=
  match s.engine with
  | none => .fault .engineIdle
  | some e => k e

/-- The engine's local state replaced. -/
def State.setEngine (s : State) (e : Engine) : State := { s with engine := some e }

/-- The engine at another position. -/
def Engine.goto (e : Engine) (p : Pos) : Engine := { e with pos := p }

/-- The engine after a register read outside a poll gave v, at position p. -/
def Engine.readAt (e : Engine) (v : Word) (p : Pos) : Engine := { e with read := v, pos := p }

/-- Command i after the bus answered: performed, it goes on with `k`; an error, it "finishes at once with
finish(BUS_ERR, 0, 0)" (00 R12, 60 R243; log 7). -/
def settle {α : Type} (i : Instr) (b : Reply α) (k : α → State → State) : State :=
  match b with
  | .done v s => k v s
  | .error s => finish (some i) busError s

/-- One bus primitive of command i: an address that is none of its space stops the model (`bad`; never under StateInv). -/
def proceed {α : Type} (i : Instr) (bad : Option Fault) (b : Reply α) (k : α → State → State) :
    Host.Outcome State Fault Refusal :=
  match bad with
  | some f => .fault f
  | none => .next (settle i b k)

/-- One `R32` of a command, then `k` of the value. -/
def readStep (i : Instr) (a : Nat) (s : State) (k : Word → State → State) : Host.Outcome State Fault Refusal :=
  proceed i (regFault a) (read32 a s) k

/-- One `MemRead` of a command, then `k` of the value. -/
def loadStep (i : Instr) (pa : Nat) (s : State) (k : Dword → State → State) : Host.Outcome State Fault Refusal :=
  proceed i (memFault pa) (memRead8 pa s) k

/-- One `W32` of a command, after which the engine is e. -/
def writeStep (i : Instr) (e : Engine) (a : Nat) (v : Word) (s : State) : Host.Outcome State Fault Refusal :=
  proceed i (regFault a) (write32 a v s) fun _ t => t.setEngine e

/-- One `MemWrite` of a command, after which the engine is e. -/
def storeStep (i : Instr) (e : Engine) (pa : Nat) (v : Dword) (s : State) : Host.Outcome State Fault Refusal :=
  proceed i (memFault pa) (memWrite8 pa v s) fun _ t => t.setEngine e

/-- T, the bound of every poll of the command: snap.TIMEOUT (40 R130). -/
def Engine.bound (e : Engine) : Nat := e.snap.setup.timeout.toNat

/-- The engine about to `finish` with k. -/
def Engine.ends (e : Engine) (k : Completion) : Engine := { e with pos := .finish, out := k }

/-- Entering POLL: n = 0, last = 0; with T = 0 it returns TIMEOUT at once, with no read (40 R130, R131). -/
def Engine.enterPoll (e : Engine) (x : Site) : Engine :=
  if 0 < e.bound then { e with n := 0, last := 0, pos := .pollRead x }
  else { e with n := 0, last := 0, pos := .finish, out := timeoutAt x 0 }

/-- The engine after a poll read v is counted: n = n + 1, last = v (40 R130). -/
def Engine.counted (e : Engine) (v : Word) : Engine := { e with n := e.n + 1, last := v }

/-- Where the engine goes after a poll read v (40 R130): on a match as `matched` says, else to a tick wait, or to
TIMEOUT after T reads. -/
def Engine.polled (e : Engine) (x : Site) (mask expected : Word) (matched : Engine → Engine) (v : Word) : Engine :=
  if v &&& mask = expected then matched (e.counted v)
  else if e.n + 1 < e.bound then (e.counted v).goto (.pollTick x)
  else (e.counted v).ends (timeoutAt x v)

/-- One round of POLL: the read, POLL_COUNT, the compare (40 R130). -/
def pollRound (i : Instr) (e : Engine) (x : Site) (addr : Nat) (mask expected : Word)
    (matched : Engine → Engine) (s : State) : Host.Outcome State Fault Refusal :=
  readStep i addr s fun v t =>
    { t with csr := t.csr.countPoll, engine := some (e.polled x mask expected matched v) }

/-- A tick event: it ends the `WaitTick()` the engine is in and has no other effect (10 R47; log 8). -/
def Engine.ticked (e : Engine) : Engine :=
  match e.pos with
  | .pollTick x => e.goto (.pollRead x)
  | _ => e

/-- A tick event (10 R22, R47). -/
def tick (s : State) : State :=
  match s.engine with
  | none => s
  | some e => s.setEngine e.ticked

/-- The reset input (10 R24; 70 R280-R282): every CSR at its reset value, the engine IDLE with no snapshot and no hidden
state; external state untouched (R56). -/
def resetInput (s : State) : State := { s with csr := Csrs.reset, engine := none }

end Machine

end Sys2Proof
end

