-- ==== Sys2Proof/Machine/Mdio.lean ====
section
/-! DEFINITION. MDIO_RD and MDIO_WR: clause-45 transactions in two phases (43_mdio.md R210-R223). -/

namespace Sys2Proof.Machine

/-- ACC, the access register of the slot. -/
def mdioAcc (e : Engine) (a : Slot) : Nat := regAddr (e.snap.setup.agt a).mdioAccAddr
/-- STS, the status register of the slot. -/
def mdioSts (e : Engine) (a : Slot) : Nat := regAddr (e.snap.setup.agt a).mdioStsAddr

/-- Step 1: clear pending completion flags (R211). -/
def mdioClear (i : Instr) (a : Slot) (e : Engine) (s : State) : Host.Outcome State Fault Refusal :=
  writeStep i (e.goto .mdioAddress) (mdioSts e a) allFlags s

/-- Step 2: the address phase's write, then its POLL (R212). -/
def mdioAddressWrite (i : Instr) (a : Slot) (phy dev : Nat) (e : Engine) (s : State) :
    Host.Outcome State Fault Refusal :=
  writeStep i (e.enterPoll .address) (mdioAcc e a) (addrWord phy dev e.snap.mdioReg) s

/-- Step 2: a poll for address-complete; its timeout ends the command before any op-phase access (R213). -/
def mdioAddressPoll (i : Instr) (a : Slot) (e : Engine) (s : State) : Host.Outcome State Fault Refusal :=
  pollRound i e .address (mdioSts e a) addrDone addrDone (fun f => f.goto .mdioAck) s

/-- Step 3: clear address-complete alone (R214). -/
def mdioAddressAck (i : Instr) (a : Slot) (e : Engine) (s : State) : Host.Outcome State Fault Refusal :=
  writeStep i (e.goto .mdioOp) (mdioSts e a) addrDone s

/-- MDIO_RD (R210): its access at the engine's position, or its `finish`. -/
def execMdioRd (a : Slot) (phy dev : Nat) (s : State) : Host.Outcome State Fault Refusal :=
  running s fun e =>
    match e.pos with
    | .start => mdioClear (.mdioRd a phy dev) a e s
    | .mdioAddress => mdioAddressWrite (.mdioRd a phy dev) a phy dev e s
    | .pollRead .address => mdioAddressPoll (.mdioRd a phy dev) a e s
    | .pollTick .address => .next s
    | .mdioAck => mdioAddressAck (.mdioRd a phy dev) a e s
    | .mdioOp => writeStep (.mdioRd a phy dev) (e.enterPoll .op) (mdioAcc e a) (readWord phy dev) s
    | .pollRead .op => pollRound (.mdioRd a phy dev) e .op (mdioSts e a) rdDone rdDone (fun f => f.goto .mdioData) s
    | .pollTick .op => .next s
    | .mdioData =>
      -- step 5: one read of the access register (R216)
      readStep (.mdioRd a phy dev) (mdioAcc e a) s fun v u => u.setEngine (e.readAt v .mdioReadAck)
    | .mdioReadAck =>
      -- step 5: clear read-complete, then the result is bits 31:16 (R216)
      writeStep (.mdioRd a phy dev) (e.ends (okWith (readResult e.read))) (mdioSts e a) rdDone s
    | .finish => .next (finish (some (.mdioRd a phy dev)) e.out s)
    | _ => .fault .wrongPosition

/-- MDIO_WR (R220): its access at the engine's position, or its `finish`; write-complete is left set (R218). -/
def execMdioWr (a : Slot) (phy dev : Nat) (s : State) : Host.Outcome State Fault Refusal :=
  running s fun e =>
    match e.pos with
    | .start => mdioClear (.mdioWr a phy dev) a e s
    | .mdioAddress => mdioAddressWrite (.mdioWr a phy dev) a phy dev e s
    | .pollRead .address => mdioAddressPoll (.mdioWr a phy dev) a e s
    | .pollTick .address => .next s
    | .mdioAck => mdioAddressAck (.mdioWr a phy dev) a e s
    | .mdioOp =>
      writeStep (.mdioWr a phy dev) (e.enterPoll .op) (mdioAcc e a) (writeWord phy dev e.snap.mdioWriteData) s
    | .pollRead .op =>
      pollRound (.mdioWr a phy dev) e .op (mdioSts e a) wrDone wrDone (fun f => f.ends (okWith 0)) s
    | .pollTick .op => .next s
    | .finish => .next (finish (some (.mdioWr a phy dev)) e.out s)
    | _ => .fault .wrongPosition

end Sys2Proof.Machine
end

