-- ==== Sys2Proof/Machine/Mode.lean ====
section
/-! DEFINITION. MODE: the agent mode transition (41_mode.md R150-R160), the same for both slots (R158). -/

namespace Sys2Proof.Machine

/-- Where MODE goes once the status matched: on DISABLE the clock gate is turned off (step 4, R153), else the command
finishes OK with RESULT the value read. -/
def modeMatched (t : AgentMode) (e : Engine) : Engine :=
  match t with
  | .disable => if e.snap.setup.clkdisAddr = 0 then e.goto .gateReread else e.goto .gateDisable
  | .reset => e.ends (okWith e.last)
  | .config => e.ends (okWith e.last)
  | .operation => e.ends (okWith e.last)

/-- MODE a, t (R150): its access at the engine's position, or its `finish`. -/
def execMode (a : Slot) (t : AgentMode) (s : State) : Host.Outcome State Fault Refusal :=
  running s fun e =>
    match e.pos with
    | .start =>
      -- step 1: is the clock gate enabled? (R151)
      readStep (.mode a t) (regAddr e.snap.setup.clkenAddr) s fun c u =>
        u.setEngine (e.readAt c (if c &&& e.snap.clkMask a = 0 then .gateSet else .modeWrite))
    | .gateSet =>
      -- step 1: enable it
      writeStep (.mode a t) (e.goto .modeWrite) (regAddr e.snap.setup.clkenAddr) (e.read ||| e.snap.clkMask a) s
    | .modeWrite =>
      -- step 2 (R152)
      writeStep (.mode a t) (e.enterPoll .single) (regAddr (e.snap.setup.agt a).mcAddr) (modeWord t) s
    | .pollRead .single =>
      -- step 3 (R152)
      pollRound (.mode a t) e .single (regAddr (e.snap.setup.agt a).msAddr) (e.snap.setup.agt a).msMask (modeWord t)
        (modeMatched t) s
    | .pollTick .single => .next s
    | .gateReread =>
      -- step 4, CLKDIS_ADDR = 0: re-read, "so that bits other masters changed in between are kept" (R153)
      readStep (.mode a t) (regAddr e.snap.setup.clkenAddr) s fun c u => u.setEngine (e.readAt c .gateClear)
    | .gateClear =>
      writeStep (.mode a t) (e.ends (okWith e.last)) (regAddr e.snap.setup.clkenAddr)
        (e.read &&& ~~~(e.snap.clkMask a)) s
    | .gateDisable =>
      -- step 4, CLKDIS_ADDR ≠ 0: CLKMASK alone to that address (R153)
      writeStep (.mode a t) (e.ends (okWith e.last)) (regAddr e.snap.setup.clkdisAddr) (e.snap.clkMask a) s
    | .finish => .next (finish (some (.mode a t)) e.out s)
    | _ => .fault .wrongPosition

end Sys2Proof.Machine
end

