-- ==== Sys2Proof/Machine/Ring.lean ====
section
/-! DEFINITION. FORMAT: descriptor-ring layout with link closure (42_ring.md R170-R186). -/

namespace Sys2Proof.Machine

/-- The first access of data slot i: a receive slot reads its buffer-table entry first (R178, R180). -/
def slotStart (d : Dir) : Pos :=
  match d with
  | .receive => .entryRead
  | .transmit => .slot .header

/-- FORMAT before its first access: VALIDATE, then data slot 0 (R170, R173). -/
def formatEntry (m : Params) (c : Nat) (l : Layout) (d : Dir) (e : Engine) : Engine :=
  match e.pos with
  | .start =>
    if validate m e.snap c l d then { e with pos := slotStart d, idx := 0 } else e.ends badArgument
  | _ => e

/-- After word w of data slot idx: its next word, else the next data slot, else the link slot N-1 (R170, R178). -/
def afterSlotWord (l : Layout) (d : Dir) (w : SlotWord) (e : Engine) : Engine :=
  match w.next l with
  | some w' => e.goto (.slot w')
  | none =>
    if e.idx + 2 < e.snap.numRing then { e with pos := slotStart d, idx := e.idx + 1 }
    else { e with pos := .link .header, idx := e.idx + 1 }

/-- After word w of the link slot: its next word, else the base-descriptor table entry. -/
def afterLinkWord (l : Layout) (w : SlotWord) (e : Engine) : Engine :=
  match w.next l with
  | some w' => e.goto (.link w')
  | none => e.goto .table

/-- After the read of a buffer-table entry v: the slot's header, or BAD_ARG when bits 63:40 are not all 0 (R181). -/
def afterEntry (v : Dword) (e : Engine) : Engine :=
  if entryFits v then { e with entry := v, pos := .slot .header } else { e with entry := v, pos := .finish, out := badArgument }

/-- FORMAT (R170): its access at the engine's position, or its `finish`. -/
def execFormat (c : Nat) (l : Layout) (d : Dir) (s : State) : Host.Outcome State Fault Refusal :=
  running s fun e0 =>
    let e := formatEntry s.params c l d e0
    match e.pos with
    | .entryRead =>
      loadStep (.format c l d) (entryAddr e.snap e.idx) s fun v u => u.setEngine (afterEntry v e)
    | .slot w =>
      storeStep (.format c l d) (afterSlotWord l d w e) (slotAddr e.snap l e.idx + w.offset)
        (w.value (dataHeader e.snap d e.entry)) s
    | .link w =>
      storeStep (.format c l d) (afterLinkWord l w e) (slotAddr e.snap l (e.snap.numRing - 1) + w.offset)
        (w.value (linkHeader e.snap d)) s
    | .table => storeStep (.format c l d) (e.goto .control) (tableAddr e.snap c) (tableHeader e.snap) s
    | .control => writeStep (.format c l d) (e.ends (okWith 0)) (controlAddr e.snap c) (controlWord d l) s
    | .finish => .next (finish (some (.format c l d)) e.out s)
    | _ => .fault .wrongPosition

end Sys2Proof.Machine
end

