-- ==== Sys2Proof/Machine/Wait.lean ====
section
/-! DEFINITION. NOP and WAIT (40_wait.md R140, R145). Each call of a meaning is one atomic step of the engine: the
primitive at its position (00_scope.md R12). -/

namespace Sys2Proof.Machine

/-- NOP: `finish(OK, 0, 0)` (R145). -/
def execNop (s : State) : Host.Outcome State Fault Refusal :=
  running s fun e =>
    match e.pos with
    | .start => .next (finish (some .nop) (okWith 0) s)
    | _ => .fault .wrongPosition

/-- WAIT before its first primitive: the alignment check, then POLL (R140). -/
def waitEntry (e : Engine) : Engine :=
  match e.pos with
  | .start => if e.snap.waitAligned then e.enterPoll .single else e.ends badArgument
  | _ => e

/-- WAIT (R140): POLL(ADDR, MASK, EXPECTED), then `finish`; RESULT is the last value read. -/
def execWait (s : State) : Host.Outcome State Fault Refusal :=
  running s fun e =>
    match (waitEntry e).pos with
    | .pollRead .single =>
      pollRound .wait (waitEntry e) .single e.snap.waitAddr.toNat e.snap.waitMask e.snap.waitExpected
        (fun f => f.ends (okWith f.last)) s
    | .pollTick .single => .next s
    | .finish => .next (finish (some .wait) (waitEntry e).out s)
    | _ => .fault .wrongPosition

end Sys2Proof.Machine
end

