-- ==== Sys2Proof/Machine/Dispatch.lean ====
section
/-! DEFINITION. One arm per command of the MC45 command set (30_encoding.md R102): one atomic step of the engine while
it runs that command. -/

namespace Sys2Proof.Machine

def exec (i : Instr) (s : State) : Host.Outcome State Fault Refusal :=
  match i with
  | .nop => Sys2Proof.Machine.execNop s
  | .wait => Sys2Proof.Machine.execWait s
  | .mode agt target => Sys2Proof.Machine.execMode agt target s
  | .format chain layout dir => Sys2Proof.Machine.execFormat chain layout dir s
  | .mdioRd agt phy dev => Sys2Proof.Machine.execMdioRd agt phy dev s
  | .mdioWr agt phy dev => Sys2Proof.Machine.execMdioWr agt phy dev s

end Sys2Proof.Machine
end

