-- ==== Sys2Proof/Machine/HostPort.lean ====
section
/-! DEFINITION. The host slave port: the CSR map and its access rules (10_state.md R21, R26-R44); and the host's and the
environment's own accesses to targets (00_scope.md R15, 20_memory.md R72, 30_encoding.md R117). -/

namespace Sys2Proof.Machine

/-- The CSRs of the window (R26); `reserved` is any offset the map does not give. -/
inductive CsrName where
  | id
  | cmd
  | status
  | result
  | irqEn
  | timeout
  | pollCount
  | clkenAddr
  | clkdisAddr
  | bdtBaseLo
  | bdtBaseHi
  | chainCtrlBase
  | mcAddr (a : Slot)
  | msAddr (a : Slot)
  | msMask (a : Slot)
  | clkBit (a : Slot)
  | mdioAccAddr (a : Slot)
  | mdioStsAddr (a : Slot)
  | agtState (a : Slot)
  | arg (k : Fin 8)
  | reserved
  deriving DecidableEq, Repr

/-- Where an agent slot's registers begin: 0x040 + 0x20·a (R26). -/
def slotOffset : Slot → Nat
  | .zero => 0x040
  | .one => 0x060

/-- The registers of one agent slot, at their offsets (R26). -/
def slotMap (a : Slot) : List (Nat × CsrName) :=
  [(slotOffset a + 0x00, .mcAddr a), (slotOffset a + 0x04, .msAddr a), (slotOffset a + 0x08, .msMask a),
   (slotOffset a + 0x0C, .clkBit a), (slotOffset a + 0x10, .mdioAccAddr a), (slotOffset a + 0x14, .mdioStsAddr a),
   (slotOffset a + 0x18, .agtState a)]

/-- R26's map: every offset that is not reserved. -/
def csrMap : List (Nat × CsrName) :=
  [(0x000, .id), (0x004, .cmd), (0x008, .status), (0x00C, .result), (0x010, .irqEn), (0x014, .timeout),
   (0x018, .pollCount), (0x01C, .clkenAddr), (0x020, .clkdisAddr), (0x024, .bdtBaseLo), (0x028, .bdtBaseHi),
   (0x02C, .chainCtrlBase)]
  ++ slotMap .zero ++ slotMap .one
  ++ [(0x080, .arg 0), (0x084, .arg 1), (0x088, .arg 2), (0x08C, .arg 3),
      (0x090, .arg 4), (0x094, .arg 5), (0x098, .arg 6), (0x09C, .arg 7)]

/-- The CSR at an offset of the window; reserved where the map has no row (R42). -/
def csrAt (off : Nat) : CsrName := (Cells.find csrMap off).getD .reserved

/-- A CSR whose bits 1:0 are hardwired 0, as it reads. -/
def addrView (v : BitVec 30) : Word := v ++ 0#2

/-- The bits 31:2 such a CSR stores of a write. -/
def addrBits (w : Word) : BitVec 30 := w.extractLsb' 2 30

def ArgFile.get (f : ArgFile) (k : Fin 8) : Word :=
  match k with
  | 0 => f.arg0
  | 1 => f.arg1
  | 2 => f.arg2
  | 3 => f.arg3
  | 4 => f.arg4
  | 5 => f.arg5
  | 6 => f.arg6
  | 7 => f.arg7

def ArgFile.set (f : ArgFile) (k : Fin 8) (w : Word) : ArgFile :=
  match k with
  | 0 => { f with arg0 := w }
  | 1 => { f with arg1 := w }
  | 2 => { f with arg2 := w }
  | 3 => { f with arg3 := w }
  | 4 => { f with arg4 := w }
  | 5 => { f with arg5 := w }
  | 6 => { f with arg6 := w }
  | 7 => { f with arg7 := w }

/-- The AGTa_STATE of a slot (R39). -/
def Csrs.agtState (c : Csrs) : Slot → AgentShadow
  | .zero => c.state0
  | .one => c.state1

/-- ID, "MC45" (R27). -/
def idWord : Word := 0x4D433435

/-- What a CSR reads as (R26-R40); reads have no side effects (R44). -/
def readCsr (n : CsrName) (s : State) : Word :=
  match n with
  | .id => idWord
  | .cmd => s.csr.cmd
  | .status => s.statusWord
  | .result => s.csr.result
  | .irqEn => s.csr.irqEnWord
  | .timeout => s.csr.setup.timeout
  | .pollCount => s.csr.pollCount
  | .clkenAddr => addrView s.csr.setup.clkenAddr
  | .clkdisAddr => addrView s.csr.setup.clkdisAddr
  | .bdtBaseLo => s.csr.setup.bdtBaseLo ++ 0#3
  | .bdtBaseHi => s.csr.setup.bdtBaseHi.setWidth 32
  | .chainCtrlBase => addrView s.csr.setup.chainCtrlBase
  | .mcAddr a => addrView (s.csr.setup.agt a).mcAddr
  | .msAddr a => addrView (s.csr.setup.agt a).msAddr
  | .msMask a => (s.csr.setup.agt a).msMask
  | .clkBit a => (s.csr.setup.agt a).clkBit.setWidth 32
  | .mdioAccAddr a => addrView (s.csr.setup.agt a).mdioAccAddr
  | .mdioStsAddr a => addrView (s.csr.setup.agt a).mdioStsAddr
  | .agtState a => (s.csr.agtState a).word
  | .arg k => s.csr.setup.args.get k
  | .reserved => 0

/-- The descriptor registers of a slot changed. -/
def Setup.mapAgt (u : Setup) (a : Slot) (f : AgentRegs → AgentRegs) : Setup :=
  match a with
  | .zero => { u with agt0 := f u.agt0 }
  | .one => { u with agt1 := f u.agt1 }

/-- A write to a CSR of the setup group: RW bits store the bits written, hardwired bits ignore them (R34-R38, R44).
`none` for every other CSR. -/
def Setup.write (u : Setup) (n : CsrName) (w : Word) : Option Setup :=
  match n with
  | .timeout => some { u with timeout := w }
  | .clkenAddr => some { u with clkenAddr := addrBits w }
  | .clkdisAddr => some { u with clkdisAddr := addrBits w }
  | .bdtBaseLo => some { u with bdtBaseLo := w.extractLsb' 3 29 }
  | .bdtBaseHi => some { u with bdtBaseHi := w.extractLsb' 0 8 }
  | .chainCtrlBase => some { u with chainCtrlBase := addrBits w }
  | .mcAddr a => some (u.mapAgt a fun g => { g with mcAddr := addrBits w })
  | .msAddr a => some (u.mapAgt a fun g => { g with msAddr := addrBits w })
  | .msMask a => some (u.mapAgt a fun g => { g with msMask := w })
  | .clkBit a => some (u.mapAgt a fun g => { g with clkBit := w.extractLsb' 0 5 })
  | .mdioAccAddr a => some (u.mapAgt a fun g => { g with mdioAccAddr := addrBits w })
  | .mdioStsAddr a => some (u.mapAgt a fun g => { g with mdioStsAddr := addrBits w })
  | .arg k => some { u with args := u.args.set k w }
  | .id => none
  | .cmd => none
  | .status => none
  | .result => none
  | .irqEn => none
  | .pollCount => none
  | .agtState _ => none
  | .reserved => none

/-- A host write to a CSR: CMD starts a command or sets OVERRUN (R28), STATUS is W1C (R29), IRQ_EN stores DONE_IE
(R31), the setup group stores its RW bits; a write to a RO CSR or a reserved offset is ignored (R26, R42, R44). -/
def writeCsr (n : CsrName) (w : Word) (s : State) : State :=
  match n with
  | .cmd => writeCmd w s
  | .status => { s with csr := s.csr.writeStatus w }
  | .irqEn => { s with csr := { s.csr with doneIe := w.getLsbD 0 } }
  | _ =>
    match s.csr.setup.write n w with
    | some u => { s with csr := { s.csr with setup := u } }
    | none => s

/-- How an access of the host's address space meets the window (R21, R43; log 10). -/
inductive PortAccess where
  /-- It does not reach the window. -/
  | outside
  /-- Narrow or misaligned: a slave error. -/
  | bad
  /-- An aligned 32-bit access at an offset. -/
  | at (off : Nat)
  deriving DecidableEq, Repr

def portAccess (m : Params) (addr size : Nat) : PortAccess :=
  if addr < m.ctrlBase ∨ m.ctrlBase + 256 ≤ addr then .outside
  else if size = 4 ∧ (addr - m.ctrlBase) % 4 = 0 then .at (addr - m.ctrlBase)
  else .bad

/-- A host read, one atomic step (10 R25): the CSR's value, a slave error that "changes no state" (R43), or nothing. -/
def hostRead (addr size : Nat) (s : State) : State :=
  match portAccess s.params addr size with
  | .outside => { s with host := .none }
  | .bad => { s with host := .slaveError }
  | .at off => { s with host := .word (readCsr (csrAt off) s) }

/-- A host write, one atomic step. -/
def hostWrite (addr size : Nat) (w : Word) (s : State) : State :=
  match portAccess s.params addr size with
  | .outside => { s with host := .none }
  | .bad => { s with host := .slaveError }
  | .at off => { writeCsr (csrAt off) w s with host := .none }

/-- The host's own access to a target, answered by the environment (20 R72, R73, R93; log 11). -/
def hostTarget (x : TargetAccess) (s : State) : Host.Outcome State Fault Refusal :=
  match x with
  | .r32 a =>
    match regFault a with
    | some f => .fault f
    | none =>
      .next { s with
        host := .word (s.env.regValue a)
        env := s.env.performed .host (.r32 a (s.env.regValue a)) }
  | .w32 a v =>
    match regFault a with
    | some f => .fault f
    | none => .next { s with host := .none, env := (s.env.performed .host (.w32 a v)).putReg a v }
  | .ld64 pa =>
    match memFault pa with
    | some f => .fault f
    | none =>
      .next { s with
        host := .dword (s.env.memValue pa)
        env := s.env.performed .host (.memRead pa (s.env.memValue pa)) }
  | .st64 pa v =>
    match memFault pa with
    | some f => .fault f
    | none => .next { s with host := .none, env := (s.env.performed .host (.memWrite pa v)).putMem pa v }

/-- A change of target state the environment makes by itself (20 R72; log 11). -/
def environment (x : TargetChange) (s : State) : Host.Outcome State Fault Refusal :=
  match x with
  | .register a v =>
    match regFault a with
    | some f => .fault f
    | none => .next { s with env := s.env.putReg a v }
  | .byte pa b =>
    if pa < 2 ^ 40 then .next { s with env := s.env.putByte pa b } else .fault .memoryOutside

end Sys2Proof.Machine
end

