-- ==== Sys2Proof/Machine/Step.lean ====
section
/-! DEFINITION. One atomic step of the machine: of the engine, the host, the environment or the reset input
(00_scope.md R15; 10_state.md R25), as the schedule in State says (log 1). -/

namespace Sys2Proof.Machine

/-- A step of the engine: IDLE "makes no bus access" (10 R45); BUSY, it decodes the accepted word "first and makes no
bus access before it" (30 R104), finishes ILLEGAL when no command is selected, and else runs the command. -/
def engineStep (s : State) : Host.Outcome State Fault Refusal :=
  match s.engine with
  | none => .next s
  | some e =>
    match decode e.snap.cmd with
    | .error _ => .next (finish none illegalCommand s)
    | .ok i => exec i s

/-- One event. -/
def eventStep (x : Event) (s : State) : Host.Outcome State Fault Refusal :=
  match x with
  | .engine => engineStep s
  | .hostRead addr size => .next (hostRead addr size s)
  | .hostWrite addr size w => .next (hostWrite addr size w s)
  | .hostTarget a => hostTarget a s
  | .environment c => environment c s
  | .tick => .next (tick s)
  | .reset => .next (resetInput s)

/-- One atomic step: the first event scheduled; with none scheduled, the engine moves (log 1). -/
def step (s : State) : Host.Outcome State Fault Refusal :=
  match s.inputs with
  | [] => engineStep s
  | x :: rest => eventStep x { s with inputs := rest }

/-- s with the command word w accepted (60 R240) and the engine scheduled to move next, so that the next step runs it:
a command is "one word written to CMD" (10 R49), there is no other fetch (log 5). -/
def State.withFetchWord (s : State) (_nbits w : Nat) : State :=
  { accept (BitVec.ofNat 32 w) s with inputs := .engine :: s.inputs }

end Sys2Proof.Machine
end

