-- ==== Sys2Proof/Safety.lean ====
section
/-! DEFINITION. What counts as a safe state and a safe run, in the terms the claims use: the invariant every step keeps,
and the runs of the engine. -/

namespace Sys2Proof.Machine

/-- The completion is one of those a command can raise: a code with its phase (60 R242, 10 R29). BUS_ERR is not among
them: it ends a command at the access itself (60 R243). -/
def Completion.among (k : Completion) (l : List (Code × Phase)) : Bool := decide ((k.code, k.phase) ∈ l)

def waitEnds : List (Code × Phase) := [(.ok, .none), (.timeout, .poll), (.badArg, .none)]
def modeEnds : List (Code × Phase) := [(.ok, .none), (.timeout, .poll)]
def formatEnds : List (Code × Phase) := [(.ok, .none), (.badArg, .none)]
def mdioEnds : List (Code × Phase) := [(.ok, .none), (.timeout, .address), (.timeout, .op)]

/-- A poll in progress has made fewer than T reads (40 R130). -/
def Engine.polling (e : Engine) : Bool := decide (e.n < e.bound)

/-- Positions of NOP. -/
def nopFits (e : Engine) : Bool :=
  match e.pos with
  | .start => true
  | _ => false

/-- Positions of WAIT: it polls an aligned address, and it is about to finish OK only with a value that matched
(40 R132, R140). -/
def waitFits (e : Engine) : Bool :=
  match e.pos with
  | .start => true
  | .pollRead .single => e.snap.waitAligned && e.polling
  | .pollTick .single => e.snap.waitAligned && e.polling
  | .finish =>
    e.out.among waitEnds && (decide (e.out.code ≠ .ok) || decide (e.out.result &&& e.snap.waitMask = e.snap.waitExpected))
  | _ => false

/-- The status value v is one MODE may succeed on (41 R152). -/
def modeSeen (a : Slot) (t : AgentMode) (e : Engine) (v : Word) : Bool :=
  decide (v &&& (e.snap.setup.agt a).msMask = modeWord t)

/-- Positions of MODE: the clock gate is turned off only for DISABLE and only after a status value that matched, and
MODE is about to finish OK only with a value that matched (40 R132, 41 R153). -/
def modeFits (a : Slot) (t : AgentMode) (e : Engine) : Bool :=
  match e.pos with
  | .start => true
  | .gateSet => true
  | .modeWrite => true
  | .pollRead .single => e.polling
  | .pollTick .single => e.polling
  | .gateReread => decide (t = .disable ∧ e.snap.setup.clkdisAddr = 0) && modeSeen a t e e.last
  | .gateClear => decide (t = .disable ∧ e.snap.setup.clkdisAddr = 0) && modeSeen a t e e.last
  | .gateDisable => decide (t = .disable ∧ e.snap.setup.clkdisAddr ≠ 0) && modeSeen a t e e.last
  | .finish => e.out.among modeEnds && (decide (e.out.code ≠ .ok) || modeSeen a t e e.out.result)
  | _ => false

/-- A word of a slot of the layout (20 R83). -/
def SlotWord.inLayout (w : SlotWord) (l : Layout) : Bool := decide (w.offset < slotSize l)

/-- Positions of FORMAT: past VALIDATE, inside the ring (42 R170, R173). -/
def formatFits (m : Params) (c : Nat) (l : Layout) (d : Dir) (e : Engine) : Bool :=
  match e.pos with
  | .start => true
  | .entryRead => validate m e.snap c l d && decide (d = .receive ∧ e.idx + 1 < e.snap.numRing)
  | .slot w => validate m e.snap c l d && decide (e.idx + 1 < e.snap.numRing) && w.inLayout l
  | .link w => validate m e.snap c l d && w.inLayout l
  | .table => validate m e.snap c l d
  | .control => validate m e.snap c l d
  | .finish => e.out.among formatEnds
  | _ => false

/-- Positions of MDIO_RD. -/
def mdioRdFits (e : Engine) : Bool :=
  match e.pos with
  | .start => true
  | .mdioAddress => true
  | .pollRead .address => e.polling
  | .pollTick .address => e.polling
  | .mdioAck => true
  | .mdioOp => true
  | .pollRead .op => e.polling
  | .pollTick .op => e.polling
  | .mdioData => true
  | .mdioReadAck => true
  | .finish => e.out.among mdioEnds
  | _ => false

/-- Positions of MDIO_WR. -/
def mdioWrFits (e : Engine) : Bool :=
  match e.pos with
  | .start => true
  | .mdioAddress => true
  | .pollRead .address => e.polling
  | .pollTick .address => e.polling
  | .mdioAck => true
  | .mdioOp => true
  | .pollRead .op => e.polling
  | .pollTick .op => e.polling
  | .finish => e.out.among mdioEnds
  | _ => false

/-- The engine's position is one of the command i. -/
def posFits (m : Params) (i : Instr) (e : Engine) : Bool :=
  match i with
  | .nop => nopFits e
  | .wait => waitFits e
  | .mode a t => modeFits a t e
  | .format c l d => formatFits m c l d e
  | .mdioRd _ _ _ => mdioRdFits e
  | .mdioWr _ _ _ => mdioWrFits e

/-- The engine's position is one of the accepted command; a word that selects none is never run (30 R104). -/
def engineFits (m : Params) (e : Engine) : Bool :=
  match decode e.snap.cmd with
  | .error _ => nopFits e
  | .ok i => posFits m i e

/-- The invariant of the machine: "a state no run leaves". -/
structure StateInv (s : State) : Prop where
  /-- 2 <= NUM_CHAINS <= 256 (00 R9). -/
  params : s.params.wf
  /-- The memory space is in canonical form. -/
  mem    : Memory.wf s.env.mem = true
  /-- The register space is in canonical form. -/
  regs   : Registers.wf s.env.regs = true
  /-- While BUSY: DONE, ERR, CODE and PHASE are 0 (10 R29, 60 R240). -/
  busy   : s.busy = true → s.csr.done = false ∧ s.csr.err = false ∧ s.csr.code = .ok ∧ s.csr.phase = .none
  /-- ERR only with an error code (60 R244). -/
  err    : s.csr.err = true → s.csr.code ≠ .ok
  /-- PHASE is 0 unless the code is TIMEOUT (60 R244). -/
  phase  : s.csr.phase = .none ↔ s.csr.code ≠ .timeout
  /-- The engine's position is one of the accepted command. -/
  engine : ∀ e, s.engine = some e → engineFits s.params e = true

/-- The register-space address the engine writes to at its position, if it writes one (41 R150, 42 R184, 43 R210, R220). -/
def regWritten (i : Instr) (e : Engine) : Option Nat :=
  match i with
  | .mode a _ =>
    match e.pos with
    | .gateSet => some (regAddr e.snap.setup.clkenAddr)
    | .modeWrite => some (regAddr (e.snap.setup.agt a).mcAddr)
    | .gateClear => some (regAddr e.snap.setup.clkenAddr)
    | .gateDisable => some (regAddr e.snap.setup.clkdisAddr)
    | _ => none
  | .format c _ _ =>
    match e.pos with
    | .control => some (controlAddr e.snap c)
    | _ => none
  | .mdioRd a _ _ =>
    match e.pos with
    | .start => some (mdioSts e a)
    | .mdioAddress => some (mdioAcc e a)
    | .mdioAck => some (mdioSts e a)
    | .mdioOp => some (mdioAcc e a)
    | .mdioReadAck => some (mdioSts e a)
    | _ => none
  | .mdioWr a _ _ =>
    match e.pos with
    | .start => some (mdioSts e a)
    | .mdioAddress => some (mdioAcc e a)
    | .mdioAck => some (mdioSts e a)
    | .mdioOp => some (mdioAcc e a)
    | _ => none
  | .nop => none
  | .wait => none

/-- The memory-space address FORMAT stores 8 bytes at, at the engine's position, if it stores (42 R170). -/
def memWritten (m : Params) (i : Instr) (e : Engine) : Option Nat :=
  match i with
  | .format c l d =>
    match (formatEntry m c l d e).pos with
    | .slot w => some (slotAddr e.snap l (formatEntry m c l d e).idx + w.offset)
    | .link w => some (slotAddr e.snap l (e.snap.numRing - 1) + w.offset)
    | .table => some (tableAddr e.snap c)
    | _ => none
  | .nop => none
  | .wait => none
  | .mode _ _ => none
  | .mdioRd _ _ _ => none
  | .mdioWr _ _ _ => none

/-- k rounds of a schedule in which the engine moves and then the environment ticks: "fair ticks" (60 R262). -/
def fairRounds : Nat → List Event
  | 0 => []
  | k + 1 => .engine :: .tick :: fairRounds k

/-- k events in which the engine alone moves. -/
def engineOnly (k : Nat) : List Event := List.replicate k .engine

/-- The environment answers the next accesses with these read values and no error. -/
def scripted (vs : List Dword) : List Answer := vs.map fun v => { error := false, data := some v }

end Sys2Proof.Machine
end

