-- ==== Sys2Proof/Certificates/Slice0/Obligations.lean ====
section
/-! DEFINITION. The statements for the provers, one per entry of OBLIGATIONS.json. Each docstring names the rules of
spec/ it formalises. "log n" is notes/assumptions/n.md. -/

open Sys2Proof Sys2Proof.Machine

/-! ## Encoding -/

/-- 30 R100, R101, R117: decoding the command word of a well-formed instruction gives it back, every operand at every
value its field admits. -/
def Obligations.DecodeEncodeRoundTrip : Prop :=
  ∀ i : Instr, WellFormed i → decode (encode i) = .ok i

/-- 30 R100, R101: a word that decodes is the command word of the instruction it decodes to, and that instruction is
well-formed; no bit of the word is dropped. -/
def Obligations.EncodeDecodeRoundTrip : Prop :=
  ∀ (w : Word) (i : Instr), decode w = .ok i → WellFormed i ∧ encode i = w

/-- 30 R103: a word selects a command exactly when `(w & mask) == match`, with the masks and matches of the table; as
decode answers one instruction, no word selects two commands. -/
def Obligations.DecodeFollowsMaskAndMatch : Prop :=
  ∀ w : Word,
    (decode w = .ok .nop ↔ w &&& 0xFFFFFFFF = 0x00000000)
    ∧ (decode w = .ok .wait ↔ w &&& 0xFFFFFFFF = 0x00000001)
    ∧ ((∃ a t, decode w = .ok (.mode a t)) ↔ w &&& 0xFFFFFECF = 0x00000002)
    ∧ ((∃ c l d, decode w = .ok (.format c l d)) ↔ w &&& 0xFF00FFCF = 0x00000003)
    ∧ ((∃ a p v, decode w = .ok (.mdioRd a p v)) ↔ w &&& 0xE0E0FEFF = 0x00000004)
    ∧ ((∃ a p v, decode w = .ok (.mdioWr a p v)) ↔ w &&& 0xE0E0FEFF = 0x00000005)

/-- 30 R101: where each operand stands in the word: AGT bit 8, TARGET bits 5:4, DIR bit 4, LAYOUT bit 5, CHAIN bits
23:16, PHY bits 20:16, DEV bits 28:24. -/
def Obligations.DecodeReadsEachFieldInItsPlace : Prop :=
  ∀ w : Word,
    (∀ a t, decode w = .ok (.mode a t) → a.bits = (w >>> 8) &&& 0x1 ∧ t.bits = (w >>> 4) &&& 0x3)
    ∧ (∀ c l d, decode w = .ok (.format c l d) →
        c = ((w >>> 16) &&& 0xFF).toNat ∧ l.bits = (w >>> 5) &&& 0x1 ∧ d.bits = (w >>> 4) &&& 0x1)
    ∧ (∀ a p v, decode w = .ok (.mdioRd a p v) →
        a.bits = (w >>> 8) &&& 0x1 ∧ p = ((w >>> 16) &&& 0x1F).toNat ∧ v = ((w >>> 24) &&& 0x1F).toNat)
    ∧ (∀ a p v, decode w = .ok (.mdioWr a p v) →
        a.bits = (w >>> 8) &&& 0x1 ∧ p = ((w >>> 16) &&& 0x1F).toNat ∧ v = ((w >>> 24) &&& 0x1F).toNat)

/-- 95 L2.7: words of the encoding table, one or more of every format. -/
def Obligations.KnownCommandWordsDecode : Prop :=
  decode 0x00000000 = .ok .nop
  ∧ decode 0x00000001 = .ok .wait
  ∧ decode 0x00000012 = .ok (.mode .zero .disable)
  ∧ decode 0x00000132 = .ok (.mode .one .operation)
  ∧ decode 0x00000023 = .ok (.format 0 .timestamped .receive)
  ∧ decode 0x00010013 = .ok (.format 1 .plain .transmit)
  ∧ decode 0x1F1F0104 = .ok (.mdioRd .one 31 31)
  ∧ decode 0x07030105 = .ok (.mdioWr .one 3 7)

/-- 30 R104: a word that no row selects finishes ILLEGAL at once, with PHASE 0, RESULT 0 and no access; and which words
those are, by the masks of R103: an opcode 0x6-0xF, or an opcode 0x0-0x5 with a 1 in a reserved bit of its format. -/
def Obligations.UnselectedWordFinishesIllegal : Prop :=
  (∀ (s : State) (e : Engine) (x : DecodeError), s.engine = some e → s.inputs = [] → decode e.snap.cmd = .error x →
    step s = .next { s with
      engine := none
      csr := { s.csr with result := 0, code := .illegal, phase := .none, err := true, done := true } })
  ∧ (∀ w : Word, decode w = .error .reservedOpcode ↔ 6 ≤ (w &&& 0xF).toNat)
  ∧ (∀ w : Word, decode w = .error .reservedBit ↔
      ((w &&& 0xF = 0x0 ∨ w &&& 0xF = 0x1) ∧ w &&& 0xFFFFFFF0 ≠ 0)
      ∨ (w &&& 0xF = 0x2 ∧ w &&& 0xFFFFFEC0 ≠ 0)
      ∨ (w &&& 0xF = 0x3 ∧ w &&& 0xFF00FFC0 ≠ 0)
      ∨ ((w &&& 0xF = 0x4 ∨ w &&& 0xF = 0x5) ∧ w &&& 0xE0E0FEF0 ≠ 0))

/-! ## The step -/

/-- 00 R12, 10 R45, 60 R240: when the accepted word decodes to i, an engine step is exec of i; the schedule gives the
engine's turn (log 1), and the state that withFetchWord builds runs the word's command at the very next step (log 5);
an IDLE engine makes no access and its turn changes nothing. -/
def Obligations.StepRunsTheDecodedCommand : Prop :=
  (∀ (s : State) (e : Engine) (i : Instr) (rest : List Event), s.engine = some e → decode e.snap.cmd = .ok i →
    (s.inputs = [] → step s = exec i s)
    ∧ (s.inputs = .engine :: rest → step s = exec i { s with inputs := rest }))
  ∧ (∀ (s : State) (w : Nat) (i : Instr), decode (BitVec.ofNat 32 w) = .ok i →
    step (s.withFetchWord 32 w) = exec i (accept (BitVec.ofNat 32 w) s))
  ∧ (∀ (s : State) (rest : List Event), s.engine = none →
    (s.inputs = [] → step s = .next s)
    ∧ (s.inputs = .engine :: rest → step s = .next { s with inputs := rest }))

/-! ## Reset -/

/-- 10 R56, R57, 70 R280: the reset input, in any state: every CSR reads its reset value, the engine is IDLE with
no snapshot and no hidden state, irq is low, and no external state changes, so what an abandoned command has done stays;
State.reset has the same CSR values. -/
def Obligations.ResetPutsEveryCsrAtItsResetValue : Prop :=
  (∀ (s : State) (rest : List Event), s.inputs = .reset :: rest →
    ∃ t, step s = .next t ∧ t.engine = none ∧ t.irq = false ∧ t.env = s.env ∧ t.inputs = rest
      ∧ ∀ off : Nat, readCsr (csrAt off) t =
          if off = 0x000 then 0x4D433435 else if off = 0x014 then 0x000003E8
          else if off = 0x048 ∨ off = 0x068 then 0x00000003 else 0x00000000)
  ∧ State.reset.engine = none
  ∧ State.reset.irq = false
  ∧ ∀ off : Nat, readCsr (csrAt off) State.reset =
      if off = 0x000 then 0x4D433435 else if off = 0x014 then 0x000003E8
      else if off = 0x048 ∨ off = 0x068 then 0x00000003 else 0x00000000

/-! ## The host port -/

/-- 60 R240, 10 R41: a host write of w to CMD while IDLE is acceptance, one atomic step: CMD is w; DONE, ERR, CODE, PHASE
and POLL_COUNT are 0; the snapshot is w and the CSRs of R41 as they are now; OVERRUN, RESULT and every other CSR are
unchanged, irq is low; and the next engine step decodes w and runs the command. -/
def Obligations.CmdWriteWhileIdleStartsTheCommand : Prop :=
  ∀ (s : State) (w : Word) (rest : List Event), s.engine = none →
    s.inputs = .hostWrite (s.params.ctrlBase + 0x004) 4 w :: rest →
    ∃ (t : State) (e : Engine), step s = .next t
      ∧ t = { s with
          csr := { s.csr with cmd := w, done := false, err := false, code := .ok, phase := .none, pollCount := 0 }
          engine := some e, host := .none, inputs := rest }
      ∧ e.snap = { cmd := w, setup := s.csr.setup } ∧ e.pos = .start
      ∧ t.busy = true ∧ t.irq = false
      ∧ ∀ i, decode w = .ok i → step { t with inputs := [] } = exec i { t with inputs := [] }

/-- 60 R241, 10 R28: a host write to CMD while BUSY is ignored: CMD, the snapshot and the running command are unchanged,
and OVERRUN is set. -/
def Obligations.CmdWriteWhileBusyOnlySetsOverrun : Prop :=
  ∀ (s : State) (e : Engine) (w : Word) (rest : List Event), s.engine = some e →
    s.inputs = .hostWrite (s.params.ctrlBase + 0x004) 4 w :: rest →
    step s = .next { s with csr := { s.csr with overrun := true }, host := .none, inputs := rest }

/-- 10 R26, R31-R38, R40, R44, 95 S2-S4: every RW CSR reads back what was written on its RW bits and 0 on its hardwired
bits, through a host write and a host read of its offset, next to each other in the schedule (log 1; `host`, log 9). -/
def Obligations.HostReadsBackTheWritableBits : Prop :=
  ∀ (s : State) (w : Word) (p : Nat × Word),
    p ∈ [(0x010, 0x00000001), (0x014, 0xFFFFFFFF), (0x01C, 0xFFFFFFFC), (0x020, 0xFFFFFFFC), (0x024, 0xFFFFFFF8),
         (0x028, 0x000000FF), (0x02C, 0xFFFFFFFC),
         (0x040, 0xFFFFFFFC), (0x044, 0xFFFFFFFC), (0x048, 0xFFFFFFFF), (0x04C, 0x0000001F), (0x050, 0xFFFFFFFC),
         (0x054, 0xFFFFFFFC),
         (0x060, 0xFFFFFFFC), (0x064, 0xFFFFFFFC), (0x068, 0xFFFFFFFF), (0x06C, 0x0000001F), (0x070, 0xFFFFFFFC),
         (0x074, 0xFFFFFFFC),
         (0x080, 0xFFFFFFFF), (0x084, 0xFFFFFFFF), (0x088, 0xFFFFFFFF), (0x08C, 0xFFFFFFFF), (0x090, 0xFFFFFFFF),
         (0x094, 0xFFFFFFFF), (0x098, 0xFFFFFFFF), (0x09C, 0xFFFFFFFF)] →
    ∃ t, Host.Core.run Sys2Proof.core 2
        { s with inputs := [.hostWrite (s.params.ctrlBase + p.1) 4 w, .hostRead (s.params.ctrlBase + p.1) 4] } = .next t
      ∧ t.host = .word (w &&& p.2)

/-- 10 R26-R40, R44: what a host read gives at every offset that is not reserved, as the CSR's own bits (STATUS by
StatusLayoutAndWriteOneToClear, AGTa_STATE by OnlyModeWritesAgentState); a host read of the window has no side effect: it
changes the host's answer alone (`host`, log 9); a host write to one offset, CMD's apart, leaves what every other offset
reads, the engine and every target. The schedule gives the host's turn (log 1). -/
def Obligations.HostAccessTouchesOnlyItsCsr : Prop :=
  (∀ (s : State) (off other : Nat) (w : Word) (rest : List Event), off < 256 → off % 4 = 0 → off ≠ 0x004 → other ≠ off →
    s.inputs = .hostWrite (s.params.ctrlBase + off) 4 w :: rest →
    ∃ t, step s = .next t ∧ readCsr (csrAt other) t = readCsr (csrAt other) s ∧ t.engine = s.engine ∧ t.env = s.env)
  ∧ (∀ (s : State) (off : Nat) (rest : List Event), off < 256 → off % 4 = 0 →
    s.inputs = .hostRead (s.params.ctrlBase + off) 4 :: rest →
    step s = .next { s with host := .word (readCsr (csrAt off) s), inputs := rest })
  ∧ (∀ (s : State) (rest : List Event) (p : Nat × Word),
    p ∈ [(0x000, 0x4D433435), (0x004, s.csr.cmd), (0x008, s.statusWord), (0x00C, s.csr.result),
         (0x010, 0#31 ++ BitVec.ofBool s.csr.doneIe), (0x014, s.csr.setup.timeout), (0x018, s.csr.pollCount),
         (0x01C, s.csr.setup.clkenAddr ++ 0#2), (0x020, s.csr.setup.clkdisAddr ++ 0#2),
         (0x024, s.csr.setup.bdtBaseLo ++ 0#3), (0x028, 0#24 ++ s.csr.setup.bdtBaseHi),
         (0x02C, s.csr.setup.chainCtrlBase ++ 0#2), (0x040, s.csr.setup.agt0.mcAddr ++ 0#2),
         (0x044, s.csr.setup.agt0.msAddr ++ 0#2), (0x048, s.csr.setup.agt0.msMask),
         (0x04C, 0#27 ++ s.csr.setup.agt0.clkBit), (0x050, s.csr.setup.agt0.mdioAccAddr ++ 0#2),
         (0x054, s.csr.setup.agt0.mdioStsAddr ++ 0#2),
         (0x058, BitVec.ofBool s.csr.state0.valid ++ 0#29 ++ s.csr.state0.mode.bits.extractLsb' 0 2),
         (0x060, s.csr.setup.agt1.mcAddr ++ 0#2), (0x064, s.csr.setup.agt1.msAddr ++ 0#2),
         (0x068, s.csr.setup.agt1.msMask), (0x06C, 0#27 ++ s.csr.setup.agt1.clkBit),
         (0x070, s.csr.setup.agt1.mdioAccAddr ++ 0#2), (0x074, s.csr.setup.agt1.mdioStsAddr ++ 0#2),
         (0x078, BitVec.ofBool s.csr.state1.valid ++ 0#29 ++ s.csr.state1.mode.bits.extractLsb' 0 2),
         (0x080, s.csr.setup.args.arg0), (0x084, s.csr.setup.args.arg1), (0x088, s.csr.setup.args.arg2),
         (0x08C, s.csr.setup.args.arg3), (0x090, s.csr.setup.args.arg4), (0x094, s.csr.setup.args.arg5),
         (0x098, s.csr.setup.args.arg6), (0x09C, s.csr.setup.args.arg7)] →
    s.inputs = .hostRead (s.params.ctrlBase + p.1) 4 :: rest →
    readCsr (csrAt p.1) s = p.2 ∧ step s = .next { s with host := .word p.2, inputs := rest })

/-- 10 R26, R42, R44: a read of a reserved offset returns 0, a write to one is ignored, and so is a write to the
read-only CSRs ID, RESULT, POLL_COUNT and AGTa_STATE; neither is an error. -/
def Obligations.ReservedAndReadOnlyOffsetsIgnoreWrites : Prop :=
  ∀ (s : State) (off : Nat) (w : Word) (rest : List Event), off % 4 = 0 →
    (((0x030 ≤ off ∧ off ≤ 0x03C) ∨ off = 0x05C ∨ off = 0x07C ∨ (0x0A0 ≤ off ∧ off ≤ 0x0FC)) →
      (s.inputs = .hostRead (s.params.ctrlBase + off) 4 :: rest →
        step s = .next { s with host := .word 0, inputs := rest })
      ∧ (s.inputs = .hostWrite (s.params.ctrlBase + off) 4 w :: rest →
        step s = .next { s with host := .none, inputs := rest }))
    ∧ ((off = 0x000 ∨ off = 0x00C ∨ off = 0x018 ∨ off = 0x058 ∨ off = 0x078) →
      s.inputs = .hostWrite (s.params.ctrlBase + off) 4 w :: rest →
      step s = .next { s with host := .none, inputs := rest })

/-- 10 R29, 60 R242: the STATUS layout, with the numbers of the completion codes and phases; and the host write to it: it
clears DONE, ERR and OVERRUN where the written bit is 1 and changes nothing else of STATUS. -/
def Obligations.StatusLayoutAndWriteOneToClear : Prop :=
  ∀ (s : State) (w : Word),
    (s.statusWord.getLsbD 0 = s.engine.isSome ∧ s.statusWord.getLsbD 1 = s.csr.done
      ∧ s.statusWord.getLsbD 2 = s.csr.err ∧ s.statusWord.getLsbD 3 = s.csr.overrun
      ∧ s.statusWord.extractLsb' 4 4
          = (if s.csr.code = .ok then 0 else if s.csr.code = .timeout then 1 else if s.csr.code = .illegal then 2
             else if s.csr.code = .badArg then 3 else 4)
      ∧ s.statusWord.extractLsb' 8 2
          = (if s.csr.phase = .none then 0 else if s.csr.phase = .address then 1 else if s.csr.phase = .op then 2 else 3)
      ∧ s.statusWord.extractLsb' 10 22 = 0)
    ∧ (writeCsr .status w s).statusWord = s.statusWord &&& ~~~(w &&& 0x0000000E)

/-- 10 R43: a narrow or misaligned host access to the window is answered with a slave error and changes no state of the
controller or of a target. The model's choices: alignment is measured from CTRL_BASE (log 10), and the error is recorded in
`host` while the run goes on (log 9). -/
def Obligations.NarrowOrMisalignedHostAccessIsASlaveError : Prop :=
  ∀ (s : State) (addr size : Nat) (w : Word) (rest : List Event),
    s.params.ctrlBase ≤ addr → addr < s.params.ctrlBase + 256 →
    (size ≠ 4 ∨ (addr - s.params.ctrlBase) % 4 ≠ 0) →
    (s.inputs = .hostRead addr size :: rest → step s = .next { s with host := .slaveError, inputs := rest })
    ∧ (s.inputs = .hostWrite addr size w :: rest → step s = .next { s with host := .slaveError, inputs := rest })

/-- 10 R41, 70 R306: no host write to the window, of any CSR and any value, changes what a running command works with:
the engine (snapshot, position, loop state) and the targets stay as they are. -/
def Obligations.HostWriteWhileBusyLeavesTheRunningCommand : Prop :=
  ∀ (s : State) (e : Engine) (addr size : Nat) (w : Word) (rest : List Event), s.engine = some e →
    s.inputs = .hostWrite addr size w :: rest →
    ∃ t, step s = .next t ∧ t.engine = some e ∧ t.env = s.env ∧ t.params = s.params ∧ t.csr.cmd = s.csr.cmd

/-! ## Ticks and the interrupt -/

/-- 10 R47: a tick ends the WaitTick() the engine is in; a tick that comes at any other time has no effect. -/
def Obligations.TickEndsOnlyAWaitTick : Prop :=
  ∀ (s : State) (rest : List Event), s.inputs = .tick :: rest →
    (∀ e x, s.engine = some e → e.pos = .pollTick x →
      step s = .next { s with engine := some { e with pos := .pollRead x }, inputs := rest })
    ∧ ((s.engine = none ∨ ∃ e, s.engine = some e ∧ ∀ x, e.pos ≠ .pollTick x) →
      step s = .next { s with inputs := rest })

/-- 60 R262, 93 I16: with no further event, an engine in WaitTick() of a command that polls stays there for any number
of its own steps, BUSY and unfinished: only a tick lifts the hold (log 1, log 18). -/
def Obligations.EngineHoldsInWaitTickWithoutATick : Prop :=
  ∀ (s : State) (e : Engine) (i : Instr) (x : Site) (k : Nat), s.engine = some e → decode e.snap.cmd = .ok i →
    e.pos = .pollTick x → s.inputs = [] → posFits s.params i e = true →
    Host.Core.run Sys2Proof.core k s = .next s ∧ s.statusWord.getLsbD 0 = true

/-- 10 R23, 60 R250: irq equals STATUS.DONE & IRQ_EN.DONE_IE as the host reads them; it rises only when finish sets DONE
while DONE_IE = 1 or the host sets DONE_IE while DONE = 1; it falls only when the host clears DONE, the next command is
accepted, the host clears DONE_IE, or at reset. -/
def Obligations.IrqRisesAndFallsOnlyAsListed : Prop :=
  (∀ s : State, s.irq = ((readCsr .status s).getLsbD 1 && (readCsr .irqEn s).getLsbD 0)) ∧
  ∀ s t : State, step s = .next t →
    (s.irq = false → t.irq = true →
      (s.busy = true ∧ t.busy = false ∧ t.csr.done = true ∧ s.csr.doneIe = true)
      ∨ (∃ w rest, s.inputs = .hostWrite (s.params.ctrlBase + 0x010) 4 w :: rest ∧ w.getLsbD 0 = true
          ∧ s.csr.done = true))
    ∧ (s.irq = true → t.irq = false →
      (∃ w rest, s.inputs = .hostWrite (s.params.ctrlBase + 0x008) 4 w :: rest ∧ w.getLsbD 1 = true)
      ∨ (∃ w rest, s.inputs = .hostWrite (s.params.ctrlBase + 0x004) 4 w :: rest ∧ s.busy = false)
      ∨ (∃ w rest, s.inputs = .hostWrite (s.params.ctrlBase + 0x010) 4 w :: rest ∧ w.getLsbD 0 = false)
      ∨ (∃ rest, s.inputs = .reset :: rest))

/-! ## Whole-machine rules about the engine -/

/-- 10 R45, R41, 00 R9: IDLE to BUSY happens only by acceptance of a host's CMD write, BUSY to IDLE only by finish (which
sets DONE) or by reset; the snapshot of a command that goes on is the one taken at its acceptance; and the parameters of
the machine never change. -/
def Obligations.BusyAndSnapshotChangeOnlyByAcceptanceFinishOrReset : Prop :=
  ∀ s t : State, step s = .next t →
    (s.busy = false → t.busy = true →
      ∃ w rest, s.inputs = .hostWrite (s.params.ctrlBase + 0x004) 4 w :: rest ∧ t.csr.cmd = w
        ∧ ∃ e, t.engine = some e ∧ e.snap = { cmd := w, setup := s.csr.setup })
    ∧ (s.busy = true → t.busy = false → t.csr.done = true ∨ ∃ rest, s.inputs = .reset :: rest)
    ∧ (∀ e e', s.engine = some e → t.engine = some e' → e'.snap = e.snap)
    ∧ t.params = s.params

/-- 10 R40, R44: no step of a command writes a register the host writes: ARG0-ARG7, TIMEOUT, the address CSRs, the agent
descriptors, CMD, IRQ_EN, OVERRUN; nor the schedule, the host's answer or the parameters. -/
def Obligations.CommandsWriteNoHostRegister : Prop :=
  ∀ (i : Instr) (s t : State), exec i s = .next t →
    t.csr.setup = s.csr.setup ∧ t.csr.cmd = s.csr.cmd ∧ t.csr.doneIe = s.csr.doneIe ∧ t.csr.overrun = s.csr.overrun
    ∧ t.params = s.params ∧ t.host = s.host ∧ t.inputs = s.inputs

/-- 20 R90, R91, 10 R25: a step of the engine performs at most one bus access; the step that ends a command performs
none, so every access of a command comes before its finish. For a command that ends BUS_ERR (60 R243) this rests on log 7:
the access answered with an error is not performed. -/
def Obligations.EachEngineStepPerformsAtMostOneAccess : Prop :=
  ∀ (i : Instr) (s t : State), exec i s = .next t →
    (t.env.history = s.env.history ∨ ∃ x, t.env.history = (.engine, x) :: s.env.history)
    ∧ (t.engine = none →
      t.env.history = s.env.history ∧ t.env.mem = s.env.mem ∧ t.env.regs = s.env.regs ∧ t.csr.done = true)

/-- The frame of every command (20 R78, R88, 42 R170): a step of the engine changes no byte of memory outside the 8
bytes FORMAT stores at its position, at the address its pseudocode computes, and no register outside the one it writes. -/
def Obligations.EveryCommandChangesOnlyTheTargetItWrites : Prop :=
  ∀ (i : Instr) (s t : State) (e : Engine), s.engine = some e → exec i s = .next t →
    (∀ pa : Nat, (∀ b, memWritten s.params i e = some b → ¬(b ≤ pa ∧ pa < b + 8)) →
      Memory.byte t.env.mem pa = Memory.byte s.env.mem pa)
    ∧ (∀ a : Nat, regWritten i e ≠ some a → Registers.word t.env.regs a = Registers.word s.env.regs a)

/-- The frame of the CSRs (10 R30, R33; 60 R244): while a command goes on, no step of it changes RESULT, DONE, ERR, CODE,
PHASE or AGTa_STATE, and POLL_COUNT changes only at a poll read, by one, saturating at 0xFFFFFFFF. -/
def Obligations.RunningCommandChangesOnlyPollCount : Prop :=
  ∀ (i : Instr) (s t : State) (e e' : Engine), s.engine = some e → exec i s = .next t → t.engine = some e' →
    (t.csr = s.csr
      ∨ t.csr = { s.csr with
          pollCount := if s.csr.pollCount = 0xFFFFFFFF then 0xFFFFFFFF else s.csr.pollCount + 1 })
    ∧ (t.csr ≠ s.csr → e.pos = .pollRead .single ∨ e.pos = .pollRead .address ∨ e.pos = .pollRead .op
        ∨ (i = .wait ∧ e.pos = .start))

/-- 41 R154, 10 R39: AGTa_STATE. When a MODE command on slot a ends, OK makes it VALID with MODE the target, any other
code clears VALID and leaves MODE; no other step of any command changes it, nor the other slot's. As the host reads it:
MODE's number in bits 1:0, bits 30:2 zero, VALID in bit 31. -/
def Obligations.OnlyModeWritesAgentState : Prop :=
  (∀ (i : Instr) (s t : State) (a : Slot), exec i s = .next t →
    (∀ m, i = .mode a m → t.engine = none →
      t.csr.agtState a = if t.csr.code = .ok then { mode := m, valid := true }
        else { mode := (s.csr.agtState a).mode, valid := false })
    ∧ (((∀ m, i ≠ .mode a m) ∨ t.engine.isSome) → t.csr.agtState a = s.csr.agtState a))
  ∧ (∀ (s : State) (a : Slot),
    (readCsr (.agtState a) s).getLsbD 31 = (s.csr.agtState a).valid
    ∧ (readCsr (.agtState a) s).extractLsb' 2 29 = 0
    ∧ (readCsr (.agtState a) s).extractLsb' 0 2
        = (if (s.csr.agtState a).mode = .reset then 0 else if (s.csr.agtState a).mode = .disable then 1
           else if (s.csr.agtState a).mode = .config then 2 else 3)
    ∧ csrAt (if a = .zero then 0x058 else 0x078) = .agtState a)

/-- 60 R243, 00 R12: when the bus answers an engine access with an error, the access is not performed and the command
finishes at once with BUS_ERR, PHASE 0, RESULT 0; a step that took no answer made no access. -/
def Obligations.BusErrorEndsTheCommandAtTheAccess : Prop :=
  ∀ (i : Instr) (s t : State), s.busFails = true → exec i s = .next t →
    t.env.history = s.env.history ∧ t.env.mem = s.env.mem ∧ t.env.regs = s.env.regs
    ∧ (t.env.draws ≠ s.env.draws →
      t.engine = none ∧ t.csr.code = .busErr ∧ t.csr.phase = .none ∧ t.csr.result = 0
      ∧ t.csr.done = true ∧ t.csr.err = true ∧ t.csr.pollCount = s.csr.pollCount)
    ∧ (t.env.draws = s.env.draws → t.engine = none ∨ t = s)

/-- 60 R242: which code each cause gives: a command that ends by an engine step ends OK, or TIMEOUT only if it is WAIT,
MODE or MDIO, ILLEGAL only if its word selects no command, BAD_ARG only if it is WAIT or FORMAT, BUS_ERR only if
BUS_MAY_ERROR holds and the command is not NOP. StateInv rules out positions no run reaches. -/
def Obligations.CompletionCodesHaveTheirCauses : Prop :=
  ∀ (s t : State) (e : Engine), StateInv s → s.engine = some e → engineStep s = .next t → t.engine = none →
    (t.csr.code = .timeout → ∃ i, decode e.snap.cmd = .ok i ∧ i ≠ .nop ∧ ∀ c l d, i ≠ .format c l d)
    ∧ (t.csr.code = .illegal ↔ ∃ x, decode e.snap.cmd = .error x)
    ∧ (t.csr.code = .badArg → decode e.snap.cmd = .ok .wait ∨ ∃ c l d, decode e.snap.cmd = .ok (.format c l d))
    ∧ (t.csr.code = .busErr → s.params.busMayError = true ∧ ∃ i, decode e.snap.cmd = .ok i ∧ i ≠ .nop)

/-- 60 R244: finish(code, phase, result) of every command that has other steps before it (NOP's is stated by
NopFinishesOk): RESULT, CODE, PHASE as given, ERR iff the code is not OK, DONE set, BUSY cleared, the snapshot and hidden
state dropped, no access; AGTa_STATE as OnlyModeWritesAgentState says. -/
def Obligations.FinishSetsStatusAndResult : Prop :=
  ∀ (i : Instr) (s : State) (e : Engine), i ≠ .nop → s.engine = some e → e.pos = .finish →
    ∃ h0 h1, exec i s = .next { s with
      engine := none
      csr := { s.csr with
        result := e.out.result, code := e.out.code, phase := e.out.phase, done := true
        err := decide (e.out.code ≠ .ok), state0 := h0, state1 := h1 } }

/-! ## NOP and WAIT -/

/-- 40 R145: NOP finishes OK, with RESULT 0 and no access: its only step, in full; and from IDLE, with nothing but the
host's write and the engine moving (log 1), POLL_COUNT ends 0 and STATUS shows DONE alone, OVERRUN apart. -/
def Obligations.NopFinishesOk : Prop :=
  (∀ (s : State) (e : Engine), s.engine = some e → e.pos = .start →
    exec .nop s = .next { s with
      engine := none
      csr := { s.csr with result := 0, code := .ok, phase := .none, err := false, done := true } })
  ∧ (∀ s : State, s.engine = none →
    ∃ t, Host.Core.run Sys2Proof.core 2
        { s with inputs := [.hostWrite (s.params.ctrlBase + 0x004) 4 0x00000000, .engine] } = .next t
      ∧ t.env = s.env ∧ t.csr.pollCount = 0 ∧ t.csr.result = 0
      ∧ t.statusWord = (if s.csr.overrun then 0x0000000A else 0x00000002)
      ∧ t.irq = s.csr.doneIe)

/-- 40 R130, R131, R140: WAIT's first step. A misaligned ADDR finishes BAD_ARG with no access; T = 0 finishes TIMEOUT,
PHASE 3, RESULT 0, with no read; otherwise the step is the first poll read, with n = 0 before it. -/
def Obligations.WaitStartsWithItsChecks : Prop :=
  ∀ (s : State) (e : Engine), s.engine = some e → e.pos = .start →
    (e.snap.setup.args.arg0 &&& 0x3 ≠ 0 →
      exec .wait s = .next { s with
        engine := none
        csr := { s.csr with result := 0, code := .badArg, phase := .none, err := true, done := true } })
    ∧ (e.snap.setup.args.arg0 &&& 0x3 = 0 → e.snap.setup.timeout = 0 →
      exec .wait s = .next { s with
        engine := none
        csr := { s.csr with result := 0, code := .timeout, phase := .poll, err := true, done := true } })
    ∧ (e.snap.setup.args.arg0 &&& 0x3 = 0 → e.snap.setup.timeout ≠ 0 →
      exec .wait s = exec .wait { s with engine := some { e with pos := .pollRead .single, n := 0, last := 0 } })

/-- 40 R130, R140: one round of WAIT's poll, in full: one read of ADDR, POLL_COUNT and n one higher, and then OK on a
match, a tick wait while n < T, TIMEOUT with PHASE 3 otherwise. -/
def Obligations.WaitPollRoundFollowsThePseudocode : Prop :=
  ∀ (s : State) (e : Engine) (v : Word), s.engine = some e → e.pos = .pollRead .single → s.busFails = false →
    e.snap.setup.args.arg0 &&& 0x3 = 0 → v = s.env.regValue e.snap.setup.args.arg0.toNat →
    exec .wait s = .next { s with
      csr := { s.csr with pollCount := if s.csr.pollCount = 0xFFFFFFFF then 0xFFFFFFFF else s.csr.pollCount + 1 }
      env := s.env.performed .engine (.r32 e.snap.setup.args.arg0.toNat v)
      engine := some (
        if v &&& e.snap.setup.args.arg1 = e.snap.setup.args.arg2 then
          { e with n := e.n + 1, last := v, pos := .finish, out := { code := .ok, phase := .none, result := v } }
        else if e.n + 1 < e.snap.setup.timeout.toNat then
          { e with n := e.n + 1, last := v, pos := .pollTick .single }
        else
          { e with n := e.n + 1, last := v, pos := .finish,
                   out := { code := .timeout, phase := .poll, result := v } }) }

/-- 40 R140, R132: WAIT completes: at a poll read whose value matches, exec answers a next state, and from it exec
answers the state in which the command has finished OK with RESULT that value and POLL_COUNT one higher. -/
def Obligations.WaitCompletesOnAMatchingRead : Prop :=
  ∀ (s : State) (e : Engine) (v : Word), s.engine = some e → e.pos = .pollRead .single → s.busFails = false →
    e.snap.setup.args.arg0 &&& 0x3 = 0 → v = s.env.regValue e.snap.setup.args.arg0.toNat →
    v &&& e.snap.setup.args.arg1 = e.snap.setup.args.arg2 →
    ∃ t, exec .wait s = .next t
      ∧ exec .wait t = .next { s with
          csr := { s.csr with
            pollCount := if s.csr.pollCount = 0xFFFFFFFF then 0xFFFFFFFF else s.csr.pollCount + 1
            result := v, code := .ok, phase := .none, err := false, done := true }
          env := s.env.performed .engine (.r32 e.snap.setup.args.arg0.toNat v)
          engine := none }

/-- 40 R130-R133, R140: a whole WAIT whose reads fail k times and match at the next one, k < T, with a tick after every
failed read: it finishes OK with RESULT the matching value, POLL_COUNT is k + 1, and its accesses are the k + 1 reads of
ADDR, in order. The schedule is the one named: the engine, then a tick, in turn (log 1), the tick in the step after the
failed read (log 8). -/
def Obligations.WaitFinishesAtTheFirstMatch : Prop :=
  ∀ (s : State) (e : Engine) (bad : List Word) (good : Word) (more : List Answer),
    s.engine = some e → e.pos = .start → decode e.snap.cmd = .ok .wait → s.params.busMayError = false →
    s.csr.pollCount = 0 → e.snap.setup.args.arg0 &&& 0x3 = 0 → bad.length < e.snap.setup.timeout.toNat →
    (∀ v ∈ bad, v &&& e.snap.setup.args.arg1 ≠ e.snap.setup.args.arg2) →
    good &&& e.snap.setup.args.arg1 = e.snap.setup.args.arg2 →
    s.env.answers = scripted ((bad ++ [good]).map (BitVec.setWidth 64)) ++ more →
    ∃ t, Host.Core.run Sys2Proof.core (2 * bad.length + 2)
        { s with inputs := fairRounds bad.length ++ engineOnly 2 } = .next t
      ∧ t.engine = none ∧ t.csr.done = true ∧ t.csr.err = false ∧ t.csr.code = .ok ∧ t.csr.phase = .none
      ∧ t.csr.result = good ∧ t.csr.pollCount = BitVec.ofNat 32 (bad.length + 1)
      ∧ t.env.mem = s.env.mem ∧ t.env.regs = s.env.regs
      ∧ t.env.history
          = ((bad ++ [good]).map fun v => (Master.engine, Access.r32 e.snap.setup.args.arg0.toNat v)).reverse
            ++ s.env.history

/-- 40 R130, R131, R140: a whole WAIT whose T reads all fail, T >= 1, with a tick after every failed read but the last:
it finishes TIMEOUT with PHASE 3, RESULT the last value read, POLL_COUNT T. The schedule is the one named: the engine, then
a tick, in turn (log 1), the tick in the step after the failed read (log 8). T = 0 is WaitStartsWithItsChecks. -/
def Obligations.WaitTimesOutAfterTReads : Prop :=
  ∀ (s : State) (e : Engine) (bad : List Word) (lastBad : Word) (more : List Answer),
    s.engine = some e → e.pos = .start → decode e.snap.cmd = .ok .wait → s.params.busMayError = false →
    s.csr.pollCount = 0 → e.snap.setup.args.arg0 &&& 0x3 = 0 → bad.length + 1 = e.snap.setup.timeout.toNat →
    (∀ v ∈ bad ++ [lastBad], v &&& e.snap.setup.args.arg1 ≠ e.snap.setup.args.arg2) →
    s.env.answers = scripted ((bad ++ [lastBad]).map (BitVec.setWidth 64)) ++ more →
    ∃ t, Host.Core.run Sys2Proof.core (2 * bad.length + 2)
        { s with inputs := fairRounds bad.length ++ engineOnly 2 } = .next t
      ∧ t.engine = none ∧ t.csr.done = true ∧ t.csr.err = true ∧ t.csr.code = .timeout ∧ t.csr.phase = .poll
      ∧ t.csr.result = lastBad ∧ t.csr.pollCount = e.snap.setup.timeout
      ∧ t.env.mem = s.env.mem ∧ t.env.regs = s.env.regs

/-! ## MODE -/

/-- 30 R115, 41 R151, R153: the clock-gate mask has the bit CLK_BIT alone; setting the gate sets that bit and turning it
off clears it, and every other bit of the clock-enable register is kept. Slot 0's descriptor is AGT0's and slot 1's is
AGT1's (10 R38). -/
def Obligations.ClockGateWritesTouchOneBit : Prop :=
  (∀ (p : Snapshot) (a : Slot) (c : Word) (j : Nat), j < 32 →
    (p.clkMask a).getLsbD j = decide (j = (p.setup.agt a).clkBit.toNat)
    ∧ (c ||| p.clkMask a).getLsbD j = (decide (j = (p.setup.agt a).clkBit.toNat) || c.getLsbD j)
    ∧ (c &&& ~~~(p.clkMask a)).getLsbD j = (!decide (j = (p.setup.agt a).clkBit.toNat) && c.getLsbD j))
  ∧ (∀ u : Setup, u.agt .zero = u.agt0 ∧ u.agt .one = u.agt1)

/-- 41 R150-R153: MODE's steps before the poll, in full: read the clock-enable register; if bit CLK_BIT is clear, write
it back with the bit set; write the target to the mode-control register; then poll with n = 0, or TIMEOUT when T = 0. -/
def Obligations.ModeEnablesTheClockThenWritesTheMode : Prop :=
  ∀ (s : State) (e : Engine) (a : Slot) (m : AgentMode), s.engine = some e → s.busFails = false →
    (∀ c, e.pos = .start → c = s.env.regValue (4 * e.snap.setup.clkenAddr.toNat) →
      exec (.mode a m) s = .next { s with
        env := s.env.performed .engine (.r32 (4 * e.snap.setup.clkenAddr.toNat) c)
        engine := some { e with
          read := c
          pos := if c &&& (1#32 <<< (e.snap.setup.agt a).clkBit.toNat) = 0 then .gateSet else .modeWrite } })
    ∧ (e.pos = .gateSet →
      exec (.mode a m) s = .next { s with
        env := (s.env.performed .engine (.w32 (4 * e.snap.setup.clkenAddr.toNat)
            (e.read ||| (1#32 <<< (e.snap.setup.agt a).clkBit.toNat)))).putReg (4 * e.snap.setup.clkenAddr.toNat)
            (e.read ||| (1#32 <<< (e.snap.setup.agt a).clkBit.toNat))
        engine := some { e with pos := .modeWrite } })
    ∧ (e.pos = .modeWrite →
      exec (.mode a m) s = .next { s with
        env := (s.env.performed .engine (.w32 (4 * (e.snap.setup.agt a).mcAddr.toNat) m.bits)).putReg
            (4 * (e.snap.setup.agt a).mcAddr.toNat) m.bits
        engine := some (
          if e.snap.setup.timeout = 0 then
            { e with n := 0, last := 0, pos := .finish, out := { code := .timeout, phase := .poll, result := 0 } }
          else { e with n := 0, last := 0, pos := .pollRead .single }) })

/-- 41 R150, R152, R153: MODE's poll round and its steps after a match, in full. A match goes on to the clock-disable
access only for DISABLE: the register at CLKDIS_ADDR if that is not 0, else a re-read and write-back. -/
def Obligations.ModePollsThenDisablesTheClockOnlyForDisable : Prop :=
  ∀ (s : State) (e : Engine) (a : Slot) (m : AgentMode), s.engine = some e → s.busFails = false →
    (∀ v, e.pos = .pollRead .single → v = s.env.regValue (4 * (e.snap.setup.agt a).msAddr.toNat) →
      exec (.mode a m) s = .next { s with
        csr := { s.csr with pollCount := if s.csr.pollCount = 0xFFFFFFFF then 0xFFFFFFFF else s.csr.pollCount + 1 }
        env := s.env.performed .engine (.r32 (4 * (e.snap.setup.agt a).msAddr.toNat) v)
        engine := some (
          if v &&& (e.snap.setup.agt a).msMask = m.bits then
            (if m = .disable then
              (if e.snap.setup.clkdisAddr = 0 then { e with n := e.n + 1, last := v, pos := .gateReread }
               else { e with n := e.n + 1, last := v, pos := .gateDisable })
             else { e with n := e.n + 1, last := v, pos := .finish,
                           out := { code := .ok, phase := .none, result := v } })
          else if e.n + 1 < e.snap.setup.timeout.toNat then
            { e with n := e.n + 1, last := v, pos := .pollTick .single }
          else { e with n := e.n + 1, last := v, pos := .finish,
                        out := { code := .timeout, phase := .poll, result := v } }) })
    ∧ (∀ c, e.pos = .gateReread → c = s.env.regValue (4 * e.snap.setup.clkenAddr.toNat) →
      exec (.mode a m) s = .next { s with
        env := s.env.performed .engine (.r32 (4 * e.snap.setup.clkenAddr.toNat) c)
        engine := some { e with read := c, pos := .gateClear } })
    ∧ (e.pos = .gateClear →
      exec (.mode a m) s = .next { s with
        env := (s.env.performed .engine (.w32 (4 * e.snap.setup.clkenAddr.toNat)
            (e.read &&& ~~~(1#32 <<< (e.snap.setup.agt a).clkBit.toNat)))).putReg (4 * e.snap.setup.clkenAddr.toNat)
            (e.read &&& ~~~(1#32 <<< (e.snap.setup.agt a).clkBit.toNat))
        engine := some { e with pos := .finish, out := { code := .ok, phase := .none, result := e.last } } })
    ∧ (e.pos = .gateDisable →
      exec (.mode a m) s = .next { s with
        env := (s.env.performed .engine (.w32 (4 * e.snap.setup.clkdisAddr.toNat)
            (1#32 <<< (e.snap.setup.agt a).clkBit.toNat))).putReg (4 * e.snap.setup.clkdisAddr.toNat)
            (1#32 <<< (e.snap.setup.agt a).clkBit.toNat)
        engine := some { e with pos := .finish, out := { code := .ok, phase := .none, result := e.last } } })

/-- 41 R150, R154: MODE completes: to a target other than DISABLE, at a poll read whose value matches, exec answers a next
state and from it exec answers the state in which the command has finished OK, RESULT the status value and AGTa_STATE
VALID with the target; to DISABLE, the same from its last write, with RESULT the last value polled. -/
def Obligations.ModeCompletesOnAMatchingStatus : Prop :=
  ∀ (s : State) (e : Engine) (a : Slot) (m : AgentMode), s.engine = some e → s.busFails = false →
    (∀ v, m ≠ .disable → e.pos = .pollRead .single → v = s.env.regValue (4 * (e.snap.setup.agt a).msAddr.toNat) →
      v &&& (e.snap.setup.agt a).msMask = m.bits →
      ∃ t u, exec (.mode a m) s = .next t ∧ exec (.mode a m) t = .next u ∧ u.engine = none
        ∧ u.csr.done = true ∧ u.csr.err = false ∧ u.csr.code = .ok ∧ u.csr.phase = .none ∧ u.csr.result = v
        ∧ u.csr.agtState a = { mode := m, valid := true }
        ∧ u.env = s.env.performed .engine (.r32 (4 * (e.snap.setup.agt a).msAddr.toNat) v))
    ∧ (m = .disable → e.pos = .gateClear ∨ e.pos = .gateDisable →
      ∃ t u, exec (.mode a m) s = .next t ∧ exec (.mode a m) t = .next u ∧ u.engine = none
        ∧ u.csr.done = true ∧ u.csr.err = false ∧ u.csr.code = .ok ∧ u.csr.phase = .none ∧ u.csr.result = e.last
        ∧ u.csr.agtState a = { mode := .disable, valid := true } ∧ u.env.mem = s.env.mem)

/-- 40 R132, 41 R155 (the source's "A mode transition never reports success unless the status register was observed
equal to the requested target"): from any state that meets the invariant, an engine step that ends a MODE command OK
leaves in RESULT a value that, masked to the mode bits, is the target. -/
def Obligations.ModeNeverSucceedsWithoutAMatch : Prop :=
  ∀ (s t : State) (e : Engine) (a : Slot) (m : AgentMode), StateInv s → s.engine = some e →
    decode e.snap.cmd = .ok (.mode a m) → engineStep s = .next t → t.engine = none → t.csr.code = .ok →
    t.csr.result &&& (e.snap.setup.agt a).msMask = m.bits

/-- 41 R150-R152, R155, 20 R90, 95 M1, M2, M7: a whole MODE to a target other than DISABLE whose first status read
matches, T >= 1: its accesses, in order, are the clock-enable read, the clock-enable write (only if the bit was clear),
the mode-control write, the status read, whatever AGTa_STATE held before; it finishes OK. The engine alone moves (log 1). -/
def Obligations.ModeWritesTheClockBeforeTheMode : Prop :=
  ∀ (s : State) (e : Engine) (a : Slot) (m : AgentMode) (c v : Word) (x : Dword) (more : List Answer),
    s.engine = some e → e.pos = .start → decode e.snap.cmd = .ok (.mode a m) → m ≠ .disable →
    s.params.busMayError = false → e.snap.setup.timeout ≠ 0 →
    v &&& (e.snap.setup.agt a).msMask = m.bits →
    (c.getLsbD (e.snap.setup.agt a).clkBit.toNat = false →
      s.env.answers = scripted [c.setWidth 64, x, x, v.setWidth 64] ++ more →
      ∃ t, Host.Core.run Sys2Proof.core 5 { s with inputs := engineOnly 5 } = .next t
        ∧ t.engine = none ∧ t.csr.code = .ok ∧ t.csr.done = true ∧ t.csr.result = v
        ∧ t.csr.agtState a = { mode := m, valid := true }
        ∧ t.env.history
            = [(.engine, .r32 (regAddr (e.snap.setup.agt a).msAddr) v),
               (.engine, .w32 (regAddr (e.snap.setup.agt a).mcAddr) m.bits),
               (.engine, .w32 (regAddr e.snap.setup.clkenAddr) (c ||| e.snap.clkMask a)),
               (.engine, .r32 (regAddr e.snap.setup.clkenAddr) c)] ++ s.env.history)
    ∧ (c.getLsbD (e.snap.setup.agt a).clkBit.toNat = true →
      s.env.answers = scripted [c.setWidth 64, x, v.setWidth 64] ++ more →
      ∃ t, Host.Core.run Sys2Proof.core 4 { s with inputs := engineOnly 4 } = .next t
        ∧ t.engine = none ∧ t.csr.code = .ok ∧ t.csr.done = true ∧ t.csr.result = v
        ∧ t.csr.agtState a = { mode := m, valid := true }
        ∧ t.env.history
            = [(.engine, .r32 (regAddr (e.snap.setup.agt a).msAddr) v),
               (.engine, .w32 (regAddr (e.snap.setup.agt a).mcAddr) m.bits),
               (.engine, .r32 (regAddr e.snap.setup.clkenAddr) c)] ++ s.env.history)

/-! ## FORMAT -/

/-- 20 R80-R82: the descriptor header as one little-endian word, field by field, and the pointer {dptrh, dptrl}. -/
def Obligations.HeaderFieldsStandInTheirPlaces : Prop :=
  ∀ (info : BitVec 16) (dt : Byte) (ptr : PAddr),
    (header info dt ptr).extractLsb' 0 16 = info
    ∧ (header info dt ptr).extractLsb' 16 8 = dt
    ∧ (header info dt ptr).extractLsb' 24 8 = ptr.extractLsb' 32 8
    ∧ (header info dt ptr).extractLsb' 32 32 = ptr.extractLsb' 0 32
    ∧ (header info dt ptr).extractLsb' 24 8 ++ (header info dt ptr).extractLsb' 32 32 = ptr

/-- 20 R81, R84, 42 R174-R176, R179: the headers FORMAT writes: receive slots BUFSZ, 0x41, the entry's address; transmit
slots 0, 0xD1, 0; the link slot 0x00 and RB with the data slots' info_ds; the table entry 0, 0x00, RB; and the chain
control word (30 R114); its type codes and control bits are the numbers of log 19. With them the operands they and the
addresses are made of: RB, BT and NUM_RING (30 R105), BDT_BASE (10 R36), and the byte offsets of a slot's words (20 R83). -/
def Obligations.FormatHeadersCarryTheirTypeAndPointer : Prop :=
  ∀ (p : Snapshot) (e : Dword),
    ((dataHeader p .receive e).extractLsb' 0 16 = p.setup.args.arg5.extractLsb' 0 16
      ∧ (dataHeader p .receive e).extractLsb' 16 8 = 0x41
      ∧ (dataHeader p .receive e).extractLsb' 24 8 ++ (dataHeader p .receive e).extractLsb' 32 32 = e.extractLsb' 0 40)
    ∧ dataHeader p .transmit e = 0x0000000000D10000
    ∧ ((linkHeader p .receive).extractLsb' 0 16 = p.setup.args.arg5.extractLsb' 0 16
      ∧ (linkHeader p .transmit).extractLsb' 0 16 = 0)
    ∧ (∀ d, (linkHeader p d).extractLsb' 16 8 = 0x00
      ∧ (linkHeader p d).extractLsb' 24 8 ++ (linkHeader p d).extractLsb' 32 32 = p.ringBase)
    ∧ tableHeader p = linkHeader p .transmit
    ∧ p.ringBase = p.setup.args.arg1.extractLsb' 0 8 ++ p.setup.args.arg0
    ∧ p.bufTable = p.setup.args.arg3.extractLsb' 0 8 ++ p.setup.args.arg2
    ∧ p.numRing = (p.setup.args.arg4.extractLsb' 0 16).toNat
    ∧ p.setup.bdtBase = p.setup.bdtBaseHi ++ p.setup.bdtBaseLo ++ 0#3
    ∧ (SlotWord.offset .header = 0 ∧ SlotWord.offset .extension = 8 ∧ SlotWord.offset .timestamp = 16)
    ∧ (∀ d l, controlWord d l
        = 0x01000100 ||| (if d = .transmit then 0x00000800 else 0) ||| (if l = .timestamped then 0x00000200 else 0))

/-- 20 R74: MemWrite puts bits 8k+7:8k at byte pa+k and touches no other byte; MemRead of those bytes gives the value
back, and of listed bytes the value whose bits 8k+7:8k are byte pa+k. -/
def Obligations.MemoryIsLittleEndian : Prop :=
  ∀ (m : List Host.Cell) (pa : Nat) (v free : Dword),
    (∀ k, k < 8 → Memory.byte (Memory.store8 m pa v) (pa + k) = some (v.extractLsb' (8 * k) 8))
    ∧ (∀ a, ¬(pa ≤ a ∧ a < pa + 8) → Memory.byte (Memory.store8 m pa v) a = Memory.byte m a)
    ∧ Memory.load8 (Memory.store8 m pa v) pa free = v
    ∧ (∀ k b, k < 8 → Memory.byte m (pa + k) = some b → (Memory.load8 m pa free).extractLsb' (8 * k) 8 = b)

/-- 42 R173: FORMAT's first step with operands that fail a check of the table finishes BAD_ARG, PHASE 0, RESULT 0, with
no access; with operands that pass every check it is the step from the first access of data slot 0. -/
def Obligations.FormatChecksEveryOperandFirst : Prop :=
  ∀ (s : State) (e : Engine) (c : Nat) (l : Layout) (d : Dir) (n rb bt bdt cca : Nat), s.engine = some e →
    e.pos = .start →
    n = (e.snap.setup.args.arg4 &&& 0xFFFF).toNat → rb = e.snap.ringBase.toNat → bt = e.snap.bufTable.toNat →
    bdt = e.snap.setup.bdtBase.toNat → cca = 4 * e.snap.setup.chainCtrlBase.toNat + 4 * c →
    ((n < 2 ∨ s.params.numChains ≤ c ∨ rb % 8 ≠ 0
        ∨ 2 ^ 40 < rb + n * (if l = .timestamped then 24 else 16)
        ∨ 2 ^ 40 < bdt + 8 * c + 8 ∨ 0xFFFFFFFC < cca
        ∨ (d = .receive ∧ (bt % 8 ≠ 0 ∨ 2 ^ 40 < bt + 8 * (n - 1)))) →
      exec (.format c l d) s = .next { s with
        engine := none
        csr := { s.csr with result := 0, code := .badArg, phase := .none, err := true, done := true } })
    ∧ (¬(n < 2 ∨ s.params.numChains ≤ c ∨ rb % 8 ≠ 0
        ∨ 2 ^ 40 < rb + n * (if l = .timestamped then 24 else 16)
        ∨ 2 ^ 40 < bdt + 8 * c + 8 ∨ 0xFFFFFFFC < cca
        ∨ (d = .receive ∧ (bt % 8 ≠ 0 ∨ 2 ^ 40 < bt + 8 * (n - 1)))) →
      exec (.format c l d) s = exec (.format c l d) { s with engine := some { e with
        pos := if d = .receive then .entryRead else .slot .header, idx := 0 } })

/-- 42 R180, R181: a receive data slot first reads its buffer-table entry at BT + 8·i, once; an entry whose bits 63:40
are not all 0 ends FORMAT with BAD_ARG there, with no slot word, link, table entry or control word written after it. -/
def Obligations.FormatStopsAtABadBufferEntry : Prop :=
  ∀ (s : State) (e : Engine) (c : Nat) (l : Layout) (d : Dir) (v : Dword), s.engine = some e → e.pos = .entryRead →
    s.busFails = false → (entryAddr e.snap e.idx) % 8 = 0 → entryAddr e.snap e.idx + 8 ≤ 2 ^ 40 →
    v = s.env.memValue (e.snap.bufTable.toNat + 8 * e.idx) →
    ∃ t, exec (.format c l d) s = .next t
      ∧ t.env = s.env.performed .engine (.memRead (e.snap.bufTable.toNat + 8 * e.idx) v) ∧ t.csr = s.csr
      ∧ (v >>> 40 = 0 → t.engine = some { e with entry := v, pos := .slot .header })
      ∧ (v >>> 40 ≠ 0 → ∃ u, exec (.format c l d) t = .next u ∧ u.env = t.env ∧ u.engine = none
          ∧ u.csr.done = true ∧ u.csr.err = true ∧ u.csr.code = .badArg ∧ u.csr.phase = .none ∧ u.csr.result = 0)

/-- 42 R174-R178: the words of data slot i and of the link slot, in full: the header, then the extension word 0, then in
the timestamped layout the timestamp word 0, each at the slot's address; then the next slot, the link slot after slot
N-2, the table entry after the link. -/
def Obligations.FormatWritesSlotWordsInOrder : Prop :=
  ∀ (s : State) (e : Engine) (c : Nat) (l : Layout) (d : Dir) (w : SlotWord) (n pa : Nat) (v : Dword) (p : Pos)
    (j : Nat), s.engine = some e → s.busFails = false → pa % 8 = 0 → pa + 8 ≤ 2 ^ 40 →
    n = e.snap.numRing →
    (e.pos = .slot w → pa = e.snap.ringBase.toNat + e.idx * (if l = .timestamped then 24 else 16) + w.offset →
      v = (if w = .header then dataHeader e.snap d e.entry else 0) →
      (p, j) = (if w = .header then (.slot .extension, e.idx)
                else if w = .extension ∧ l = .timestamped then (.slot .timestamp, e.idx)
                else if e.idx + 2 < n then
                  (if d = .receive then (.entryRead, e.idx + 1) else (.slot .header, e.idx + 1))
                else (.link .header, e.idx + 1)) →
      exec (.format c l d) s = .next { s with
        env := (s.env.performed .engine (.memWrite pa v)).putMem pa v
        engine := some { e with pos := p, idx := j } })
    ∧ (e.pos = .link w → pa = e.snap.ringBase.toNat + (n - 1) * (if l = .timestamped then 24 else 16) + w.offset →
      v = (if w = .header then linkHeader e.snap d else 0) →
      p = (if w = .header then .link .extension
           else if w = .extension ∧ l = .timestamped then .link .timestamp else .table) →
      exec (.format c l d) s = .next { s with
        env := (s.env.performed .engine (.memWrite pa v)).putMem pa v
        engine := some { e with pos := p } })

/-- 42 R179, R184, R170: FORMAT completes: from the write of the base-descriptor table entry at BDT + 8·c, exec answers
the write of that entry, then one write of CC(dir, lay) at CHAIN_CTRL_BASE + 4·c, then finish OK with RESULT 0. -/
def Obligations.FormatCompletesWithTableAndControl : Prop :=
  ∀ (s : State) (e : Engine) (c : Nat) (l : Layout) (d : Dir) (pa a : Nat), s.engine = some e → e.pos = .table →
    s.params.busMayError = false → pa = e.snap.setup.bdtBase.toNat + 8 * c → pa + 8 ≤ 2 ^ 40 →
    a = 4 * e.snap.setup.chainCtrlBase.toNat + 4 * c → a ≤ 0xFFFFFFFC →
    ∃ t u v, exec (.format c l d) s = .next t ∧ exec (.format c l d) t = .next u ∧ exec (.format c l d) u = .next v
      ∧ t.env.history = (.engine, .memWrite pa (header 0 0x00 e.snap.ringBase)) :: s.env.history
      ∧ t.env.mem = Memory.store8 s.env.mem pa (header 0 0x00 e.snap.ringBase)
      ∧ u.env.history = (.engine, .w32 a (controlWord d l)) :: t.env.history
      ∧ v.env = u.env ∧ v.env.mem = t.env.mem ∧ Registers.word v.env.regs a = some (controlWord d l)
      ∧ v.csr = { s.csr with result := 0, code := .ok, phase := .none, err := false, done := true }
      ∧ v.engine = none

/-- 42 R183, R170, R174-R179, R184: a whole FORMAT that passes VALIDATE, with no bus error, in the deterministic
environment of 95 (memory reads give the bytes last written), with the buffer table and the table entry apart from the
ring (70 R302): it finishes OK; every word of every slot is as R174-R177 say, slot N-1 a link to RB; the table entry is
a link to RB; the chain control register holds CC; every other byte and every other register is unchanged. The engine alone
moves (log 1). -/
def Obligations.FormatLaysOutTheClosedRing : Prop :=
  ∀ (s : State) (e : Engine) (c : Nat) (l : Layout) (d : Dir) (buf : Nat → Dword),
    s.engine = some e → e.pos = .start → decode e.snap.cmd = .ok (.format c l d) →
    validate s.params e.snap c l d = true → s.params.busMayError = false →
    (∀ a ∈ s.env.answers, a.data = none) → 4 * e.snap.numRing + 4 ≤ s.env.answers.length →
    (d = .receive → ∀ i, i + 1 < e.snap.numRing → (buf i) >>> 40 = 0
      ∧ (∀ k, k < 8 → Memory.byte s.env.mem (entryAddr e.snap i + k) = some (byteOf (buf i) k))
      ∧ (entryAddr e.snap i + 8 ≤ e.snap.ringBase.toNat
          ∨ e.snap.ringBase.toNat + e.snap.numRing * slotSize l ≤ entryAddr e.snap i)) →
    (tableAddr e.snap c + 8 ≤ e.snap.ringBase.toNat
      ∨ e.snap.ringBase.toNat + e.snap.numRing * slotSize l ≤ tableAddr e.snap c) →
    ∃ k t, Host.Core.run Sys2Proof.core k { s with inputs := engineOnly k } = .next t
      ∧ t.engine = none ∧ t.csr = { s.csr with result := 0, code := .ok, phase := .none, err := false, done := true }
      ∧ (∀ (i : Nat) (w : SlotWord) (j : Nat), i < e.snap.numRing → w.inLayout l = true → j < 8 →
          Memory.byte t.env.mem (slotAddr e.snap l i + w.offset + j)
            = some (byteOf (w.value (if i + 1 < e.snap.numRing then dataHeader e.snap d (buf i)
                else linkHeader e.snap d)) j))
      ∧ (∀ j, j < 8 → Memory.byte t.env.mem (tableAddr e.snap c + j) = some (byteOf (tableHeader e.snap) j))
      ∧ Registers.word t.env.regs (controlAddr e.snap c) = some (controlWord d l)
      ∧ (∀ a, ¬(e.snap.ringBase.toNat ≤ a ∧ a < e.snap.ringBase.toNat + e.snap.numRing * slotSize l) →
          ¬(tableAddr e.snap c ≤ a ∧ a < tableAddr e.snap c + 8) →
          Memory.byte t.env.mem a = Memory.byte s.env.mem a)
      ∧ (∀ a, a ≠ controlAddr e.snap c → Registers.word t.env.regs a = Registers.word s.env.regs a)

/-! ## MDIO -/

/-- 30 R110, R112: the three phase words, field by field: START and C45 set, PHY bits 7:3, DEV bits 12:8, opcode bits
14:13 (0 address, 3 read, 1 write), bit 15 and bit 1 clear, bits 31:16 the register address, 0, or the data (the positions are
the numbers of log 19). -/
def Obligations.MdioPhaseWordsFollowTheLayout : Prop :=
  ∀ (phy dev : Nat) (reg data : BitVec 16), phy < 32 → dev < 32 →
    addrWord phy dev reg = reg ++ 0#1 ++ 0#2 ++ BitVec.ofNat 5 dev ++ BitVec.ofNat 5 phy ++ 1#1 ++ 0#1 ++ 1#1
    ∧ readWord phy dev = 0#16 ++ 0#1 ++ 3#2 ++ BitVec.ofNat 5 dev ++ BitVec.ofNat 5 phy ++ 1#1 ++ 0#1 ++ 1#1
    ∧ writeWord phy dev data = data ++ 0#1 ++ 1#2 ++ BitVec.ofNat 5 dev ++ BitVec.ofNat 5 phy ++ 1#1 ++ 0#1 ++ 1#1

/-- 43 R211, R212, R214, R210, R220: the writes of both MDIO commands, in full: step 1 clears every flag, step 2 writes
ADDR_WORD, step 3 clears address-complete alone, step 4 writes the op-phase word; each poll starts with n = 0, or is a
TIMEOUT of its phase when T = 0. -/
def Obligations.MdioWritesFollowThePseudocode : Prop :=
  ∀ (s : State) (e : Engine) (a : Slot) (phy dev acc sts : Nat), s.engine = some e → s.busFails = false →
    acc = 4 * (e.snap.setup.agt a).mdioAccAddr.toNat → sts = 4 * (e.snap.setup.agt a).mdioStsAddr.toNat →
    ∀ i, (i = .mdioRd a phy dev ∨ i = .mdioWr a phy dev) →
    (e.pos = .start →
      exec i s = .next { s with
        env := (s.env.performed .engine (.w32 sts 0xFFFFFFFF)).putReg sts 0xFFFFFFFF
        engine := some { e with pos := .mdioAddress } })
    ∧ (∀ w, e.pos = .mdioAddress → w = addrWord phy dev (e.snap.setup.args.arg0.extractLsb' 0 16) →
      exec i s = .next { s with
        env := (s.env.performed .engine (.w32 acc w)).putReg acc w
        engine := some (
          if e.snap.setup.timeout = 0 then
            { e with n := 0, last := 0, pos := .finish, out := { code := .timeout, phase := .address, result := 0 } }
          else { e with n := 0, last := 0, pos := .pollRead .address }) })
    ∧ (e.pos = .mdioAck →
      exec i s = .next { s with
        env := (s.env.performed .engine (.w32 sts 0x4)).putReg sts 0x4
        engine := some { e with pos := .mdioOp } })
    ∧ (∀ w, e.pos = .mdioOp →
      w = (if i = .mdioRd a phy dev then readWord phy dev
           else writeWord phy dev (e.snap.setup.args.arg1.extractLsb' 0 16)) →
      exec i s = .next { s with
        env := (s.env.performed .engine (.w32 acc w)).putReg acc w
        engine := some (
          if e.snap.setup.timeout = 0 then
            { e with n := 0, last := 0, pos := .finish, out := { code := .timeout, phase := .op, result := 0 } }
          else { e with n := 0, last := 0, pos := .pollRead .op }) })

/-- 43 R210, R215, R217, R220: the poll rounds of both MDIO commands, in full: each phase tests its own flag of the status
register (address-complete bit 2; read-complete bit 0; write-complete bit 1) with its own n, bounded by T; an
address-phase timeout is PHASE 1, an op-phase timeout PHASE 2, RESULT 0. The flags' positions are the numbers of log 19. -/
def Obligations.MdioPollsItsOwnFlagInEachPhase : Prop :=
  ∀ (s : State) (e : Engine) (a : Slot) (phy dev sts : Nat) (v : Word), s.engine = some e → s.busFails = false →
    sts = 4 * (e.snap.setup.agt a).mdioStsAddr.toNat → v = s.env.regValue sts →
    ∀ i, (i = .mdioRd a phy dev ∨ i = .mdioWr a phy dev) →
    (e.pos = .pollRead .address →
      exec i s = .next { s with
        csr := { s.csr with pollCount := if s.csr.pollCount = 0xFFFFFFFF then 0xFFFFFFFF else s.csr.pollCount + 1 }
        env := s.env.performed .engine (.r32 sts v)
        engine := some (
          if v.getLsbD 2 then { e with n := e.n + 1, last := v, pos := .mdioAck }
          else if e.n + 1 < e.snap.setup.timeout.toNat then { e with n := e.n + 1, last := v, pos := .pollTick .address }
          else { e with n := e.n + 1, last := v, pos := .finish,
                        out := { code := .timeout, phase := .address, result := 0 } }) })
    ∧ (e.pos = .pollRead .op →
      exec i s = .next { s with
        csr := { s.csr with pollCount := if s.csr.pollCount = 0xFFFFFFFF then 0xFFFFFFFF else s.csr.pollCount + 1 }
        env := s.env.performed .engine (.r32 sts v)
        engine := some (
          if v.getLsbD (if i = .mdioRd a phy dev then 0 else 1) then
            (if i = .mdioRd a phy dev then { e with n := e.n + 1, last := v, pos := .mdioData }
             else { e with n := e.n + 1, last := v, pos := .finish,
                           out := { code := .ok, phase := .none, result := 0 } })
          else if e.n + 1 < e.snap.setup.timeout.toNat then { e with n := e.n + 1, last := v, pos := .pollTick .op }
          else { e with n := e.n + 1, last := v, pos := .finish,
                        out := { code := .timeout, phase := .op, result := 0 } }) })

/-- 43 R216, R210: MDIO_RD completes: from its data read, exec answers one read of the access register, then the clear of
read-complete alone, then finish OK with RESULT bits 31:16 of the value read, zero-extended. -/
def Obligations.MdioRdCompletesWithTheUpperHalf : Prop :=
  ∀ (s : State) (e : Engine) (a : Slot) (phy dev acc sts : Nat) (v : Word), s.engine = some e → e.pos = .mdioData →
    s.params.busMayError = false → acc = 4 * (e.snap.setup.agt a).mdioAccAddr.toNat →
    sts = 4 * (e.snap.setup.agt a).mdioStsAddr.toNat → v = s.env.regValue acc →
    ∃ t u w, exec (.mdioRd a phy dev) s = .next t ∧ exec (.mdioRd a phy dev) t = .next u
      ∧ exec (.mdioRd a phy dev) u = .next w
      ∧ t.env.history = (.engine, .r32 acc v) :: s.env.history
      ∧ u.env.history = (.engine, .w32 sts 0x00000001) :: t.env.history
      ∧ w.env = u.env ∧ w.env.mem = s.env.mem ∧ w.engine = none
      ∧ w.csr = { s.csr with result := v >>> 16, code := .ok, phase := .none, err := false, done := true }

/-- 43 R218, R220: MDIO_WR completes: at an op-phase poll read that shows write-complete, exec answers a next state and
from it exec answers finish OK with RESULT 0; no access follows the read, so write-complete is left set. -/
def Obligations.MdioWrCompletesOnWriteComplete : Prop :=
  ∀ (s : State) (e : Engine) (a : Slot) (phy dev sts : Nat) (v : Word), s.engine = some e →
    e.pos = .pollRead .op → s.busFails = false → sts = 4 * (e.snap.setup.agt a).mdioStsAddr.toNat →
    v = s.env.regValue sts → v.getLsbD 1 = true →
    ∃ t u, exec (.mdioWr a phy dev) s = .next t ∧ exec (.mdioWr a phy dev) t = .next u ∧ u.engine = none
      ∧ u.env = s.env.performed .engine (.r32 sts v)
      ∧ u.csr = { s.csr with
          pollCount := if s.csr.pollCount = 0xFFFFFFFF then 0xFFFFFFFF else s.csr.pollCount + 1
          result := 0, code := .ok, phase := .none, err := false, done := true }

/-- 43 R210, R221, 95 MD1: a whole MDIO_RD whose two polls match at their first read, T >= 1, with no bus error: its
eight accesses in order, address phase before op phase, and its result. The engine alone moves (log 1). -/
def Obligations.MdioRdTransactionRunsBothPhasesInOrder : Prop :=
  ∀ (s : State) (e : Engine) (a : Slot) (phy dev : Nat) (f1 f2 v : Word) (x : Dword) (more : List Answer),
    s.engine = some e → e.pos = .start → decode e.snap.cmd = .ok (.mdioRd a phy dev) →
    s.params.busMayError = false → e.snap.setup.timeout ≠ 0 → f1.getLsbD 2 = true → f2.getLsbD 0 = true →
    s.env.answers
      = scripted [x, x, f1.setWidth 64, x, x, f2.setWidth 64, v.setWidth 64, x] ++ more →
    ∃ t, Host.Core.run Sys2Proof.core 9 { s with inputs := engineOnly 9 } = .next t
      ∧ t.engine = none ∧ t.csr.done = true ∧ t.csr.err = false ∧ t.csr.code = .ok ∧ t.csr.phase = .none
      ∧ t.csr.result = v >>> 16
      ∧ t.env.history
          = [(.engine, .w32 (mdioSts e a) 0x00000001),
             (.engine, .r32 (mdioAcc e a) v),
             (.engine, .r32 (mdioSts e a) f2),
             (.engine, .w32 (mdioAcc e a) (readWord phy dev)),
             (.engine, .w32 (mdioSts e a) 0x00000004),
             (.engine, .r32 (mdioSts e a) f1),
             (.engine, .w32 (mdioAcc e a) (addrWord phy dev e.snap.mdioReg)),
             (.engine, .w32 (mdioSts e a) 0xFFFFFFFF)] ++ s.env.history

/-- 43 R213, R221 (the source's "a failed address phase never issues the op-phase write"): a whole MDIO_RD or MDIO_WR
whose T address-phase reads all lack address-complete, T >= 1: it finishes TIMEOUT, PHASE 1, RESULT 0, POLL_COUNT T, and
its only writes are the clear of the flags and ADDR_WORD. The schedule is the one named: the engine, then a tick, in turn
(log 1), the tick in the step after the failed read (log 8). T = 0 is MdioWritesFollowThePseudocode. -/
def Obligations.MdioFailedAddressPhaseNeverWritesTheOpPhase : Prop :=
  ∀ (s : State) (e : Engine) (a : Slot) (phy dev : Nat) (i : Instr) (bad : List Word) (lastBad : Word) (x : Dword)
    (more : List Answer),
    s.engine = some e → e.pos = .start → (i = .mdioRd a phy dev ∨ i = .mdioWr a phy dev) →
    decode e.snap.cmd = .ok i → s.params.busMayError = false → s.csr.pollCount = 0 →
    bad.length + 1 = e.snap.setup.timeout.toNat → (∀ v ∈ bad ++ [lastBad], v.getLsbD 2 = false) →
    s.env.answers = scripted ([x, x] ++ (bad ++ [lastBad]).map (BitVec.setWidth 64)) ++ more →
    ∃ t, Host.Core.run Sys2Proof.core (2 * bad.length + 4)
        { s with inputs := engineOnly 2 ++ fairRounds bad.length ++ engineOnly 2 } = .next t
      ∧ t.engine = none ∧ t.csr.done = true ∧ t.csr.err = true ∧ t.csr.code = .timeout ∧ t.csr.phase = .address
      ∧ t.csr.result = 0 ∧ t.csr.pollCount = e.snap.setup.timeout
      ∧ t.env.history
          = ((bad ++ [lastBad]).map fun v => (Master.engine, Access.r32 (mdioSts e a) v)).reverse
            ++ [(.engine, .w32 (mdioAcc e a) (addrWord phy dev e.snap.mdioReg)),
                (.engine, .w32 (mdioSts e a) 0xFFFFFFFF)] ++ s.env.history

/-! ## The invariant and the runs -/

/-- State.reset meets the invariant; the OPEN parameters may have any value R9 allows (log 4), and the address spaces are in
canonical form because the model's State.reset lists nothing in them (log 21). -/
def Obligations.ResetStateMeetsTheInvariant : Prop := StateInv State.reset

/-- Every step of every agent keeps the invariant: the address spaces stay in canonical form, STATUS stays as 10 R29 and
60 R244 say, the engine's position stays one of the accepted command, past its checks and below its poll bound. -/
def Obligations.EveryStepKeepsTheInvariant : Prop :=
  ∀ s t : State, StateInv s → step s = .next t → StateInv t

/-- 20 R71, R76, 30 R104: from a state that meets the invariant no step of the engine faults or is refused: it never
issues a misaligned access or one outside its address space, and every command word has a meaning. -/
def Obligations.EngineNeverFaults : Prop :=
  ∀ s : State, StateInv s → ∃ t, engineStep s = .next t

/-- 60 R262, 00 R16: under fair ticks every accepted command finishes: from any BUSY state that meets the invariant,
whatever the environment answers, some number of rounds in which the engine moves and a tick comes (log 1, log 18) ends
with the engine IDLE and DONE set. -/
def Obligations.EveryCommandFinishesUnderFairTicks : Prop :=
  ∀ (s : State) (e : Engine), StateInv s → s.engine = some e →
    ∃ k t, Host.Core.run Sys2Proof.core (2 * k) { s with inputs := fairRounds k } = .next t
      ∧ t.engine = none ∧ t.csr.done = true
end

