-- ==== Sys2Proof/Laws/State.lean ====
section
/-! SUPPORT. One lemma per field per update: no later proof unfolds a record update. -/

namespace Sys2Proof.Machine

/-! ## CSR updates (Flags.lean) -/

@[simp] theorem Csrs.writeStatus_cmd (c : Csrs) (w : Word) : (c.writeStatus w).cmd = c.cmd := rfl
@[simp] theorem Csrs.writeStatus_done (c : Csrs) (w : Word) : (c.writeStatus w).done = (c.done && !w.getLsbD 1) := rfl
@[simp] theorem Csrs.writeStatus_err (c : Csrs) (w : Word) : (c.writeStatus w).err = (c.err && !w.getLsbD 2) := rfl
@[simp] theorem Csrs.writeStatus_overrun (c : Csrs) (w : Word) : (c.writeStatus w).overrun = (c.overrun && !w.getLsbD 3) := rfl
@[simp] theorem Csrs.writeStatus_code (c : Csrs) (w : Word) : (c.writeStatus w).code = c.code := rfl
@[simp] theorem Csrs.writeStatus_phase (c : Csrs) (w : Word) : (c.writeStatus w).phase = c.phase := rfl
@[simp] theorem Csrs.writeStatus_result (c : Csrs) (w : Word) : (c.writeStatus w).result = c.result := rfl
@[simp] theorem Csrs.writeStatus_doneIe (c : Csrs) (w : Word) : (c.writeStatus w).doneIe = c.doneIe := rfl
@[simp] theorem Csrs.writeStatus_pollCount (c : Csrs) (w : Word) : (c.writeStatus w).pollCount = c.pollCount := rfl
@[simp] theorem Csrs.writeStatus_setup (c : Csrs) (w : Word) : (c.writeStatus w).setup = c.setup := rfl
@[simp] theorem Csrs.writeStatus_state0 (c : Csrs) (w : Word) : (c.writeStatus w).state0 = c.state0 := rfl
@[simp] theorem Csrs.writeStatus_state1 (c : Csrs) (w : Word) : (c.writeStatus w).state1 = c.state1 := rfl
@[simp] theorem Csrs.accept_cmd (c : Csrs) (w : Word) : (c.accept w).cmd = w := rfl
@[simp] theorem Csrs.accept_done (c : Csrs) (w : Word) : (c.accept w).done = false := rfl
@[simp] theorem Csrs.accept_err (c : Csrs) (w : Word) : (c.accept w).err = false := rfl
@[simp] theorem Csrs.accept_overrun (c : Csrs) (w : Word) : (c.accept w).overrun = c.overrun := rfl
@[simp] theorem Csrs.accept_code (c : Csrs) (w : Word) : (c.accept w).code = .ok := rfl
@[simp] theorem Csrs.accept_phase (c : Csrs) (w : Word) : (c.accept w).phase = .none := rfl
@[simp] theorem Csrs.accept_result (c : Csrs) (w : Word) : (c.accept w).result = c.result := rfl
@[simp] theorem Csrs.accept_doneIe (c : Csrs) (w : Word) : (c.accept w).doneIe = c.doneIe := rfl
@[simp] theorem Csrs.accept_pollCount (c : Csrs) (w : Word) : (c.accept w).pollCount = 0 := rfl
@[simp] theorem Csrs.accept_setup (c : Csrs) (w : Word) : (c.accept w).setup = c.setup := rfl
@[simp] theorem Csrs.accept_state0 (c : Csrs) (w : Word) : (c.accept w).state0 = c.state0 := rfl
@[simp] theorem Csrs.accept_state1 (c : Csrs) (w : Word) : (c.accept w).state1 = c.state1 := rfl
@[simp] theorem Csrs.overran_cmd (c : Csrs) : (c.overran).cmd = c.cmd := rfl
@[simp] theorem Csrs.overran_done (c : Csrs) : (c.overran).done = c.done := rfl
@[simp] theorem Csrs.overran_err (c : Csrs) : (c.overran).err = c.err := rfl
@[simp] theorem Csrs.overran_overrun (c : Csrs) : (c.overran).overrun = true := rfl
@[simp] theorem Csrs.overran_code (c : Csrs) : (c.overran).code = c.code := rfl
@[simp] theorem Csrs.overran_phase (c : Csrs) : (c.overran).phase = c.phase := rfl
@[simp] theorem Csrs.overran_result (c : Csrs) : (c.overran).result = c.result := rfl
@[simp] theorem Csrs.overran_doneIe (c : Csrs) : (c.overran).doneIe = c.doneIe := rfl
@[simp] theorem Csrs.overran_pollCount (c : Csrs) : (c.overran).pollCount = c.pollCount := rfl
@[simp] theorem Csrs.overran_setup (c : Csrs) : (c.overran).setup = c.setup := rfl
@[simp] theorem Csrs.overran_state0 (c : Csrs) : (c.overran).state0 = c.state0 := rfl
@[simp] theorem Csrs.overran_state1 (c : Csrs) : (c.overran).state1 = c.state1 := rfl
@[simp] theorem Csrs.finish_cmd (c : Csrs) (k : Completion) : (c.finish k).cmd = c.cmd := rfl
@[simp] theorem Csrs.finish_done (c : Csrs) (k : Completion) : (c.finish k).done = true := rfl
@[simp] theorem Csrs.finish_err (c : Csrs) (k : Completion) : (c.finish k).err = decide (k.code ≠ .ok) := rfl
@[simp] theorem Csrs.finish_overrun (c : Csrs) (k : Completion) : (c.finish k).overrun = c.overrun := rfl
@[simp] theorem Csrs.finish_code (c : Csrs) (k : Completion) : (c.finish k).code = k.code := rfl
@[simp] theorem Csrs.finish_phase (c : Csrs) (k : Completion) : (c.finish k).phase = k.phase := rfl
@[simp] theorem Csrs.finish_result (c : Csrs) (k : Completion) : (c.finish k).result = k.result := rfl
@[simp] theorem Csrs.finish_doneIe (c : Csrs) (k : Completion) : (c.finish k).doneIe = c.doneIe := rfl
@[simp] theorem Csrs.finish_pollCount (c : Csrs) (k : Completion) : (c.finish k).pollCount = c.pollCount := rfl
@[simp] theorem Csrs.finish_setup (c : Csrs) (k : Completion) : (c.finish k).setup = c.setup := rfl
@[simp] theorem Csrs.finish_state0 (c : Csrs) (k : Completion) : (c.finish k).state0 = c.state0 := rfl
@[simp] theorem Csrs.finish_state1 (c : Csrs) (k : Completion) : (c.finish k).state1 = c.state1 := rfl
@[simp] theorem Csrs.countPoll_cmd (c : Csrs) : (c.countPoll).cmd = c.cmd := rfl
@[simp] theorem Csrs.countPoll_done (c : Csrs) : (c.countPoll).done = c.done := rfl
@[simp] theorem Csrs.countPoll_err (c : Csrs) : (c.countPoll).err = c.err := rfl
@[simp] theorem Csrs.countPoll_overrun (c : Csrs) : (c.countPoll).overrun = c.overrun := rfl
@[simp] theorem Csrs.countPoll_code (c : Csrs) : (c.countPoll).code = c.code := rfl
@[simp] theorem Csrs.countPoll_phase (c : Csrs) : (c.countPoll).phase = c.phase := rfl
@[simp] theorem Csrs.countPoll_result (c : Csrs) : (c.countPoll).result = c.result := rfl
@[simp] theorem Csrs.countPoll_doneIe (c : Csrs) : (c.countPoll).doneIe = c.doneIe := rfl
@[simp] theorem Csrs.countPoll_pollCount (c : Csrs) : (c.countPoll).pollCount = if c.pollCount = 0xFFFFFFFF then 0xFFFFFFFF else c.pollCount + 1 := rfl
@[simp] theorem Csrs.countPoll_setup (c : Csrs) : (c.countPoll).setup = c.setup := rfl
@[simp] theorem Csrs.countPoll_state0 (c : Csrs) : (c.countPoll).state0 = c.state0 := rfl
@[simp] theorem Csrs.countPoll_state1 (c : Csrs) : (c.countPoll).state1 = c.state1 := rfl

/-! ## Engine updates (Ops.lean) -/

@[simp] theorem Engine.goto_snap (e : Engine) (p : Pos) : (e.goto p).snap = e.snap := rfl
@[simp] theorem Engine.goto_pos (e : Engine) (p : Pos) : (e.goto p).pos = p := rfl
@[simp] theorem Engine.goto_n (e : Engine) (p : Pos) : (e.goto p).n = e.n := rfl
@[simp] theorem Engine.goto_last (e : Engine) (p : Pos) : (e.goto p).last = e.last := rfl
@[simp] theorem Engine.goto_read (e : Engine) (p : Pos) : (e.goto p).read = e.read := rfl
@[simp] theorem Engine.goto_entry (e : Engine) (p : Pos) : (e.goto p).entry = e.entry := rfl
@[simp] theorem Engine.goto_idx (e : Engine) (p : Pos) : (e.goto p).idx = e.idx := rfl
@[simp] theorem Engine.goto_out (e : Engine) (p : Pos) : (e.goto p).out = e.out := rfl
@[simp] theorem Engine.ends_snap (e : Engine) (k : Completion) : (e.ends k).snap = e.snap := rfl
@[simp] theorem Engine.ends_pos (e : Engine) (k : Completion) : (e.ends k).pos = .finish := rfl
@[simp] theorem Engine.ends_n (e : Engine) (k : Completion) : (e.ends k).n = e.n := rfl
@[simp] theorem Engine.ends_last (e : Engine) (k : Completion) : (e.ends k).last = e.last := rfl
@[simp] theorem Engine.ends_read (e : Engine) (k : Completion) : (e.ends k).read = e.read := rfl
@[simp] theorem Engine.ends_entry (e : Engine) (k : Completion) : (e.ends k).entry = e.entry := rfl
@[simp] theorem Engine.ends_idx (e : Engine) (k : Completion) : (e.ends k).idx = e.idx := rfl
@[simp] theorem Engine.ends_out (e : Engine) (k : Completion) : (e.ends k).out = k := rfl
@[simp] theorem Engine.readAt_snap (e : Engine) (v : Word) (p : Pos) : (e.readAt v p).snap = e.snap := rfl
@[simp] theorem Engine.readAt_pos (e : Engine) (v : Word) (p : Pos) : (e.readAt v p).pos = p := rfl
@[simp] theorem Engine.readAt_n (e : Engine) (v : Word) (p : Pos) : (e.readAt v p).n = e.n := rfl
@[simp] theorem Engine.readAt_last (e : Engine) (v : Word) (p : Pos) : (e.readAt v p).last = e.last := rfl
@[simp] theorem Engine.readAt_read (e : Engine) (v : Word) (p : Pos) : (e.readAt v p).read = v := rfl
@[simp] theorem Engine.readAt_entry (e : Engine) (v : Word) (p : Pos) : (e.readAt v p).entry = e.entry := rfl
@[simp] theorem Engine.readAt_idx (e : Engine) (v : Word) (p : Pos) : (e.readAt v p).idx = e.idx := rfl
@[simp] theorem Engine.readAt_out (e : Engine) (v : Word) (p : Pos) : (e.readAt v p).out = e.out := rfl
@[simp] theorem Engine.counted_snap (e : Engine) (v : Word) : (e.counted v).snap = e.snap := rfl
@[simp] theorem Engine.counted_pos (e : Engine) (v : Word) : (e.counted v).pos = e.pos := rfl
@[simp] theorem Engine.counted_n (e : Engine) (v : Word) : (e.counted v).n = e.n + 1 := rfl
@[simp] theorem Engine.counted_last (e : Engine) (v : Word) : (e.counted v).last = v := rfl
@[simp] theorem Engine.counted_read (e : Engine) (v : Word) : (e.counted v).read = e.read := rfl
@[simp] theorem Engine.counted_entry (e : Engine) (v : Word) : (e.counted v).entry = e.entry := rfl
@[simp] theorem Engine.counted_idx (e : Engine) (v : Word) : (e.counted v).idx = e.idx := rfl
@[simp] theorem Engine.counted_out (e : Engine) (v : Word) : (e.counted v).out = e.out := rfl
@[simp] theorem Engine.accepted_snap (w : Word) (u : Setup) : (Engine.accepted w u).snap = { cmd := w, setup := u } := rfl
@[simp] theorem Engine.accepted_pos (w : Word) (u : Setup) : (Engine.accepted w u).pos = .start := rfl
@[simp] theorem Engine.accepted_n (w : Word) (u : Setup) : (Engine.accepted w u).n = 0 := rfl
@[simp] theorem Engine.accepted_last (w : Word) (u : Setup) : (Engine.accepted w u).last = 0 := rfl
@[simp] theorem Engine.accepted_read (w : Word) (u : Setup) : (Engine.accepted w u).read = 0 := rfl
@[simp] theorem Engine.accepted_entry (w : Word) (u : Setup) : (Engine.accepted w u).entry = 0 := rfl
@[simp] theorem Engine.accepted_idx (w : Word) (u : Setup) : (Engine.accepted w u).idx = 0 := rfl
@[simp] theorem Engine.accepted_out (w : Word) (u : Setup) : (Engine.accepted w u).out = okWith 0 := rfl

/-! ## Environment updates (Ops.lean) -/

@[simp] theorem Env.took_mem (e : Env) : (e.took).mem = e.mem := rfl
@[simp] theorem Env.took_regs (e : Env) : (e.took).regs = e.regs := rfl
@[simp] theorem Env.took_answers (e : Env) : (e.took).answers = e.answers.tail := rfl
@[simp] theorem Env.took_draws (e : Env) : (e.took).draws = e.draws + 1 := rfl
@[simp] theorem Env.took_history (e : Env) : (e.took).history = e.history := rfl
@[simp] theorem Env.performed_mem (e : Env) (m : Master) (x : Access) : (e.performed m x).mem = e.mem := rfl
@[simp] theorem Env.performed_regs (e : Env) (m : Master) (x : Access) : (e.performed m x).regs = e.regs := rfl
@[simp] theorem Env.performed_answers (e : Env) (m : Master) (x : Access) : (e.performed m x).answers = e.answers.tail := rfl
@[simp] theorem Env.performed_draws (e : Env) (m : Master) (x : Access) : (e.performed m x).draws = e.draws + 1 := rfl
@[simp] theorem Env.performed_history (e : Env) (m : Master) (x : Access) : (e.performed m x).history = (m, x) :: e.history := rfl
@[simp] theorem Env.putReg_mem (e : Env) (a : Nat) (v : Word) : (e.putReg a v).mem = e.mem := rfl
@[simp] theorem Env.putReg_regs (e : Env) (a : Nat) (v : Word) : (e.putReg a v).regs = Cells.put e.regs a v := rfl
@[simp] theorem Env.putReg_answers (e : Env) (a : Nat) (v : Word) : (e.putReg a v).answers = e.answers := rfl
@[simp] theorem Env.putReg_draws (e : Env) (a : Nat) (v : Word) : (e.putReg a v).draws = e.draws := rfl
@[simp] theorem Env.putReg_history (e : Env) (a : Nat) (v : Word) : (e.putReg a v).history = e.history := rfl
@[simp] theorem Env.putMem_mem (e : Env) (pa : Nat) (v : Dword) : (e.putMem pa v).mem = Memory.store8 e.mem pa v := rfl
@[simp] theorem Env.putMem_regs (e : Env) (pa : Nat) (v : Dword) : (e.putMem pa v).regs = e.regs := rfl
@[simp] theorem Env.putMem_answers (e : Env) (pa : Nat) (v : Dword) : (e.putMem pa v).answers = e.answers := rfl
@[simp] theorem Env.putMem_draws (e : Env) (pa : Nat) (v : Dword) : (e.putMem pa v).draws = e.draws := rfl
@[simp] theorem Env.putMem_history (e : Env) (pa : Nat) (v : Dword) : (e.putMem pa v).history = e.history := rfl
@[simp] theorem Env.putByte_mem (e : Env) (pa : Nat) (b : Byte) : (e.putByte pa b).mem = Cells.put e.mem pa b := rfl
@[simp] theorem Env.putByte_regs (e : Env) (pa : Nat) (b : Byte) : (e.putByte pa b).regs = e.regs := rfl
@[simp] theorem Env.putByte_answers (e : Env) (pa : Nat) (b : Byte) : (e.putByte pa b).answers = e.answers := rfl
@[simp] theorem Env.putByte_draws (e : Env) (pa : Nat) (b : Byte) : (e.putByte pa b).draws = e.draws := rfl
@[simp] theorem Env.putByte_history (e : Env) (pa : Nat) (b : Byte) : (e.putByte pa b).history = e.history := rfl

/-! ## State updates (Ops.lean) -/

@[simp] theorem State.setEngine_params (s : State) (e : Engine) : (s.setEngine e).params = s.params := rfl
@[simp] theorem State.setEngine_csr (s : State) (e : Engine) : (s.setEngine e).csr = s.csr := rfl
@[simp] theorem State.setEngine_engine (s : State) (e : Engine) : (s.setEngine e).engine = some e := rfl
@[simp] theorem State.setEngine_env (s : State) (e : Engine) : (s.setEngine e).env = s.env := rfl
@[simp] theorem State.setEngine_host (s : State) (e : Engine) : (s.setEngine e).host = s.host := rfl
@[simp] theorem State.setEngine_inputs (s : State) (e : Engine) : (s.setEngine e).inputs = s.inputs := rfl
@[simp] theorem accept_params (w : Word) (s : State) : (accept w s).params = s.params := rfl
@[simp] theorem accept_csr (w : Word) (s : State) : (accept w s).csr = s.csr.accept w := rfl
@[simp] theorem accept_engine (w : Word) (s : State) : (accept w s).engine = some (Engine.accepted w s.csr.setup) := rfl
@[simp] theorem accept_env (w : Word) (s : State) : (accept w s).env = s.env := rfl
@[simp] theorem accept_host (w : Word) (s : State) : (accept w s).host = s.host := rfl
@[simp] theorem accept_inputs (w : Word) (s : State) : (accept w s).inputs = s.inputs := rfl
@[simp] theorem finish_params (i : Option Instr) (k : Completion) (s : State) : (finish i k s).params = s.params := rfl
@[simp] theorem finish_csr (i : Option Instr) (k : Completion) (s : State) : (finish i k s).csr = (s.csr.finish k).shadow i k.code := rfl
@[simp] theorem finish_engine (i : Option Instr) (k : Completion) (s : State) : (finish i k s).engine = none := rfl
@[simp] theorem finish_env (i : Option Instr) (k : Completion) (s : State) : (finish i k s).env = s.env := rfl
@[simp] theorem finish_host (i : Option Instr) (k : Completion) (s : State) : (finish i k s).host = s.host := rfl
@[simp] theorem finish_inputs (i : Option Instr) (k : Completion) (s : State) : (finish i k s).inputs = s.inputs := rfl
@[simp] theorem resetInput_params (s : State) : (resetInput s).params = s.params := rfl
@[simp] theorem resetInput_csr (s : State) : (resetInput s).csr = Csrs.reset := rfl
@[simp] theorem resetInput_engine (s : State) : (resetInput s).engine = none := rfl
@[simp] theorem resetInput_env (s : State) : (resetInput s).env = s.env := rfl
@[simp] theorem resetInput_host (s : State) : (resetInput s).host = s.host := rfl
@[simp] theorem resetInput_inputs (s : State) : (resetInput s).inputs = s.inputs := rfl

/-! ## Updates that look at a case -/

/-- AGTa_STATE apart, `shadow` changes nothing. -/
theorem Csrs.shadow_rest (c : Csrs) (i : Option Instr) (k : Code) :
    (c.shadow i k).cmd = c.cmd ∧ (c.shadow i k).done = c.done ∧ (c.shadow i k).err = c.err
      ∧ (c.shadow i k).overrun = c.overrun ∧ (c.shadow i k).code = c.code ∧ (c.shadow i k).phase = c.phase
      ∧ (c.shadow i k).result = c.result ∧ (c.shadow i k).doneIe = c.doneIe
      ∧ (c.shadow i k).pollCount = c.pollCount ∧ (c.shadow i k).setup = c.setup := by
  rcases i with _ | (_ | _ | ⟨_ | _, t⟩ | _ | _ | _) <;> simp [Csrs.shadow]

@[simp] theorem Csrs.shadow_cmd (c : Csrs) (i : Option Instr) (k : Code) : (c.shadow i k).cmd = c.cmd :=
  (c.shadow_rest i k).1
@[simp] theorem Csrs.shadow_done (c : Csrs) (i : Option Instr) (k : Code) : (c.shadow i k).done = c.done :=
  (c.shadow_rest i k).2.1
@[simp] theorem Csrs.shadow_err (c : Csrs) (i : Option Instr) (k : Code) : (c.shadow i k).err = c.err :=
  (c.shadow_rest i k).2.2.1
@[simp] theorem Csrs.shadow_overrun (c : Csrs) (i : Option Instr) (k : Code) : (c.shadow i k).overrun = c.overrun :=
  (c.shadow_rest i k).2.2.2.1
@[simp] theorem Csrs.shadow_code (c : Csrs) (i : Option Instr) (k : Code) : (c.shadow i k).code = c.code :=
  (c.shadow_rest i k).2.2.2.2.1
@[simp] theorem Csrs.shadow_phase (c : Csrs) (i : Option Instr) (k : Code) : (c.shadow i k).phase = c.phase :=
  (c.shadow_rest i k).2.2.2.2.2.1
@[simp] theorem Csrs.shadow_result (c : Csrs) (i : Option Instr) (k : Code) : (c.shadow i k).result = c.result :=
  (c.shadow_rest i k).2.2.2.2.2.2.1
@[simp] theorem Csrs.shadow_doneIe (c : Csrs) (i : Option Instr) (k : Code) : (c.shadow i k).doneIe = c.doneIe :=
  (c.shadow_rest i k).2.2.2.2.2.2.2.1
@[simp] theorem Csrs.shadow_pollCount (c : Csrs) (i : Option Instr) (k : Code) :
    (c.shadow i k).pollCount = c.pollCount :=
  (c.shadow_rest i k).2.2.2.2.2.2.2.2.1
@[simp] theorem Csrs.shadow_setup (c : Csrs) (i : Option Instr) (k : Code) : (c.shadow i k).setup = c.setup :=
  (c.shadow_rest i k).2.2.2.2.2.2.2.2.2

/-- Entering POLL keeps the snapshot and starts its loop. -/
theorem Engine.enterPoll_rest (e : Engine) (x : Site) :
    (e.enterPoll x).snap = e.snap ∧ (e.enterPoll x).n = 0 ∧ (e.enterPoll x).last = 0 ∧ (e.enterPoll x).idx = e.idx := by
  unfold Engine.enterPoll
  split <;> simp

@[simp] theorem Engine.enterPoll_snap (e : Engine) (x : Site) : (e.enterPoll x).snap = e.snap := (e.enterPoll_rest x).1

/-- A poll read keeps the snapshot, if what follows a match does. -/
theorem Engine.polled_snap (e : Engine) (x : Site) (m k : Word) (g : Engine → Engine) (v : Word)
    (hg : ∀ f, (g f).snap = f.snap) : (e.polled x m k g v).snap = e.snap := by
  unfold Engine.polled
  split
  · simp [hg]
  · split <;> simp

/-- A tick changes the engine's position at most. -/
theorem tick_rest (s : State) :
    (tick s).params = s.params ∧ (tick s).csr = s.csr ∧ (tick s).env = s.env ∧ (tick s).host = s.host
      ∧ (tick s).inputs = s.inputs := by
  unfold tick
  split <;> simp

@[simp] theorem tick_params (s : State) : (tick s).params = s.params := (tick_rest s).1
@[simp] theorem tick_csr (s : State) : (tick s).csr = s.csr := (tick_rest s).2.1
@[simp] theorem tick_env (s : State) : (tick s).env = s.env := (tick_rest s).2.2.1
@[simp] theorem tick_host (s : State) : (tick s).host = s.host := (tick_rest s).2.2.2.1
@[simp] theorem tick_inputs (s : State) : (tick s).inputs = s.inputs := (tick_rest s).2.2.2.2

@[simp] theorem tick_engine (s : State) : (tick s).engine = s.engine.map Engine.ticked := by
  unfold tick
  split <;> simp_all

/-- A tick keeps the engine but for its position. -/
theorem Engine.ticked_rest (e : Engine) :
    e.ticked.snap = e.snap ∧ e.ticked.n = e.n ∧ e.ticked.last = e.last ∧ e.ticked.entry = e.entry
      ∧ e.ticked.idx = e.idx ∧ e.ticked.read = e.read ∧ e.ticked.out = e.out := by
  unfold Engine.ticked
  split <;> simp

@[simp] theorem Engine.ticked_snap (e : Engine) : e.ticked.snap = e.snap := e.ticked_rest.1

end Sys2Proof.Machine
end

