-- ==== Sys2Proof/Laws/Memory.lean ====
section
/-! SUPPORT. The two address spaces: a read after a write, the frame of a write, and the canonical form kept by every
operation. -/

namespace Sys2Proof

variable {α : Type}

/-! ## Lists of cells -/

@[simp] theorem Cells.find_put_same (r : List (Nat × α)) (a : Nat) (v : α) :
    Cells.find (Cells.put r a v) a = some v := by
  induction r with
  | nil => simp [Cells.put, Cells.find]
  | cons c r ih =>
    obtain ⟨k, w⟩ := c
    unfold Cells.put
    split
    · simp [Cells.find]
    · split
      · simp [Cells.find]
      · rename_i h
        simp [Cells.find, Ne.symm h, ih]

theorem Cells.find_put_other (r : List (Nat × α)) {a b : Nat} (v : α) (h : b ≠ a) :
    Cells.find (Cells.put r a v) b = Cells.find r b := by
  induction r with
  | nil => simp [Cells.put, Cells.find, Ne.symm h]
  | cons c r ih =>
    obtain ⟨k, w⟩ := c
    unfold Cells.put
    split
    · simp [Cells.find, Ne.symm h]
    · split
      · rename_i h1
        subst h1
        simp [Cells.find, Ne.symm h]
      · simp [Cells.find, ih]

theorem Cells.rising_put (r : List (Nat × α)) (lo a : Nat) (v : α) (h : Cells.rising lo r = true) (ha : lo ≤ a) :
    Cells.rising lo (Cells.put r a v) = true := by
  induction r generalizing lo with
  | nil => simp [Cells.put, Cells.rising, ha]
  | cons c r ih =>
    obtain ⟨k, w⟩ := c
    simp only [Cells.rising, Bool.and_eq_true, decide_eq_true_eq] at h
    unfold Cells.put
    split
    · rename_i h1
      simp [Cells.rising, ha, h.2]
      omega
    · split
      · rename_i h2
        subst h2
        simp [Cells.rising, ha, h.2]
      · simp only [Cells.rising, Bool.and_eq_true, decide_eq_true_eq]
        exact ⟨h.1, ih (k + 1) h.2 (by omega)⟩

theorem Cells.all_put (r : List (Nat × α)) (a : Nat) (v : α) (p : Nat × α → Bool) (h : r.all p = true)
    (ha : p (a, v) = true) : (Cells.put r a v).all p = true := by
  induction r with
  | nil => simp [Cells.put, ha]
  | cons c r ih =>
    obtain ⟨k, w⟩ := c
    simp only [List.all_cons, Bool.and_eq_true] at h
    unfold Cells.put
    split
    · simpa [ha, h.1] using h.2
    · split
      · simpa [ha] using h.2
      · simpa [h.1] using ih h.2

/-- Two canonical lists that answer alike at every address are the same data. -/
theorem Cells.ext_of_rising (r q : List (Nat × α)) (lo : Nat) (hr : Cells.rising lo r = true)
    (hq : Cells.rising lo q = true) (h : ∀ a, Cells.find r a = Cells.find q a) : r = q := by
  have below : ∀ (r : List (Nat × α)) (lo a : Nat), Cells.rising lo r = true → a < lo → Cells.find r a = none := by
    intro r
    induction r with
    | nil => intros; rfl
    | cons c r ih =>
      obtain ⟨k, w⟩ := c
      intro lo a hr ha
      simp only [Cells.rising, Bool.and_eq_true, decide_eq_true_eq] at hr
      have hk : k ≠ a := by omega
      simp [Cells.find, hk, ih (k + 1) a hr.2 (by omega)]
  induction r generalizing q lo with
  | nil =>
    cases q with
    | nil => rfl
    | cons c q =>
      have := h c.1
      simp [Cells.find] at this
  | cons c r ih =>
    obtain ⟨k, w⟩ := c
    simp only [Cells.rising, Bool.and_eq_true, decide_eq_true_eq] at hr
    cases q with
    | nil =>
      have := h k
      simp [Cells.find] at this
    | cons d q =>
      obtain ⟨j, u⟩ := d
      simp only [Cells.rising, Bool.and_eq_true, decide_eq_true_eq] at hq
      have hkj : k = j := by
        rcases Nat.lt_trichotomy k j with hlt | heq | hgt
        · have h1 := h k
          have h2 := below q (j + 1) k hq.2 (by omega)
          have h3 : j ≠ k := by omega
          simp [Cells.find, h2, h3] at h1
        · exact heq
        · have h1 := h j
          have h2 := below r (k + 1) j hr.2 (by omega)
          have h3 : k ≠ j := by omega
          simp [Cells.find, h2, h3] at h1
      subst hkj
      have hwu : w = u := by
        have := h k
        simpa [Cells.find] using this
      subst hwu
      rw [ih q (k + 1) hr.2 hq.2]
      intro a
      by_cases hka : k = a
      · subst hka
        rw [below r (k + 1) k hr.2 (by omega), below q (k + 1) k hq.2 (by omega)]
      · simpa [Cells.find, hka] using h a

/-! ## Bytes of the memory space -/

theorem Memory.byte_storeBytes (m : List Host.Cell) (pa : Nat) (v : Dword) (n a : Nat) :
    Memory.byte (Memory.storeBytes m pa v n) a
      = if pa ≤ a ∧ a < pa + n then some (byteOf v (a - pa)) else Memory.byte m a := by
  induction n with
  | zero =>
    have : ¬(pa ≤ a ∧ a < pa + 0) := by omega
    rw [if_neg this]
    rfl
  | succ n ih =>
    unfold Memory.storeBytes
    by_cases ha : a = pa + n
    · subst ha
      have : pa ≤ pa + n ∧ pa + n < pa + (n + 1) := by omega
      rw [if_pos this]
      simp [Memory.byte]
    · have h1 : Memory.byte (Cells.put (Memory.storeBytes m pa v n) (pa + n) (byteOf v n)) a
          = Memory.byte (Memory.storeBytes m pa v n) a := Cells.find_put_other _ _ ha
      rw [h1, ih]
      by_cases h2 : pa ≤ a ∧ a < pa + n
      · rw [if_pos h2, if_pos (by omega)]
      · rw [if_neg h2, if_neg (by omega)]

/-- What one 8-byte store leaves at every address: the stored bytes, little-endian, and everything else as before. -/
theorem Memory.byte_store8 (m : List Host.Cell) (pa : Nat) (v : Dword) (a : Nat) :
    Memory.byte (Memory.store8 m pa v) a
      = if pa ≤ a ∧ a < pa + 8 then some (byteOf v (a - pa)) else Memory.byte m a :=
  Memory.byte_storeBytes m pa v 8 a

theorem Memory.wf_put (m : List Host.Cell) (a : Nat) (b : Byte) (h : Memory.wf m = true) (ha : a < 2 ^ 40) :
    Memory.wf (Cells.put m a b) = true := by
  simp only [Memory.wf, Bool.and_eq_true] at h ⊢
  exact ⟨Cells.rising_put m 0 a b h.1 (Nat.zero_le a), Cells.all_put m a b _ h.2 (by simpa using ha)⟩

theorem Memory.wf_storeBytes (m : List Host.Cell) (pa : Nat) (v : Dword) (n : Nat) (h : Memory.wf m = true)
    (ha : pa + n ≤ 2 ^ 40) : Memory.wf (Memory.storeBytes m pa v n) = true := by
  induction n with
  | zero => exact h
  | succ n ih => exact Memory.wf_put _ _ _ (ih (by omega)) (by omega)

/-- An 8-byte store inside the memory space keeps the canonical form. -/
theorem Memory.wf_store8 (m : List Host.Cell) (pa : Nat) (v : Dword) (h : Memory.wf m = true)
    (ha : pa + 8 ≤ 2 ^ 40) : Memory.wf (Memory.store8 m pa v) = true :=
  Memory.wf_storeBytes m pa v 8 h ha

/-- An 8-byte load of bytes just stored gives the value stored. -/
theorem Memory.load8_store8 (m : List Host.Cell) (pa : Nat) (v free : Dword) :
    Memory.load8 (Memory.store8 m pa v) pa free = v := by
  simp only [Memory.load8, Memory.byte_store8, byteOf]
  norm_num
  apply BitVec.eq_of_getLsbD_eq
  intro i hi
  simp only [BitVec.getLsbD_append, BitVec.getLsbD_extractLsb']
  interval_cases i <;> simp

/-! ## Words of the register space -/

theorem Registers.word_put_same (r : List (Nat × Word)) (a : Nat) (v : Word) :
    Registers.word (Cells.put r a v) a = some v := Cells.find_put_same r a v

theorem Registers.word_put_other (r : List (Nat × Word)) {a b : Nat} (v : Word) (h : b ≠ a) :
    Registers.word (Cells.put r a v) b = Registers.word r b := Cells.find_put_other r v h

/-- A write of an aligned register keeps the canonical form. -/
theorem Registers.wf_put (r : List (Nat × Word)) (a : Nat) (v : Word) (h : Registers.wf r = true)
    (ha : a % 4 = 0 ∧ a < 2 ^ 32) : Registers.wf (Cells.put r a v) = true := by
  simp only [Registers.wf, Bool.and_eq_true] at h ⊢
  exact ⟨Cells.rising_put r 0 a v h.1 (Nat.zero_le a), Cells.all_put r a v _ h.2 (by simpa using ha)⟩

end Sys2Proof
end

