-- ==== Sys2Proof/Laws/Ops.lean ====
section
/-! SUPPORT. One lemma per shared operation that says everything it can do, and the shape of every engine step. -/

namespace Sys2Proof.Machine

/-! ## Addresses -/

theorem regFault_none_iff (a : Nat) : regFault a = none ↔ a % 4 = 0 ∧ a < 2 ^ 32 := by
  unfold regFault
  split
  · simp_all
  · split
    · simp; omega
    · simp; omega

theorem memFault_none_iff (pa : Nat) : memFault pa = none ↔ pa % 8 = 0 ∧ pa + 8 ≤ 2 ^ 40 := by
  unfold memFault
  split
  · simp_all
  · split
    · simp; omega
    · simp; omega

/-- A CSR with hardwired-zero low bits always holds a register-space address (20 R76). -/
@[simp] theorem regFault_regAddr (v : BitVec 30) : regFault (regAddr v) = none := by
  rw [regFault_none_iff]
  unfold regAddr
  omega

/-! ## The engine's bus primitives, when they answer a next state -/

variable {i : Instr} {s t : State} {e : Engine}

theorem running_next {k : Engine → Host.Outcome State Fault Refusal} (h : running s k = .next t) :
    ∃ e, s.engine = some e ∧ k e = .next t := by
  unfold running at h
  split at h
  · cases h
  · exact ⟨_, ‹_›, h⟩

@[simp] theorem running_some {k : Engine → Host.Outcome State Fault Refusal} (h : s.engine = some e) :
    running s k = k e := by
  simp [running, h]

theorem proceed_next {α : Type} {bad : Option Fault} {b : Reply α} {k : α → State → State}
    (h : proceed i bad b k = .next t) : bad = none ∧ t = settle i b k := by
  unfold proceed at h
  split at h
  · cases h
  · simp_all

theorem readStep_next {a : Nat} {k : Word → State → State} (h : readStep i a s k = .next t) :
    (s.busFails = true ∧ t = finish (some i) busError { s with env := s.env.took }) ∨
    (s.busFails = false
      ∧ t = k (s.env.regValue a) { s with env := s.env.performed .engine (.r32 a (s.env.regValue a)) }) := by
  obtain ⟨-, rfl⟩ := proceed_next h
  by_cases hb : s.busFails = true <;> simp [read32, settle, hb]

theorem loadStep_next {pa : Nat} {k : Dword → State → State} (h : loadStep i pa s k = .next t) :
    (s.busFails = true ∧ t = finish (some i) busError { s with env := s.env.took }) ∨
    (s.busFails = false
      ∧ t = k (s.env.memValue pa) { s with env := s.env.performed .engine (.memRead pa (s.env.memValue pa)) }) := by
  obtain ⟨-, rfl⟩ := proceed_next h
  by_cases hb : s.busFails = true <;> simp [memRead8, settle, hb]

theorem writeStep_next {a : Nat} {v : Word} (h : writeStep i e a v s = .next t) :
    (s.busFails = true ∧ t = finish (some i) busError { s with env := s.env.took }) ∨
    (s.busFails = false ∧ regFault a = none
      ∧ t = { s with env := (s.env.performed .engine (.w32 a v)).putReg a v, engine := some e }) := by
  obtain ⟨ha, rfl⟩ := proceed_next h
  by_cases hb : s.busFails = true <;> simp [write32, settle, hb, ha, State.setEngine]

theorem storeStep_next {pa : Nat} {v : Dword} (h : storeStep i e pa v s = .next t) :
    (s.busFails = true ∧ t = finish (some i) busError { s with env := s.env.took }) ∨
    (s.busFails = false ∧ memFault pa = none
      ∧ t = { s with env := (s.env.performed .engine (.memWrite pa v)).putMem pa v, engine := some e }) := by
  obtain ⟨ha, rfl⟩ := proceed_next h
  by_cases hb : s.busFails = true <;> simp [memWrite8, settle, hb, ha, State.setEngine]

/-! ## The engine's bus primitives, when the address is one of the space and the bus completes -/

theorem readStep_done {a : Nat} {k : Word → State → State} (ha : regFault a = none) (hb : s.busFails = false) :
    readStep i a s k
      = .next (k (s.env.regValue a) { s with env := s.env.performed .engine (.r32 a (s.env.regValue a)) }) := by
  simp [readStep, proceed, settle, read32, ha, hb]

theorem loadStep_done {pa : Nat} {k : Dword → State → State} (ha : memFault pa = none) (hb : s.busFails = false) :
    loadStep i pa s k
      = .next (k (s.env.memValue pa) { s with env := s.env.performed .engine (.memRead pa (s.env.memValue pa)) }) := by
  simp [loadStep, proceed, settle, memRead8, ha, hb]

theorem writeStep_done {a : Nat} {v : Word} (ha : regFault a = none) (hb : s.busFails = false) :
    writeStep i e a v s
      = .next { s with env := (s.env.performed .engine (.w32 a v)).putReg a v, engine := some e } := by
  simp [writeStep, proceed, settle, write32, ha, hb, State.setEngine]

theorem storeStep_done {pa : Nat} {v : Dword} (ha : memFault pa = none) (hb : s.busFails = false) :
    storeStep i e pa v s
      = .next { s with env := (s.env.performed .engine (.memWrite pa v)).putMem pa v, engine := some e } := by
  simp [storeStep, proceed, settle, memWrite8, ha, hb, State.setEngine]

/-! ## What a primitive does depends on the engine record it is given, not on the one in the state -/

theorem pollRound_engine (x : Site) (a : Nat) (m k : Word) (g : Engine → Engine) (o : Option Engine) :
    pollRound i e x a m k g { s with engine := o } = pollRound i e x a m k g s := by
  unfold pollRound readStep proceed
  split
  · rfl
  · cases hb : s.busFails
    · have ho : State.busFails { s with engine := o } = false := hb
      simp [read32, settle, hb, ho]
    · have ho : State.busFails { s with engine := o } = true := hb
      simp [read32, settle, hb, ho, finish]

theorem storeStep_engine (pa : Nat) (v : Dword) (o : Option Engine) :
    storeStep i e pa v { s with engine := o } = storeStep i e pa v s := by
  unfold storeStep proceed
  split
  · rfl
  · cases hb : s.busFails
    · have ho : State.busFails { s with engine := o } = false := hb
      simp [memWrite8, settle, hb, ho, State.setEngine]
    · have ho : State.busFails { s with engine := o } = true := hb
      simp [memWrite8, settle, hb, ho, finish]

theorem loadStep_engine (pa : Nat) (f : Dword → Engine) (o : Option Engine) :
    loadStep i pa { s with engine := o } (fun v t => t.setEngine (f v)) = loadStep i pa s fun v t => t.setEngine (f v) := by
  unfold loadStep proceed
  split
  · rfl
  · cases hb : s.busFails
    · have ho : State.busFails { s with engine := o } = false := hb
      simp [memRead8, settle, hb, ho, State.setEngine]
    · have ho : State.busFails { s with engine := o } = true := hb
      simp [memRead8, settle, hb, ho, finish]

/-! ## What a primitive does does not depend on the schedule -/

theorem proceed_inputs {α : Type} {bad : Option Fault} {b b' : Reply α} {k : α → State → State} {l : List Event}
    (hd : settle i b' k = { settle i b k with inputs := l }) (h : proceed i bad b k = .next t) :
    proceed i bad b' k = .next { t with inputs := l } := by
  obtain ⟨rfl, rfl⟩ := proceed_next h
  exact congrArg Host.Outcome.next hd

theorem readStep_inputs {a : Nat} {k : Word → State → State} (l : List Event)
    (hk : ∀ v u, k v { u with inputs := l } = { k v u with inputs := l }) (h : readStep i a s k = .next t) :
    readStep i a { s with inputs := l } k = .next { t with inputs := l } := by
  refine proceed_inputs ?_ h
  cases hb : s.busFails
  · have hl : State.busFails { s with inputs := l } = false := hb
    simp only [read32, settle, hb, hl, Bool.false_eq_true, if_false, ← hk]
  · have hl : State.busFails { s with inputs := l } = true := hb
    simp only [read32, settle, hb, hl, if_true]
    rfl

theorem loadStep_inputs {pa : Nat} {k : Dword → State → State} (l : List Event)
    (hk : ∀ v u, k v { u with inputs := l } = { k v u with inputs := l }) (h : loadStep i pa s k = .next t) :
    loadStep i pa { s with inputs := l } k = .next { t with inputs := l } := by
  refine proceed_inputs ?_ h
  cases hb : s.busFails
  · have hl : State.busFails { s with inputs := l } = false := hb
    simp only [memRead8, settle, hb, hl, Bool.false_eq_true, if_false, ← hk]
  · have hl : State.busFails { s with inputs := l } = true := hb
    simp only [memRead8, settle, hb, hl, if_true]
    rfl

theorem writeStep_inputs {a : Nat} {v : Word} (l : List Event) (h : writeStep i e a v s = .next t) :
    writeStep i e a v { s with inputs := l } = .next { t with inputs := l } := by
  refine proceed_inputs ?_ h
  cases hb : s.busFails
  · have hl : State.busFails { s with inputs := l } = false := hb
    simp [write32, settle, hb, hl, State.setEngine]
  · have hl : State.busFails { s with inputs := l } = true := hb
    simp [write32, settle, hb, hl, finish]

theorem storeStep_inputs {pa : Nat} {v : Dword} (l : List Event) (h : storeStep i e pa v s = .next t) :
    storeStep i e pa v { s with inputs := l } = .next { t with inputs := l } := by
  refine proceed_inputs ?_ h
  cases hb : s.busFails
  · have hl : State.busFails { s with inputs := l } = false := hb
    simp [memWrite8, settle, hb, hl, State.setEngine]
  · have hl : State.busFails { s with inputs := l } = true := hb
    simp [memWrite8, settle, hb, hl, finish]

theorem pollRound_inputs {x : Site} {a : Nat} {m k : Word} {g : Engine → Engine} (l : List Event)
    (h : pollRound i e x a m k g s = .next t) :
    pollRound i e x a m k g { s with inputs := l } = .next { t with inputs := l } :=
  readStep_inputs l (fun _ _ => rfl) h

/-- One round of POLL whose read completes, in full (40 R130). -/
theorem pollRound_done {x : Site} {a : Nat} {m k : Word} {g : Engine → Engine} (ha : regFault a = none)
    (hb : s.busFails = false) :
    pollRound i e x a m k g s = .next { s with
      csr := s.csr.countPoll
      env := s.env.performed .engine (.r32 a (s.env.regValue a))
      engine := some (e.polled x m k g (s.env.regValue a)) } := by
  simp [pollRound, readStep_done ha hb]

/-- A meaning looks at the schedule nowhere. -/
theorem exec_inputs (l : List Event) (h : exec i s = .next t) :
    exec i { s with inputs := l } = .next { t with inputs := l } := by
  cases i with
  | nop =>
    obtain ⟨e, he, h⟩ := running_next h
    simp only [exec, execNop, running_some (s := { s with inputs := l }) he]
    split at h <;> cases h
    rfl
  | wait =>
    obtain ⟨e, he, h⟩ := running_next h
    simp only [exec, execWait, running_some (s := { s with inputs := l }) he]
    split at h <;>
      first
        | exact pollRound_inputs l h
        | (cases h; rfl)
        | cases h
  | mode a m =>
    obtain ⟨e, he, h⟩ := running_next h
    simp only [exec, execMode, running_some (s := { s with inputs := l }) he]
    split at h <;>
      first
        | exact readStep_inputs l (fun _ _ => rfl) h
        | exact writeStep_inputs l h
        | exact pollRound_inputs l h
        | (cases h; rfl)
        | cases h
  | format c lay d =>
    obtain ⟨e, he, h⟩ := running_next h
    dsimp only at h
    simp only [exec, execFormat, running_some (s := { s with inputs := l }) he]
    split at h <;>
      first
        | exact loadStep_inputs l (fun _ _ => rfl) h
        | exact storeStep_inputs l h
        | exact writeStep_inputs l h
        | (cases h; rfl)
        | cases h
  | mdioRd a p v =>
    obtain ⟨e, he, h⟩ := running_next h
    simp only [exec, execMdioRd, running_some (s := { s with inputs := l }) he]
    split at h <;>
      first
        | exact readStep_inputs l (fun _ _ => rfl) h
        | exact writeStep_inputs l h
        | exact pollRound_inputs l h
        | (cases h; rfl)
        | cases h
  | mdioWr a p v =>
    obtain ⟨e, he, h⟩ := running_next h
    simp only [exec, execMdioWr, running_some (s := { s with inputs := l }) he]
    split at h <;>
      first
        | exact writeStep_inputs l h
        | exact pollRound_inputs l h
        | (cases h; rfl)
        | cases h

/-! ## The shape of every engine step -/

/-- How the target state changes with an access. -/
def Env.effect (v : Env) : Access → Env
  | .r32 _ _ => v
  | .w32 a w => v.putReg a w
  | .memRead _ _ => v
  | .memWrite pa w => v.putMem pa w

/-- What one atomic step of the engine can be, whatever the command and its position: a hold in `WaitTick()`, the
command's `finish`, a bus error, or one performed access after which the command goes on. -/
inductive EngineMove (i : Instr) (s : State) : State → Prop where
  /-- In `WaitTick()`. -/
  | hold : EngineMove i s s
  /-- `finish`, with no access. -/
  | finish (k : Completion) : EngineMove i s (finish (some i) k s)
  /-- An access answered with an error. -/
  | busError : s.busFails = true → EngineMove i s (Machine.finish (some i) busError { s with env := s.env.took })
  /-- One performed access; a poll read counts. -/
  | access (e e' : Engine) (x : Access) (c : Csrs) : s.busFails = false → s.engine = some e → e'.snap = e.snap →
      (c = s.csr ∨ c = s.csr.countPoll) →
      EngineMove i s { s with csr := c, env := (s.env.performed .engine x).effect x, engine := some e' }

theorem readStep_move {a : Nat} {f : Word → Engine} (he : s.engine = some e)
    (h : readStep i a s (fun v t => t.setEngine (f v)) = .next t) (hf : ∀ v, (f v).snap = e.snap) : EngineMove i s t := by
  rcases readStep_next h with ⟨hb, rfl⟩ | ⟨hb, rfl⟩
  · exact .busError hb
  · exact .access e _ (.r32 a (s.env.regValue a)) s.csr hb he (hf _) (.inl rfl)

theorem loadStep_move {pa : Nat} {f : Dword → Engine} (he : s.engine = some e)
    (h : loadStep i pa s (fun v t => t.setEngine (f v)) = .next t) (hf : ∀ v, (f v).snap = e.snap) : EngineMove i s t := by
  rcases loadStep_next h with ⟨hb, rfl⟩ | ⟨hb, rfl⟩
  · exact .busError hb
  · exact .access e _ (.memRead pa (s.env.memValue pa)) s.csr hb he (hf _) (.inl rfl)

theorem writeStep_move {e' : Engine} {a : Nat} {v : Word} (he : s.engine = some e)
    (h : writeStep i e' a v s = .next t) (hf : e'.snap = e.snap) : EngineMove i s t := by
  rcases writeStep_next h with ⟨hb, rfl⟩ | ⟨hb, -, rfl⟩
  · exact .busError hb
  · exact .access e _ (.w32 a v) s.csr hb he hf (.inl rfl)

theorem storeStep_move {e' : Engine} {pa : Nat} {v : Dword} (he : s.engine = some e)
    (h : storeStep i e' pa v s = .next t) (hf : e'.snap = e.snap) : EngineMove i s t := by
  rcases storeStep_next h with ⟨hb, rfl⟩ | ⟨hb, -, rfl⟩
  · exact .busError hb
  · exact .access e _ (.memWrite pa v) s.csr hb he hf (.inl rfl)

theorem pollRound_move {e' : Engine} {x : Site} {a : Nat} {m k : Word} {g : Engine → Engine} (he : s.engine = some e)
    (h : pollRound i e' x a m k g s = .next t) (hf : e'.snap = e.snap) (hg : ∀ f, (g f).snap = f.snap) :
    EngineMove i s t := by
  rcases readStep_next h with ⟨hb, rfl⟩ | ⟨hb, rfl⟩
  · exact .busError hb
  · exact .access e _ (.r32 a (s.env.regValue a)) s.csr.countPoll hb he ((e'.polled_snap x m k g _ hg).trans hf) (.inr rfl)

theorem modeMatched_snap (t : AgentMode) (e : Engine) : (modeMatched t e).snap = e.snap := by
  unfold modeMatched
  split
  · split <;> simp
  all_goals simp

theorem afterEntry_snap (v : Dword) (e : Engine) : (afterEntry v e).snap = e.snap := by
  unfold afterEntry
  split <;> rfl

theorem waitEntry_snap (e : Engine) : (waitEntry e).snap = e.snap := by
  unfold waitEntry
  split
  · split <;> simp
  · rfl

theorem formatEntry_snap (m : Params) (c : Nat) (l : Layout) (d : Dir) (e : Engine) :
    (formatEntry m c l d e).snap = e.snap := by
  unfold formatEntry
  split
  · split <;> simp
  · rfl

theorem afterSlotWord_snap (l : Layout) (d : Dir) (w : SlotWord) (e : Engine) :
    (afterSlotWord l d w e).snap = e.snap := by
  unfold afterSlotWord
  split
  · simp
  · split <;> rfl

theorem afterLinkWord_snap (l : Layout) (w : SlotWord) (e : Engine) : (afterLinkWord l w e).snap = e.snap := by
  unfold afterLinkWord
  split <;> simp

/-- Every meaning that answers a next state makes one of the moves of `EngineMove`. -/
theorem exec_move (h : exec i s = .next t) : EngineMove i s t := by
  cases i with
  | nop =>
    obtain ⟨e, he, h⟩ := running_next h
    split at h <;> cases h
    exact .finish _
  | wait =>
    obtain ⟨e, he, h⟩ := running_next h
    split at h
    · exact pollRound_move he h (waitEntry_snap e) fun _ => rfl
    · cases h; exact .hold
    · cases h; exact .finish _
    · cases h
  | mode a m =>
    obtain ⟨e, he, h⟩ := running_next h
    split at h
    · exact readStep_move (f := fun c => e.readAt c (if c &&& e.snap.clkMask a = 0 then .gateSet else .modeWrite)) he h (fun _ => rfl)
    · exact writeStep_move he h rfl
    · exact writeStep_move he h (e.enterPoll_snap .single)
    · exact pollRound_move he h rfl (modeMatched_snap m)
    · cases h; exact .hold
    · exact readStep_move (f := fun c => e.readAt c .gateClear) he h (fun _ => rfl)
    · exact writeStep_move he h rfl
    · exact writeStep_move he h rfl
    · cases h; exact .finish _
    · cases h
  | format c l d =>
    obtain ⟨e, he, h⟩ := running_next h
    have hs := formatEntry_snap s.params c l d e
    dsimp only at h
    split at h
    · exact loadStep_move (f := fun v => afterEntry v (formatEntry s.params c l d e)) he h (fun v => (afterEntry_snap v _).trans hs)
    · exact storeStep_move he h ((afterSlotWord_snap _ _ _ _).trans hs)
    · exact storeStep_move he h ((afterLinkWord_snap _ _ _).trans hs)
    · exact storeStep_move he h hs
    · exact writeStep_move he h hs
    · cases h; exact .finish _
    · cases h
  | mdioRd a p v =>
    obtain ⟨e, he, h⟩ := running_next h
    split at h
    · exact writeStep_move he h rfl
    · exact writeStep_move he h (e.enterPoll_snap _)
    · exact pollRound_move he h rfl fun _ => rfl
    · cases h; exact .hold
    · exact writeStep_move he h rfl
    · exact writeStep_move he h (e.enterPoll_snap _)
    · exact pollRound_move he h rfl fun _ => rfl
    · cases h; exact .hold
    · exact readStep_move (f := fun v => e.readAt v .mdioReadAck) he h (fun _ => rfl)
    · exact writeStep_move he h rfl
    · cases h; exact .finish _
    · cases h
  | mdioWr a p v =>
    obtain ⟨e, he, h⟩ := running_next h
    split at h
    · exact writeStep_move he h rfl
    · exact writeStep_move he h (e.enterPoll_snap _)
    · exact pollRound_move he h rfl fun _ => rfl
    · cases h; exact .hold
    · exact writeStep_move he h rfl
    · exact writeStep_move he h (e.enterPoll_snap _)
    · exact pollRound_move he h rfl fun _ => rfl
    · cases h; exact .hold
    · cases h; exact .finish _
    · cases h

end Sys2Proof.Machine
end

