-- ==== Sys2Proof/Laws/Fits.lean ====
section
/-! SUPPORT. What a position that fits its command says (Safety.lean): the checks of VALIDATE, the addresses of FORMAT
in their spaces, and the cases of a poll. -/

namespace Sys2Proof.Machine

variable {s t : State} {e : Engine} {i : Instr} {p : Snapshot} {m : Params} {c : Nat} {l : Layout} {d : Dir}

/-! ## VALIDATE (42 R173) -/

/-- The table of R173, row by row. -/
theorem validate_iff (m : Params) (p : Snapshot) (c : Nat) (l : Layout) (d : Dir) :
    validate m p c l d = true ↔
      2 ≤ p.numRing ∧ c < m.numChains ∧ p.ringBase.toNat % 8 = 0
      ∧ p.ringBase.toNat + p.numRing * slotSize l ≤ 2 ^ 40
      ∧ tableAddr p c + 8 ≤ 2 ^ 40 ∧ controlAddr p c ≤ 0xFFFFFFFC
      ∧ (d = .receive → p.bufTable.toNat % 8 = 0 ∧ p.bufTable.toNat + 8 * (p.numRing - 1) ≤ 2 ^ 40) := by
  unfold validate
  simp only [Bool.and_eq_true, decide_eq_true_eq, and_assoc]
  cases d <;> simp

theorem slotSize_dvd (l : Layout) : 8 ∣ slotSize l := by cases l <;> decide

theorem bdtBase_aligned (u : Setup) : u.bdtBase.toNat % 8 = 0 := by
  unfold Setup.bdtBase
  rw [BitVec.toNat_append]
  simp [Nat.shiftLeft_eq]

/-- A word inside the layout lies inside its slot, aligned. -/
theorem inLayout_iff (w : SlotWord) (l : Layout) :
    w.inLayout l = true ↔ w.offset + 8 ≤ slotSize l ∧ w.offset % 8 = 0 := by
  cases w <;> cases l <;> decide

theorem next_inLayout {w w' : SlotWord} (h : w.next l = some w') : w'.inLayout l = true := by
  revert h
  cases w <;> cases l <;> cases w' <;> decide

/-! ## FORMAT's addresses are addresses of their spaces (20 R76) -/

theorem tableAddr_ok (h : validate m p c l d = true) : memFault (tableAddr p c) = none := by
  rw [validate_iff] at h
  rw [memFault_none_iff]
  have := bdtBase_aligned p.setup
  unfold tableAddr at *
  omega

theorem controlAddr_ok (h : validate m p c l d = true) : regFault (controlAddr p c) = none := by
  rw [validate_iff] at h
  rw [regFault_none_iff]
  unfold controlAddr regAddr at *
  omega

theorem entryAddr_ok {k : Nat} (h : validate m p c l .receive = true) (hk : k + 1 < p.numRing) :
    memFault (entryAddr p k) = none := by
  rw [validate_iff] at h
  rw [memFault_none_iff]
  have := h.2.2.2.2.2.2 rfl
  unfold entryAddr
  omega

theorem slotAddr_ok {k : Nat} {w : SlotWord} (h : validate m p c l d = true) (hk : k < p.numRing)
    (hw : w.inLayout l = true) : memFault (slotAddr p l k + w.offset) = none := by
  rw [validate_iff] at h
  rw [memFault_none_iff]
  rw [inLayout_iff] at hw
  have h1 : (k + 1) * slotSize l ≤ p.numRing * slotSize l := Nat.mul_le_mul_right _ hk
  rw [Nat.add_mul, Nat.one_mul] at h1
  have h2 : k * slotSize l % 8 = 0 := Nat.mod_eq_zero_of_dvd (Dvd.dvd.mul_left (slotSize_dvd l) k)
  unfold slotAddr
  omega

/-- After its checks FORMAT stands past the start, at a position that fits. -/
theorem formatEntry_fits (h : formatFits m c l d e = true) :
    (formatEntry m c l d e).pos ≠ .start ∧ formatFits m c l d (formatEntry m c l d e) = true := by
  unfold formatEntry
  split
  · split
    · rename_i hv
      have hr := ((validate_iff ..).1 hv).1
      cases d
      · simp [slotStart, formatFits, hv]
        omega
      · refine ⟨by simp [slotStart], ?_⟩
        have h0 : SlotWord.header.inLayout l = true := by cases l <;> decide
        simp [slotStart, formatFits, hv, h0]
        omega
    · refine ⟨by simp [Engine.ends], ?_⟩
      simp only [formatFits, Engine.ends]
      decide
  · exact ⟨‹_›, h⟩

/-! ## WAIT's address -/

theorem waitAligned_iff (p : Snapshot) : p.waitAligned = true ↔ p.waitAddr.toNat % 4 = 0 := by
  unfold Snapshot.waitAligned
  rw [beq_iff_eq, ← BitVec.toNat_inj]
  simp

theorem waitAddr_ok (h : p.waitAligned = true) : regFault p.waitAddr.toNat = none := by
  rw [waitAligned_iff] at h
  rw [regFault_none_iff]
  exact ⟨h, p.waitAddr.isLt⟩

/-! ## The cases of a poll (40 R130, R131) -/

theorem polled_cases {P : Engine → Prop} {x : Site} {a k v : Word} {g : Engine → Engine}
    (hit : v &&& a = k → P (g (e.counted v)))
    (again : v &&& a ≠ k → e.n + 1 < e.bound → P ((e.counted v).goto (.pollTick x)))
    (out : v &&& a ≠ k → e.bound ≤ e.n + 1 → P ((e.counted v).ends (timeoutAt x v))) :
    P (e.polled x a k g v) := by
  unfold Engine.polled
  split
  · exact hit ‹_›
  · split
    · exact again ‹_› ‹_›
    · exact out ‹_› (Nat.le_of_not_lt ‹_›)

theorem enterPoll_cases {P : Engine → Prop} {x : Site}
    (poll : 0 < e.bound → P { e with n := 0, last := 0, pos := .pollRead x })
    (out : e.bound = 0 → P { e with n := 0, last := 0, pos := .finish, out := timeoutAt x 0 }) :
    P (e.enterPoll x) := by
  unfold Engine.enterPoll
  split
  · exact poll ‹_›
  · exact out (Nat.eq_zero_of_not_pos ‹_›)

/-- After its check WAIT stands past the start, at a position that fits. -/
theorem waitEntry_fits (h : waitFits e = true) : (waitEntry e).pos ≠ .start ∧ waitFits (waitEntry e) = true := by
  unfold waitEntry
  split
  · split
    · rename_i hal
      refine enterPoll_cases (P := fun f => f.pos ≠ .start ∧ waitFits f = true) (fun hb => ?_) fun hb => ?_
      · refine ⟨by simp, ?_⟩
        simp only [waitFits, hal, Engine.polling, Engine.bound] at *
        simp [hb]
      · exact ⟨by simp, by simp [waitFits, timeoutAt, Completion.among, waitEnds]⟩
    · exact ⟨by simp [Engine.ends], by simp [waitFits, Engine.ends, badArgument, Completion.among, waitEnds]⟩
  · exact ⟨‹_›, h⟩

/-- Without BUS_MAY_ERROR no engine access is answered with an error (60 R243). -/
theorem busFails_of_not_may (h : s.params.busMayError = false) : s.busFails = false := by
  simp [State.busFails, h]

end Sys2Proof.Machine
end

