-- ==== Sys2Proof/Laws/HostPort.lean ====
section
/-! SUPPORT. The host port: where an access lands, what a write leaves alone, and what a read gives. -/

namespace Sys2Proof.Machine

/-! ## Where an access lands -/

/-- What holds of every row of the map and of every offset without a row holds of every offset. -/
theorem csrAt_cases (P : Nat → CsrName → Prop) (rows : ∀ p ∈ csrMap, P p.1 p.2)
    (rest : ∀ off, off ∉ csrMap.map (·.1) → P off .reserved) (off : Nat) : P off (csrAt off) := by
  have key : ∀ l : List (Nat × CsrName), (∀ p ∈ l, P p.1 p.2) → (off ∉ l.map (·.1) → P off .reserved) →
      P off ((Cells.find l off).getD .reserved) := by
    intro l
    induction l with
    | nil => exact fun _ h => h (by simp)
    | cons c l ih =>
      obtain ⟨k, n⟩ := c
      intro h1 h2
      unfold Cells.find
      split
      · rename_i hk
        subst hk
        exact h1 (k, n) (by simp)
      · exact ih (fun p hp => h1 p (by simp [hp])) fun h => h2 (by simp_all [eq_comm])
  exact key csrMap rows (rest off)

/-- An aligned 32-bit access at an offset of the window reaches that offset. -/
theorem portAccess_at (m : Params) {off : Nat} (h : off < 256) (h4 : off % 4 = 0) :
    portAccess m (m.ctrlBase + off) 4 = .at off := by
  unfold portAccess
  rw [if_neg (by omega), if_pos (by simp [h4])]
  simp

/-- The accesses that reach an offset: aligned, 32-bit and inside the window. -/
theorem portAccess_eq_at {m : Params} {addr size off : Nat} (h : portAccess m addr size = .at off) :
    size = 4 ∧ addr = m.ctrlBase + off ∧ off < 256 ∧ off % 4 = 0 := by
  unfold portAccess at h
  split at h
  · cases h
  · split at h
    · cases h
      omega
    · cases h

/-- A CSR stands at the offset of its row alone. -/
theorem csrAt_row {off : Nat} {n : CsrName} (h : csrAt off = n) (hn : n ≠ .reserved) : (off, n) ∈ csrMap :=
  csrAt_cases (fun off n' => n' = n → (off, n) ∈ csrMap) (fun _ hp hpn => hpn ▸ hp)
    (fun _ _ hr => absurd hr.symm hn) off h

/-- Two offsets reach the same CSR only where both are reserved. -/
theorem csrAt_ne {off other : Nat} (hne : other ≠ off) : csrAt off ≠ csrAt other ∨ csrAt other = .reserved := by
  by_cases hr : csrAt other = .reserved
  · exact .inr hr
  · refine .inl fun h => hne ?_
    have rows : ∀ p ∈ csrMap, ∀ q ∈ csrMap, p.2 = q.2 → p.1 = q.1 := by decide
    exact rows _ (csrAt_row rfl hr) _ (csrAt_row h hr) rfl

theorem csrAt_cmd_iff (off : Nat) : csrAt off = .cmd ↔ off = 0x004 :=
  ⟨fun h => by simpa [csrMap, slotMap] using csrAt_row h (by simp), fun h => by subst h; rfl⟩

theorem csrAt_status_iff (off : Nat) : csrAt off = .status ↔ off = 0x008 :=
  ⟨fun h => by simpa [csrMap, slotMap] using csrAt_row h (by simp), fun h => by subst h; rfl⟩

theorem csrAt_irqEn_iff (off : Nat) : csrAt off = .irqEn ↔ off = 0x010 :=
  ⟨fun h => by simpa [csrMap, slotMap] using csrAt_row h (by simp), fun h => by subst h; rfl⟩

/-! ## What a write leaves alone -/

/-- Parameters, environment, schedule and the host's answer are no CSR. -/
theorem writeCsr_rest (n : CsrName) (w : Word) (s : State) :
    (writeCsr n w s).params = s.params ∧ (writeCsr n w s).env = s.env ∧ (writeCsr n w s).inputs = s.inputs
      ∧ (writeCsr n w s).host = s.host := by
  unfold writeCsr
  split
  · unfold writeCmd accept
    split <;> simp
  · simp
  · simp
  · split <;> simp

@[simp] theorem writeCsr_params (n : CsrName) (w : Word) (s : State) : (writeCsr n w s).params = s.params :=
  (writeCsr_rest n w s).1
@[simp] theorem writeCsr_env (n : CsrName) (w : Word) (s : State) : (writeCsr n w s).env = s.env :=
  (writeCsr_rest n w s).2.1
@[simp] theorem writeCsr_inputs (n : CsrName) (w : Word) (s : State) : (writeCsr n w s).inputs = s.inputs :=
  (writeCsr_rest n w s).2.2.1
@[simp] theorem writeCsr_host (n : CsrName) (w : Word) (s : State) : (writeCsr n w s).host = s.host :=
  (writeCsr_rest n w s).2.2.2

/-- A running command is what it was after any CSR write (R41, R241). -/
theorem writeCsr_engine (n : CsrName) (w : Word) (s : State) (h : n ≠ .cmd ∨ s.engine.isSome) :
    (writeCsr n w s).engine = s.engine := by
  unfold writeCsr
  split
  · unfold writeCmd
    split <;> simp_all
  · rfl
  · rfl
  · split <;> rfl

/-- What each kind of CSR write does to the CSRs. -/
theorem writeCsr_csr (n : CsrName) (w : Word) (s : State) :
    (n = .cmd ∧ s.engine = none ∧ (writeCsr n w s).csr = s.csr.accept w)
      ∨ (n = .cmd ∧ s.engine ≠ none ∧ (writeCsr n w s).csr = s.csr.overran)
      ∨ (n = .status ∧ (writeCsr n w s).csr = s.csr.writeStatus w)
      ∨ (n = .irqEn ∧ (writeCsr n w s).csr = { s.csr with doneIe := w.getLsbD 0 })
      ∨ (n ≠ .cmd ∧ ∃ u, (writeCsr n w s).csr = { s.csr with setup := u }) := by
  unfold writeCsr
  split
  · unfold writeCmd
    split <;> simp_all
  · simp
  · simp
  · split
    · exact .inr (.inr (.inr (.inr ⟨by simp_all, _, rfl⟩)))
    · exact .inr (.inr (.inr (.inr ⟨by simp_all, s.csr.setup, rfl⟩)))

/-! ## What a read gives -/

/-- A CSR's value depends on the CSRs and on BUSY alone. -/
theorem readCsr_congr (n : CsrName) {s t : State} (h : t.csr = s.csr) (hb : t.engine.isSome = s.engine.isSome) :
    readCsr n t = readCsr n s := by
  cases n <;> simp [readCsr, State.statusWord, State.busy, h, hb]

/-- Bits 31:2 are stored, bits 1:0 read 0 (R26). -/
theorem addrView_addrBits (w : Word) : addrView (addrBits w) = w &&& 0xFFFFFFFC := by
  apply BitVec.eq_of_getLsbD_eq
  intro i hi
  simp only [addrView, addrBits, BitVec.getLsbD_append, BitVec.getLsbD_extractLsb']
  interval_cases i <;> simp

/-- Bits 31:3 are stored, bits 2:0 read 0 (R36). -/
theorem lowView_lowBits (w : Word) : w.extractLsb' 3 29 ++ 0#3 = w &&& 0xFFFFFFF8 := by
  apply BitVec.eq_of_getLsbD_eq
  intro i hi
  simp only [BitVec.getLsbD_append, BitVec.getLsbD_extractLsb']
  interval_cases i <;> simp

/-- Bits 7:0 are stored, bits 31:8 read 0 (R36). -/
theorem highView_highBits (w : Word) : (w.extractLsb' 0 8).setWidth 32 = w &&& 0x000000FF := by
  apply BitVec.eq_of_getLsbD_eq
  intro i hi
  interval_cases i <;> simp

/-- Bits 4:0 are stored, bits 31:5 read 0 (R38). -/
theorem bitView_bitBits (w : Word) : (w.extractLsb' 0 5).setWidth 32 = w &&& 0x0000001F := by
  apply BitVec.eq_of_getLsbD_eq
  intro i hi
  interval_cases i <;> simp

/-! ## One CSR leaves every other alone (R44) -/

theorem Setup.agt_mapAgt (u : Setup) (a b : Slot) (f : AgentRegs → AgentRegs) :
    (u.mapAgt a f).agt b = if a = b then f (u.agt b) else u.agt b := by
  cases a <;> cases b <;> rfl

@[simp] theorem Setup.mapAgt_timeout (u : Setup) (a : Slot) (f : AgentRegs → AgentRegs) :
    (u.mapAgt a f).timeout = u.timeout := by cases a <;> rfl
@[simp] theorem Setup.mapAgt_clkenAddr (u : Setup) (a : Slot) (f : AgentRegs → AgentRegs) :
    (u.mapAgt a f).clkenAddr = u.clkenAddr := by cases a <;> rfl
@[simp] theorem Setup.mapAgt_clkdisAddr (u : Setup) (a : Slot) (f : AgentRegs → AgentRegs) :
    (u.mapAgt a f).clkdisAddr = u.clkdisAddr := by cases a <;> rfl
@[simp] theorem Setup.mapAgt_bdtBaseLo (u : Setup) (a : Slot) (f : AgentRegs → AgentRegs) :
    (u.mapAgt a f).bdtBaseLo = u.bdtBaseLo := by cases a <;> rfl
@[simp] theorem Setup.mapAgt_bdtBaseHi (u : Setup) (a : Slot) (f : AgentRegs → AgentRegs) :
    (u.mapAgt a f).bdtBaseHi = u.bdtBaseHi := by cases a <;> rfl
@[simp] theorem Setup.mapAgt_chainCtrlBase (u : Setup) (a : Slot) (f : AgentRegs → AgentRegs) :
    (u.mapAgt a f).chainCtrlBase = u.chainCtrlBase := by cases a <;> rfl
@[simp] theorem Setup.mapAgt_args (u : Setup) (a : Slot) (f : AgentRegs → AgentRegs) :
    (u.mapAgt a f).args = u.args := by cases a <;> rfl

theorem ArgFile.get_set (f : ArgFile) (j k : Fin 8) (w : Word) :
    (f.set j w).get k = if j = k then w else f.get k := by
  fin_cases j <;> fin_cases k <;> rfl

/-- A write to a CSR of the setup group changes what no other CSR reads. -/
theorem readCsr_setup_write (s : State) (n m : CsrName) (w : Word) (u : Setup) (hn : n ≠ m)
    (h : s.csr.setup.write n w = some u) : readCsr m { s with csr := { s.csr with setup := u } } = readCsr m s := by
  cases n <;> simp only [Setup.write, Option.some.injEq, reduceCtorEq] at h <;> subst h <;> cases m <;>
    simp_all [readCsr, State.statusWord, State.busy, Csrs.irqEnWord, Csrs.agtState, Setup.agt_mapAgt, ArgFile.get_set]
  all_goals first | (split <;> simp_all) | (rename_i a; cases a <;> rfl)

/-- A host write to one CSR, CMD apart, leaves what every other CSR reads. -/
theorem readCsr_writeCsr_other (s : State) (n m : CsrName) (w : Word) (hc : n ≠ .cmd) (hn : n ≠ m) :
    readCsr m (writeCsr n w s) = readCsr m s := by
  unfold writeCsr
  split
  · exact absurd rfl hc
  · cases m <;> first | rfl | exact absurd rfl hn
  · cases m <;> first | rfl | exact absurd rfl hn
  · split
    · exact readCsr_setup_write s n m w _ hn ‹_›
    · rfl

end Sys2Proof.Machine
end

