-- ==== Sys2Proof/Laws/PerInstr.lean ====
section
/-! SUPPORT. Per instruction: the command word the encoder gives is selected by the instruction's own row of the
mask and match table (30_encoding.md R103, R117). -/

namespace Sys2Proof.Laws.EncodeSelectsRow

/-- The row of R103's table an instruction belongs to. -/
def row : Instr → OpcodeRow
  | .nop => rowNop
  | .wait => rowWait
  | .mode _ _ => rowMode
  | .format _ _ _ => rowFormat
  | .mdioRd _ _ _ => rowMdioRd
  | .mdioWr _ _ _ => rowMdioWr

/-- A well-formed instruction's command word is one its row selects. -/
def Statement (i : Instr) : Prop := WellFormed i → (row i).selects (encode i) = true

/-- A number that fits n bits is the zero extension of its low n bits. -/
theorem ofNat_of_fits {n v : Nat} (hn : n ≤ 32) (h : v < 2 ^ n) :
    BitVec.ofNat 32 v = (BitVec.ofNat n v).setWidth 32 := by
  apply BitVec.eq_of_toNat_eq
  have h32 : 2 ^ n ≤ 2 ^ 32 := Nat.pow_le_pow_right (by decide) hn
  rw [BitVec.toNat_ofNat, BitVec.toNat_setWidth, BitVec.toNat_ofNat, Nat.mod_eq_of_lt h,
    Nat.mod_eq_of_lt (lt_of_lt_of_le h h32)]

theorem nop : Statement .nop := fun _ => by decide

theorem wait : Statement .wait := fun _ => by decide

theorem mode (a : Slot) (t : AgentMode) : Statement (.mode a t) := fun _ => by
  cases a <;> cases t <;> decide

theorem format (c : Nat) (l : Layout) (d : Dir) : Statement (.format c l d) := fun h => by
  have hc : c < 2 ^ 8 := by simpa [WellFormed, wellFormed, chainFits, Nat.lt_succ_iff] using h
  simp only [row, OpcodeRow.selects, rowFormat, encode, beq_iff_eq, ofNat_of_fits (by decide) hc]
  apply BitVec.eq_of_getLsbD_eq
  intro i hi
  cases l <;> cases d <;> interval_cases i <;> simp [Layout.bits, Dir.bits]

/-- The two MDIO rows differ in the opcode alone. -/
theorem mdioWord (k : Word) (hk : k = 4 ∨ k = 5) (a : Slot) (x y : BitVec 5) :
    (k ||| (a.bits <<< 8) ||| (x.setWidth 32 <<< 16) ||| (y.setWidth 32 <<< 24)) &&& 0xE0E0FEFF = k := by
  apply BitVec.eq_of_getLsbD_eq
  intro i hi
  rcases hk with rfl | rfl <;> cases a <;> interval_cases i <;> simp [Slot.bits]

theorem mdioFits {p v : Nat} (h : decide (phyFits p ∧ devFits v) = true) : p < 2 ^ 5 ∧ v < 2 ^ 5 := by
  simp only [phyFits, devFits, decide_eq_true_eq] at h
  omega

theorem mdioRd (a : Slot) (p v : Nat) : Statement (.mdioRd a p v) := fun h => by
  have hp := mdioFits h
  simp only [row, OpcodeRow.selects, rowMdioRd, encode, beq_iff_eq, ofNat_of_fits (by decide) hp.1,
    ofNat_of_fits (by decide) hp.2]
  exact mdioWord 4 (.inl rfl) a _ _

theorem mdioWr (a : Slot) (p v : Nat) : Statement (.mdioWr a p v) := fun h => by
  have hp := mdioFits h
  simp only [row, OpcodeRow.selects, rowMdioWr, encode, beq_iff_eq, ofNat_of_fits (by decide) hp.1,
    ofNat_of_fits (by decide) hp.2]
  exact mdioWord 5 (.inr rfl) a _ _

end Sys2Proof.Laws.EncodeSelectsRow
end

