-- ==== Sys2Proof/Laws/Step.lean ====
section
/-! SUPPORT. What one step of each agent can do: the engine, the host, the environment, the tick, the reset. -/

namespace Sys2Proof.Machine

variable {s t : State} {e : Engine}

/-! ## A step of the engine -/

theorem engineStep_idle (he : s.engine = none) (h : engineStep s = .next t) : t = s := by
  simp only [engineStep, he] at h
  cases h
  rfl

theorem engineStep_busy (he : s.engine = some e) (h : engineStep s = .next t) :
    (∃ x, decode e.snap.cmd = .error x ∧ t = finish none illegalCommand s)
      ∨ ∃ i, decode e.snap.cmd = .ok i ∧ exec i s = .next t := by
  simp only [engineStep, he] at h
  split at h
  · cases h
    exact .inl ⟨_, ‹_›, rfl⟩
  · exact .inr ⟨_, ‹_›, h⟩

/-- A meaning answers a next state only while a command runs. -/
theorem exec_running {i : Instr} (h : exec i s = .next t) : ∃ e, s.engine = some e := by
  cases i <;> exact (running_next h).imp fun _ hk => hk.1

/-- What no engine step changes, and what it can do to the rest. -/
theorem engineStep_frame (h : engineStep s = .next t) :
    t.params = s.params ∧ t.inputs = s.inputs ∧ t.host = s.host ∧ t.csr.setup = s.csr.setup ∧ t.csr.cmd = s.csr.cmd
      ∧ t.csr.doneIe = s.csr.doneIe ∧ t.csr.overrun = s.csr.overrun
      ∧ ((t.csr.done = s.csr.done ∧ t.engine.isSome = s.engine.isSome
            ∧ ∀ e e', s.engine = some e → t.engine = some e' → e'.snap = e.snap)
          ∨ (s.engine.isSome ∧ t.engine = none ∧ t.csr.done = true)) := by
  cases he : s.engine with
  | none =>
    obtain rfl := engineStep_idle he h
    simp [he]
  | some e =>
    rcases engineStep_busy he h with ⟨x, -, rfl⟩ | ⟨i, -, h⟩
    · simp
    · cases exec_move h with
      | hold => simp [he]
      | finish k => simp
      | busError hb => simp
      | access e1 e2 x c hb h1 h2 h3 =>
        obtain rfl : e = e1 := Option.some.inj (he.symm.trans h1)
        rcases h3 with rfl | rfl <;> simp [h2]

/-! ## A step of any agent -/

/-- What a host write of the window does, beside the host's answer. -/
theorem hostWrite_cases (addr size : Nat) (w : Word) (s : State) :
    (∃ r, hostWrite addr size w s = { s with host := r })
      ∨ ∃ off, size = 4 ∧ addr = s.params.ctrlBase + off ∧ off < 256 ∧ off % 4 = 0
          ∧ hostWrite addr size w s = { writeCsr (csrAt off) w s with host := .none } := by
  unfold hostWrite
  split
  · exact .inl ⟨_, rfl⟩
  · exact .inl ⟨_, rfl⟩
  · rename_i off h
    obtain ⟨h1, h2, h3, h4⟩ := portAccess_eq_at h
    exact .inr ⟨off, h1, h2, h3, h4, rfl⟩

/-- What a host read does: the host's answer alone. -/
theorem hostRead_frame (addr size : Nat) (s : State) : ∃ r, hostRead addr size s = { s with host := r } := by
  unfold hostRead
  split <;> exact ⟨_, rfl⟩

/-- What the host's access to a target and the environment's change of one can do. -/
theorem hostTarget_frame {x : TargetAccess} (h : hostTarget x s = .next t) :
    t.params = s.params ∧ t.csr = s.csr ∧ t.engine = s.engine ∧ t.inputs = s.inputs := by
  unfold hostTarget at h
  split at h <;> split at h <;> cases h <;> simp

theorem environment_frame {x : TargetChange} (h : environment x s = .next t) :
    t.params = s.params ∧ t.csr = s.csr ∧ t.engine = s.engine ∧ t.inputs = s.inputs ∧ t.host = s.host := by
  unfold environment at h
  split at h <;> split at h <;> cases h <;> simp

/-- Every step is one of these. -/
theorem step_cases (h : step s = .next t) :
    (s.inputs = [] ∧ engineStep s = .next t)
      ∨ ∃ x rest, s.inputs = x :: rest ∧ eventStep x { s with inputs := rest } = .next t := by
  unfold step at h
  split at h
  · exact .inl ⟨‹_›, h⟩
  · exact .inr ⟨_, _, ‹_›, h⟩

/-! ## Runs -/

/-- A run takes the first event scheduled. -/
theorem run_event {x : Event} {l : List Event} {k : Nat} (h : eventStep x { s with inputs := l } = .next t) :
    Host.Core.run Sys2Proof.core (k + 1) { s with inputs := x :: l } = Host.Core.run Sys2Proof.core k t := by
  have hs : step { s with inputs := x :: l } = .next t := h
  simp only [Host.Core.run, core, hs]

/-- At the engine's turn a run takes the running command's step. -/
theorem run_engine {i : Instr} {l : List Event} {k : Nat} (he : s.engine = some e) (hd : decode e.snap.cmd = .ok i)
    (h : exec i s = .next t) :
    Host.Core.run Sys2Proof.core (k + 1) { s with inputs := .engine :: l }
      = Host.Core.run Sys2Proof.core k { t with inputs := l } := by
  apply run_event
  rw [← exec_inputs l h]
  simp only [eventStep, engineStep, he, hd]

/-- A tick in a run. -/
theorem run_tick {l : List Event} {k : Nat} (he : s.engine = some e) :
    Host.Core.run Sys2Proof.core (k + 1) { s with inputs := .tick :: l }
      = Host.Core.run Sys2Proof.core k { s with engine := some e.ticked, inputs := l } := by
  apply run_event
  simp only [eventStep, tick, he, State.setEngine]

end Sys2Proof.Machine
end

