-- ==== Sys2Proof/Tests/Slice0.lean ====
section
/-! SUPPORT. The model's own tests: ill-formed terms refused, words of the encoding table decoded, one step of every
command with the values of 95_test_vectors.md, and a witness for the hypotheses of every statement. -/

open Sys2Proof Sys2Proof.Machine

namespace Sys2Proof.Tests

/-! ## Small states in the common test environment of 95 section 0 -/

def params : Params := { ctrlBase := 0x40000000, numChains := 4, busMayError := false }

def errorParams : Params := { params with busMayError := true }

/-- AGT0 of section 0: 0x1000, 0x1004, mask 3, bit 0, 0x1010, 0x1014. -/
def etha : AgentRegs :=
  { mcAddr := 0x400, msAddr := 0x401, msMask := 0x3, clkBit := 0, mdioAccAddr := 0x404, mdioStsAddr := 0x405 }

/-- AGT1 of section 0: 0x2000, 0x2004, mask 3, bit 4, 0x2010, 0x2014. -/
def gwca : AgentRegs :=
  { mcAddr := 0x800, msAddr := 0x801, msMask := 0x3, clkBit := 4, mdioAccAddr := 0x804, mdioStsAddr := 0x805 }

/-- ARG0-ARG5. -/
def args (a0 a1 a2 a3 a4 a5 : Word) : ArgFile := { ArgFile.reset with
  arg0 := a0, arg1 := a1, arg2 := a2, arg3 := a3, arg4 := a4, arg5 := a5 }

/-- The CSRs of section 0: CLKEN 0x100, BDT 0x80000, CHAIN_CTRL_BASE 0x3000. -/
def setup (t : Word) (a : ArgFile) : Setup :=
  { timeout := t, clkenAddr := 0x40, clkdisAddr := 0, bdtBaseLo := 0x10000, bdtBaseHi := 0, chainCtrlBase := 0xC00,
    agt0 := etha, agt1 := gwca, args := a }

/-- WAIT for bits 1:0 of 0x1000 to be 2 (95 W1). -/
def waitArgs : ArgFile := args 0x1000 0x3 0x2 0 0 0

/-- 95 F1. -/
def txArgs : ArgFile := args 0x34567800 0x12 0 0 4 0

/-- 95 F2. -/
def rxArgs : ArgFile := args 0x00100000 0 0x00200000 0 2 0x0600

/-- 95 MD1, MD6. -/
def mdioArgs : ArgFile := args 0xC04A 0x1234 0 0 0 0

/-- An accepted command at a position. -/
def engineAt (w : Word) (u : Setup) (p : Pos) : Engine := { Engine.accepted w u with pos := p }

def stateOf (m : Params) (u : Setup) (e : Option Engine) (answers : List Answer) (inputs : List Event) : State :=
  { params := m, csr := { Csrs.reset with setup := u }, engine := e
    env := { Env.reset with answers := answers }, host := .none, inputs := inputs }

/-- BUSY with an engine; the answers are read values. -/
def busyAt (e : Engine) (vs : List Dword) : State := stateOf params e.snap.setup (some e) (scripted vs) []

/-- IDLE with events scheduled. -/
def idleWith (inputs : List Event) : State := stateOf params (setup 1000 waitArgs) none [] inputs

def waitAt (p : Pos) : Engine := engineAt 0x1 (setup 1000 waitArgs) p
def modeAt (p : Pos) : Engine := engineAt 0x122 (setup 1000 waitArgs) p
def disableAt (p : Pos) : Engine := engineAt 0x112 (setup 1000 waitArgs) p
def txAt (p : Pos) : Engine := engineAt 0x00010013 (setup 1000 txArgs) p
def rxAt (p : Pos) : Engine := engineAt 0x00000023 (setup 1000 rxArgs) p
def rdAt (p : Pos) : Engine := engineAt 0x01000004 (setup 1000 mdioArgs) p
def wrAt (p : Pos) : Engine := engineAt 0x07030105 (setup 1000 mdioArgs) p
def nopAt (p : Pos) : Engine := engineAt 0x0 (setup 1000 waitArgs) p

abbrev Out := Host.Outcome State Fault Refusal

def isNext : Out → Bool
  | .next _ => true
  | .fault _ => false
  | .refused _ => false

/-- The state after an outcome that is a next state. -/
def after : Out → State
  | .next t => t
  | .fault _ => State.reset
  | .refused _ => State.reset

theorem next_after {o : Out} (h : isNext o = true) : o = .next (after o) := by
  cases o with
  | next _ => rfl
  | fault _ => cases h
  | refused _ => cases h

/-- The last access of a step. -/
def lastAccess (o : Out) : Option (Master × Access) := (after o).env.history.head?

/-- Where the engine stands after a step. -/
def posAfter (o : Out) : Option Pos := (after o).engine.map Engine.pos

/-! ## WellFormed refuses operands that do not fit (30 R117) -/

theorem test_chain_256_refused : ¬WellFormed (.format 256 .plain .transmit) := by decide
theorem test_phy_32_refused : ¬WellFormed (.mdioRd .zero 32 1) ∧ ¬WellFormed (.mdioWr .zero 32 1) := by decide
theorem test_dev_32_refused : ¬WellFormed (.mdioRd .one 0 32) ∧ ¬WellFormed (.mdioWr .one 0 32) := by decide

/-! ## Decoding: the words of 95 L2.7, and the words of L2.2 that select no command -/

theorem test_decode_nop : decode 0x00000000 = .ok .nop := rfl
theorem test_decode_wait : decode 0x00000001 = .ok .wait := rfl
theorem test_decode_mode :
    decode 0x00000002 = .ok (.mode .zero .reset) ∧ decode 0x00000012 = .ok (.mode .zero .disable)
    ∧ decode 0x00000122 = .ok (.mode .one .config) ∧ decode 0x00000132 = .ok (.mode .one .operation) :=
  ⟨rfl, rfl, rfl, rfl⟩
theorem test_decode_format :
    decode 0x00000003 = .ok (.format 0 .plain .receive) ∧ decode 0x00000023 = .ok (.format 0 .timestamped .receive)
    ∧ decode 0x00010013 = .ok (.format 1 .plain .transmit)
    ∧ decode 0x00FF0033 = .ok (.format 255 .timestamped .transmit) := ⟨rfl, rfl, rfl, rfl⟩
theorem test_decode_mdio_rd :
    decode 0x01000004 = .ok (.mdioRd .zero 0 1) ∧ decode 0x1F1F0104 = .ok (.mdioRd .one 31 31) := ⟨rfl, rfl⟩
theorem test_decode_mdio_wr :
    decode 0x01000005 = .ok (.mdioWr .zero 0 1) ∧ decode 0x07030105 = .ok (.mdioWr .one 3 7) := ⟨rfl, rfl⟩

/-- N2, N3. -/
theorem test_reserved_opcodes : decode 0x6 = .error .reservedOpcode ∧ decode 0xF = .error .reservedOpcode := ⟨rfl, rfl⟩

/-- N4-N10. -/
theorem test_reserved_bits :
    decode 0x00000011 = .error .reservedBit ∧ decode 0x80000002 = .error .reservedBit
    ∧ decode 0x00000202 = .error .reservedBit ∧ decode 0x00000043 = .error .reservedBit
    ∧ decode 0x00010103 = .error .reservedBit ∧ decode 0x00200004 = .error .reservedBit
    ∧ decode 0x20000005 = .error .reservedBit := ⟨rfl, rfl, rfl, rfl, rfl, rfl, rfl⟩

theorem test_encode :
    encode (.mode .one .operation) = 0x132 ∧ encode (.format 255 .timestamped .transmit) = 0x00FF0033
    ∧ encode (.mdioRd .one 31 31) = 0x1F1F0104 ∧ encode (.mdioWr .one 3 7) = 0x07030105 := by decide

theorem test_decode_table_word :
    decodeTableWord 32 0x00010033 = some (.format 1 .timestamped .transmit) ∧ decodeTableWord 32 0x6 = none := ⟨rfl, rfl⟩

/-! ## The words the controller writes -/

/-- 43 worked values, 95 MD1, MD2, MD5, MD6. -/
theorem test_mdio_words :
    addrWord 0 1 0xC04A = 0xC04A0105 ∧ readWord 0 1 = 0x00006105 ∧ writeWord 0 1 0x8000 = 0x80002105
    ∧ addrWord 31 31 0xFFFF = 0xFFFF1FFD ∧ readWord 31 31 = 0x00007FFD ∧ writeWord 3 7 0x1234 = 0x1234271D := by decide

/-- 20 R84: FEMPTY with interrupt, EEMPTY with interrupt, LINKFIX. -/
theorem test_die_dt : dieDt .fempty true = 0x41 ∧ dieDt .eempty true = 0xD1 ∧ dieDt .linkfix false = 0x00 := by decide

/-- 95 F1, F2, F20. -/
theorem test_headers :
    header 0 0x00 0x1234567800 = 0x3456780012000000 ∧ header 0x0600 0x41 0x300000 = 0x0030000000410600
    ∧ header 0x0600 0x41 0xFFFFFFFFF8 = 0xFFFFFFF8FF410600 := by decide

/-- 95 F1-F4. -/
theorem test_control_words :
    controlWord .transmit .plain = 0x01000900 ∧ controlWord .receive .timestamped = 0x01000300
    ∧ controlWord .receive .plain = 0x01000100 ∧ controlWord .transmit .timestamped = 0x01000B00 := by decide

/-! ## One step of every command -/

/-- 95 N1. -/
theorem test_nop_status :
    (after (exec .nop (busyAt (nopAt .start) []))).statusWord = 0x2
    ∧ (after (exec .nop (busyAt (nopAt .start) []))).csr.result = 0 := by decide

/-- 95 W9. -/
theorem test_wait_misaligned :
    (after (exec .wait (busyAt (engineAt 0x1 (setup 1000 (args 0x1002 3 2 0 0 0)) .start) []))).statusWord = 0x36 := by
  decide

/-- 95 W1, the second read. -/
theorem test_wait_match :
    (after (exec .wait (busyAt { waitAt (.pollRead .single) with n := 1 } [0x6]))).engine.map Engine.out
        = some (okWith 0x6)
    ∧ lastAccess (exec .wait (busyAt { waitAt (.pollRead .single) with n := 1 } [0x6]))
        = some (.engine, .r32 0x1000 0x6) := by decide

/-- 95 M1: the clock bit of slot 1 is bit 4. -/
theorem test_mode_sets_clock :
    lastAccess (exec (.mode .one .config) (busyAt { modeAt .gateSet with read := 0x0 } [0]))
      = some (.engine, .w32 0x100 0x10) := by decide

/-- 95 M4: bit 4 cleared, bit 0 kept. -/
theorem test_mode_clears_clock :
    lastAccess (exec (.mode .one .disable) (busyAt { disableAt .gateClear with read := 0x11 } [0]))
      = some (.engine, .w32 0x100 0x01) := by decide

/-- 95 F1, the first word and its byte order. -/
theorem test_format_first_word :
    lastAccess (exec (.format 1 .plain .transmit) (busyAt (txAt .start) [0]))
        = some (.engine, .memWrite 0x1234567800 0x0000000000D10000)
    ∧ Memory.byte (after (exec (.format 1 .plain .transmit) (busyAt (txAt .start) [0]))).env.mem 0x1234567802
        = some 0xD1 := by decide

/-- 95 F1, the table entry; F8, a chain the table does not have. -/
theorem test_format_table_and_bad_chain :
    lastAccess (exec (.format 1 .plain .transmit) (busyAt (txAt .table) [0]))
        = some (.engine, .memWrite 0x0000080008 0x3456780012000000)
    ∧ (after (exec (.format 4 .plain .transmit) (busyAt (engineAt 0x00040013 (setup 1000 txArgs) .start) []))).statusWord
        = 0x36 := by decide

/-- 95 MD1, step 2. -/
theorem test_mdio_rd_address :
    lastAccess (exec (.mdioRd .zero 0 1) (busyAt (rdAt .mdioAddress) [0]))
      = some (.engine, .w32 0x1010 0xC04A0105) := by decide

/-- 95 MD1, step 5: the staged value 0xBEEF6105. -/
theorem test_mdio_rd_result :
    (after (exec (.mdioRd .zero 0 1) (busyAt { rdAt .mdioReadAck with read := 0xBEEF6105 } [0]))).engine.map Engine.out
        = some (okWith 0x0000BEEF)
    ∧ lastAccess (exec (.mdioRd .zero 0 1) (busyAt { rdAt .mdioReadAck with read := 0xBEEF6105 } [0]))
        = some (.engine, .w32 0x1014 0x1) := by decide

/-- 95 MD6, step 4. -/
theorem test_mdio_wr_op :
    lastAccess (exec (.mdioWr .one 3 7) (busyAt (wrAt .mdioOp) [0])) = some (.engine, .w32 0x2010 0x1234271D) := by decide

/-- 95 MD11: read-complete does not end a write's op phase. -/
theorem test_mdio_wr_ignores_read_complete :
    posAfter (exec (.mdioWr .one 3 7) (busyAt (wrAt (.pollRead .op)) [0x1])) = some (.pollTick .op) := by decide

/-! ## The host port -/

/-- 95 S3, S4, S6 and 10 R27. -/
theorem test_csrs :
    readCsr .bdtBaseLo (writeCsr .bdtBaseLo 0xFFFFFFFF (idleWith [])) = 0xFFFFFFF8
    ∧ readCsr .bdtBaseHi (writeCsr .bdtBaseHi 0xFFFFFFFF (idleWith [])) = 0x000000FF
    ∧ readCsr (csrAt 0x06C) (writeCsr (csrAt 0x06C) 0xFFFFFFFF (idleWith [])) = 0x0000001F
    ∧ (hostRead 0x40000014 2 (idleWith [])).host = .slaveError
    ∧ (hostRead 0x40000000 4 (idleWith [])).host = .word 0x4D433435 := by decide

/-- 95 M1, M6: AGT1_STATE as the host reads it after OK and after a failure in CONFIG. -/
theorem test_agent_state_word :
    AgentShadow.word { mode := .config, valid := true } = 0x80000002
    ∧ AgentShadow.word { mode := .config, valid := false } = 0x00000002 := by decide

/-- 95 S7: CODE is kept, DONE and ERR cleared. -/
theorem test_status_write :
    (writeCsr .status 0xE (after (engineStep (busyAt (engineAt 0x6 (setup 1000 waitArgs) .start) [])))).statusWord
      = 0x20 := by decide

/-- 95 N11: the second CMD write. -/
theorem test_overrun : (hostWrite 0x40000004 4 0x0 (busyAt (waitAt (.pollTick .single)) [])).statusWord = 0x9 := by decide

/-- 95 W10: a bus error on the first read. -/
theorem test_bus_error :
    (after (exec .wait (stateOf errorParams (setup 2 waitArgs) (some (engineAt 0x1 (setup 2 waitArgs) .start))
        [{ error := true, data := none }] []))).statusWord = 0x46 := by decide

/-! ## Witnesses: states and operands that meet the hypotheses of each statement together -/

theorem witness_DecodeEncodeRoundTrip :
    WellFormed (.format 255 .timestamped .receive) ∧ WellFormed (.mdioRd .one 31 31) ∧ WellFormed (.mdioWr .one 0 31)
    ∧ WellFormed (.mode .one .operation) ∧ WellFormed .nop ∧ WellFormed .wait := by decide

theorem witness_EncodeDecodeRoundTrip : decode 0x1F1F0105 = .ok (.mdioWr .one 31 31) := rfl

/-- One word a clause, every field at its largest value. -/
theorem witness_DecodeReadsEachFieldInItsPlace :
    decode 0x00000132 = .ok (.mode .one .operation) ∧ decode 0x00FF0033 = .ok (.format 255 .timestamped .transmit)
    ∧ decode 0x1F1F0104 = .ok (.mdioRd .one 31 31) ∧ decode 0x1F1F0105 = .ok (.mdioWr .one 31 31) := ⟨rfl, rfl, rfl, rfl⟩

/-- The step's clause, with the reserved bit of 95 N4 (the word clauses have no hypotheses). -/
theorem witness_UnselectedWordFinishesIllegal :
    (busyAt (engineAt 0x11 (setup 1000 waitArgs) .start) []).engine = some (engineAt 0x11 (setup 1000 waitArgs) .start)
    ∧ (busyAt (engineAt 0x11 (setup 1000 waitArgs) .start) []).inputs = []
    ∧ decode (engineAt 0x11 (setup 1000 waitArgs) .start).snap.cmd = .error .reservedBit := ⟨rfl, rfl, rfl⟩

theorem witness_StepRunsTheDecodedCommand :
    ((busyAt (waitAt .start) []).engine = some (waitAt .start) ∧ decode (waitAt .start).snap.cmd = .ok .wait
      ∧ (busyAt (waitAt .start) []).inputs = [])
    ∧ ((stateOf params (setup 1000 waitArgs) (some (waitAt .start)) [] [.engine, .tick]).engine = some (waitAt .start)
      ∧ (stateOf params (setup 1000 waitArgs) (some (waitAt .start)) [] [.engine, .tick]).inputs = .engine :: [.tick])
    ∧ decode (BitVec.ofNat 32 0x00010013) = .ok (.format 1 .plain .transmit)
    ∧ ((idleWith []).engine = none ∧ (idleWith []).inputs = [])
    ∧ ((idleWith [.engine]).engine = none ∧ (idleWith [.engine]).inputs = .engine :: []) := by
  refine ⟨⟨rfl, rfl, rfl⟩, ⟨rfl, rfl⟩, rfl, ⟨rfl, rfl⟩, ⟨rfl, rfl⟩⟩

/-- In the middle of a FORMAT. -/
theorem witness_ResetPutsEveryCsrAtItsResetValue :
    (stateOf params (setup 1000 txArgs) (some (txAt (.slot .extension))) [] [.reset]).inputs = .reset :: [] := rfl

theorem witness_CmdWriteWhileIdleStartsTheCommand :
    (idleWith [.hostWrite 0x40000004 4 0x1]).engine = none
    ∧ (idleWith [.hostWrite 0x40000004 4 0x1]).inputs
      = .hostWrite ((idleWith [.hostWrite 0x40000004 4 0x1]).params.ctrlBase + 0x004) 4 0x1 :: []
    ∧ decode 0x1 = .ok .wait := ⟨rfl, rfl, rfl⟩

/-- BUSY, with events scheduled. -/
def busyWith (e : Engine) (inputs : List Event) : State := stateOf params e.snap.setup (some e) [] inputs

theorem witness_CmdWriteWhileBusyOnlySetsOverrun :
    (busyWith (waitAt (.pollTick .single)) [.hostWrite 0x40000004 4 0x0]).engine = some (waitAt (.pollTick .single))
    ∧ (busyWith (waitAt (.pollTick .single)) [.hostWrite 0x40000004 4 0x0]).inputs
      = .hostWrite (params.ctrlBase + 0x004) 4 0x0 :: [] := ⟨rfl, rfl⟩

/-- The first, a middle and the last row of the list. -/
theorem witness_HostReadsBackTheWritableBits :
    ∀ p : Nat × Word, p = (0x010, 0x00000001) ∨ p = (0x028, 0x000000FF) ∨ p = (0x09C, 0xFFFFFFFF) →
      p ∈ ([(0x010, 0x00000001), (0x014, 0xFFFFFFFF), (0x01C, 0xFFFFFFFC), (0x020, 0xFFFFFFFC), (0x024, 0xFFFFFFF8),
       (0x028, 0x000000FF), (0x02C, 0xFFFFFFFC),
       (0x040, 0xFFFFFFFC), (0x044, 0xFFFFFFFC), (0x048, 0xFFFFFFFF), (0x04C, 0x0000001F), (0x050, 0xFFFFFFFC),
       (0x054, 0xFFFFFFFC),
       (0x060, 0xFFFFFFFC), (0x064, 0xFFFFFFFC), (0x068, 0xFFFFFFFF), (0x06C, 0x0000001F), (0x070, 0xFFFFFFFC),
       (0x074, 0xFFFFFFFC),
       (0x080, 0xFFFFFFFF), (0x084, 0xFFFFFFFF), (0x088, 0xFFFFFFFF), (0x08C, 0xFFFFFFFF), (0x090, 0xFFFFFFFF),
       (0x094, 0xFFFFFFFF), (0x098, 0xFFFFFFFF), (0x09C, 0xFFFFFFFF)] : List (Nat × Word)) := by
  rintro p (rfl | rfl | rfl) <;> decide

/-- A write at each end of the window, beside another offset; a read at the last offset; the first row of the table of
reads, and AGT1_STATE's with VALID and a mode in it. -/
theorem witness_HostAccessTouchesOnlyItsCsr :
    (∀ off ∈ [0x000, 0x0FC], off < 256 ∧ off % 4 = 0 ∧ off ≠ 0x004 ∧ 0x018 ≠ off
      ∧ (idleWith [.hostWrite (0x40000000 + off) 4 7]).inputs = .hostWrite (params.ctrlBase + off) 4 7 :: [])
    ∧ (0xFC < 256 ∧ 0xFC % 4 = 0 ∧ (idleWith [.hostRead 0x400000FC 4]).inputs = .hostRead (params.ctrlBase + 0xFC) 4 :: [])
    ∧ (idleWith [.hostRead 0x40000000 4]).inputs = .hostRead (params.ctrlBase + 0x000) 4 :: []
    ∧ (let s := idleWith [.hostRead 0x40000078 4]
      let u := { s with csr := { s.csr with state1 := { mode := .operation, valid := true } } }
      u.inputs = .hostRead (params.ctrlBase + 0x078) 4 :: []
      ∧ BitVec.ofBool u.csr.state1.valid ++ 0#29 ++ u.csr.state1.mode.bits.extractLsb' 0 2 = 0x80000003) := by decide

/-- Both ends of every reserved range, and every read-only offset. -/
theorem witness_ReservedAndReadOnlyOffsetsIgnoreWrites :
    (∀ off ∈ [0x030, 0x03C, 0x05C, 0x07C, 0x0A0, 0x0FC], off % 4 = 0
      ∧ ((0x030 ≤ off ∧ off ≤ 0x03C) ∨ off = 0x05C ∨ off = 0x07C ∨ (0x0A0 ≤ off ∧ off ≤ 0x0FC))
      ∧ (idleWith [.hostRead (0x40000000 + off) 4]).inputs = .hostRead (params.ctrlBase + off) 4 :: []
      ∧ (idleWith [.hostWrite (0x40000000 + off) 4 7]).inputs = .hostWrite (params.ctrlBase + off) 4 7 :: [])
    ∧ (∀ off ∈ [0x000, 0x00C, 0x018, 0x058, 0x078], off % 4 = 0
      ∧ (idleWith [.hostWrite (0x40000000 + off) 4 7]).inputs = .hostWrite (params.ctrlBase + off) 4 7 :: []) := by
  decide

/-- A narrow access at the window's first byte, a misaligned one at its last. -/
theorem witness_NarrowOrMisalignedHostAccessIsASlaveError :
    (params.ctrlBase ≤ 0x40000000 ∧ 0x40000000 < params.ctrlBase + 256 ∧ (2 ≠ 4 ∨ (0x40000000 - params.ctrlBase) % 4 ≠ 0)
      ∧ (idleWith [.hostRead 0x40000000 2]).inputs = .hostRead 0x40000000 2 :: [])
    ∧ (params.ctrlBase ≤ 0x400000FF ∧ 0x400000FF < params.ctrlBase + 256 ∧ (4 ≠ 4 ∨ (0x400000FF - params.ctrlBase) % 4 ≠ 0)
      ∧ (idleWith [.hostWrite 0x400000FF 4 7]).inputs = .hostWrite 0x400000FF 4 7 :: []) := by decide

/-- A host write to TIMEOUT while a WAIT polls (95 W11). -/
theorem witness_HostWriteWhileBusyLeavesTheRunningCommand :
    (busyWith (waitAt (.pollTick .single)) [.hostWrite 0x40000014 4 0]).engine = some (waitAt (.pollTick .single))
    ∧ (busyWith (waitAt (.pollTick .single)) [.hostWrite 0x40000014 4 0]).inputs = .hostWrite 0x40000014 4 0 :: [] :=
  ⟨rfl, rfl⟩

theorem witness_TickEndsOnlyAWaitTick :
    ((busyWith (waitAt (.pollTick .single)) [.tick]).inputs = .tick :: []
      ∧ (busyWith (waitAt (.pollTick .single)) [.tick]).engine = some (waitAt (.pollTick .single))
      ∧ (waitAt (.pollTick .single)).pos = .pollTick .single)
    ∧ ((idleWith [.tick]).inputs = .tick :: [] ∧ (idleWith [.tick]).engine = none)
    ∧ ((busyWith (waitAt (.pollRead .single)) [.tick]).inputs = .tick :: []
      ∧ (busyWith (waitAt (.pollRead .single)) [.tick]).engine = some (waitAt (.pollRead .single))
      ∧ ∀ x, (waitAt (.pollRead .single)).pos ≠ .pollTick x) :=
  ⟨⟨rfl, rfl, rfl⟩, ⟨rfl, rfl⟩, rfl, rfl, fun x h => by cases h⟩

/-- An address-phase poll of an MDIO_RD, waiting for a tick. -/
theorem witness_EngineHoldsInWaitTickWithoutATick :
    (busyAt (rdAt (.pollTick .address)) []).engine = some (rdAt (.pollTick .address))
    ∧ decode (rdAt (.pollTick .address)).snap.cmd = .ok (.mdioRd .zero 0 1)
    ∧ (rdAt (.pollTick .address)).pos = .pollTick .address ∧ (busyAt (rdAt (.pollTick .address)) []).inputs = []
    ∧ posFits params (.mdioRd .zero 0 1) (rdAt (.pollTick .address)) = true := ⟨rfl, rfl, rfl, rfl, by decide⟩

/-- DONE and DONE_IE as given. -/
def irqState (done doneIe : Bool) (s : State) : State := { s with csr := { s.csr with done := done, doneIe := doneIe } }

/-- irq rises at a finish and at a write of DONE_IE; it falls at each of the four listed causes. -/
theorem witness_IrqRisesAndFallsOnlyAsListed :
    (let s := irqState false true (busyAt (nopAt .start) []);
      step s = .next (after (step s)) ∧ s.irq = false ∧ (after (step s)).irq = true)
    ∧ (let s := irqState true false (idleWith [.hostWrite 0x40000010 4 1]);
      step s = .next (after (step s)) ∧ s.irq = false ∧ (after (step s)).irq = true)
    ∧ (∀ x ∈ [Event.hostWrite 0x40000008 4 0xE, .hostWrite 0x40000004 4 0, .hostWrite 0x40000010 4 0, .reset],
      let s := irqState true true (idleWith [x]);
      isNext (step s) = true ∧ s.irq = true ∧ (after (step s)).irq = false) := by
  refine ⟨⟨next_after (by decide), by decide, by decide⟩, ⟨next_after (by decide), by decide, by decide⟩, by decide⟩

/-- Acceptance, a finish, a step of a command that goes on. -/
theorem witness_BusyAndSnapshotChangeOnlyByAcceptanceFinishOrReset :
    (let s := idleWith [.hostWrite 0x40000004 4 0x1];
      step s = .next (after (step s)) ∧ s.busy = false ∧ (after (step s)).busy = true)
    ∧ (let s := busyAt (nopAt .start) [];
      step s = .next (after (step s)) ∧ s.busy = true ∧ (after (step s)).busy = false)
    ∧ (let s := busyAt (modeAt .start) [0x10];
      step s = .next (after (step s)) ∧ s.engine = some (modeAt .start)
      ∧ (after (step s)).engine = some { modeAt .modeWrite with read := 0x10 }) := by
  refine ⟨⟨next_after (by decide), by decide, by decide⟩, ⟨next_after (by decide), by decide, by decide⟩,
    next_after (by decide), rfl, by decide⟩

/-- Every command has a step that answers a next state. -/
theorem witness_CommandsWriteNoHostRegister :
    ∀ p ∈ [(Instr.nop, nopAt .start), (.wait, waitAt .start), (.mode .one .config, modeAt .start),
        (.format 1 .plain .transmit, txAt .start), (.mdioRd .zero 0 1, rdAt .start), (.mdioWr .one 3 7, wrAt .start)],
      isNext (exec p.1 (busyAt p.2 [0])) = true := by decide

/-- A step that accesses and goes on; a step that ends a command. -/
theorem witness_EachEngineStepPerformsAtMostOneAccess :
    (let o := exec (.format 1 .plain .transmit) (busyAt (txAt .start) [0]);
      o = .next (after o) ∧ (after o).engine.isSome = true)
    ∧ (let o := exec (.format 1 .plain .transmit) (busyAt (txAt .finish) []);
      o = .next (after o) ∧ (after o).engine = none) := by
  refine ⟨⟨next_after (by decide), by decide⟩, next_after (by decide), by decide⟩

/-- A store of FORMAT, with an address outside it; MODE's mode-control write, with another register. -/
theorem witness_EveryCommandChangesOnlyTheTargetItWrites :
    (let s := busyAt (txAt .table) [0];
      s.engine = some (txAt .table) ∧ exec (.format 1 .plain .transmit) s = .next (after (exec (.format 1 .plain .transmit) s))
      ∧ memWritten s.params (.format 1 .plain .transmit) (txAt .table) = some 0x80008
      ∧ ¬(0x80008 ≤ 0x80010 ∧ 0x80010 < 0x80008 + 8) ∧ ¬(0x80008 ≤ 0x80007 ∧ 0x80007 < 0x80008 + 8))
    ∧ (let s := busyAt (modeAt .modeWrite) [0];
      s.engine = some (modeAt .modeWrite) ∧ exec (.mode .one .config) s = .next (after (exec (.mode .one .config) s))
      ∧ regWritten (.mode .one .config) (modeAt .modeWrite) ≠ some 0x2004) := by
  refine ⟨⟨rfl, next_after (by decide), by decide, by decide, by decide⟩, rfl, next_after (by decide), by decide⟩

/-- A poll read that counts, and a step that does not. -/
theorem witness_RunningCommandChangesOnlyPollCount :
    (let s := busyAt (waitAt .start) [0x0];
      s.engine = some (waitAt .start) ∧ exec .wait s = .next (after (exec .wait s))
      ∧ (after (exec .wait s)).engine = some { waitAt (.pollTick .single) with n := 1 }
      ∧ (after (exec .wait s)).csr ≠ s.csr)
    ∧ (let s := busyAt (modeAt .modeWrite) [0];
      s.engine = some (modeAt .modeWrite) ∧ exec (.mode .one .config) s = .next (after (exec (.mode .one .config) s))
      ∧ (after (exec (.mode .one .config) s)).engine = some (modeAt (.pollRead .single))) := by
  refine ⟨⟨rfl, next_after (by decide), by decide, by decide⟩, rfl, next_after (by decide), by decide⟩

/-- MODE about to finish OK, and a step of a WAIT. -/
theorem witness_OnlyModeWritesAgentState :
    (let o := exec (.mode .one .config) (busyAt { modeAt .finish with out := okWith 0x2 } []);
      o = .next (after o) ∧ (after o).engine = none)
    ∧ (let o := exec .wait (busyAt (waitAt .start) [0x2]);
      o = .next (after o) ∧ ∀ m, Instr.wait ≠ .mode .one m) := by
  refine ⟨⟨next_after (by decide), by decide⟩, next_after (by decide), fun m h => by cases h⟩

/-- An access answered with an error; a finish, which takes no answer. -/
def errorAt (e : Engine) : State := stateOf errorParams e.snap.setup (some e) [{ error := true, data := none }] []

theorem witness_BusErrorEndsTheCommandAtTheAccess :
    (let s := errorAt (disableAt .gateClear);
      s.busFails = true ∧ exec (.mode .one .disable) s = .next (after (exec (.mode .one .disable) s))
      ∧ (after (exec (.mode .one .disable) s)).env.draws ≠ s.env.draws)
    ∧ (let s := errorAt (disableAt .finish);
      s.busFails = true ∧ exec (.mode .one .disable) s = .next (after (exec (.mode .one .disable) s))
      ∧ (after (exec (.mode .one .disable) s)).env.draws = s.env.draws) := by
  refine ⟨⟨by decide, next_after (by decide), by decide⟩, by decide, next_after (by decide), by decide⟩

/-- The invariant at a state built here. -/
theorem inv_of {m : Params} {u : Setup} {e : Option Engine} {a : List Answer} {l : List Event} (hm : m.wf)
    (he : ∀ f, e = some f → engineFits m f = true) : StateInv (stateOf m u e a l) where
  params := hm
  mem := rfl
  regs := rfl
  busy := fun _ => ⟨rfl, rfl, rfl, rfl⟩
  err := fun h => by cases h
  phase := ⟨fun _ h => (nomatch h), fun _ => rfl⟩
  engine := he

/-- OK, TIMEOUT, ILLEGAL, BAD_ARG, BUS_ERR, each from a state that meets the invariant. -/
theorem witness_CompletionCodesHaveTheirCauses :
    (∀ e ∈ [nopAt .start, { waitAt .finish with out := timeoutAt .single 0 },
        engineAt 0x11 (setup 1000 waitArgs) .start, engineAt 0x1 (setup 1000 (args 0x1002 0 0 0 0 0)) .start],
      StateInv (busyAt e []) ∧ (busyAt e []).engine = some e
      ∧ engineStep (busyAt e []) = .next (after (engineStep (busyAt e [])))
      ∧ (after (engineStep (busyAt e []))).engine = none)
    ∧ (StateInv (errorAt (wrAt .start)) ∧ (errorAt (wrAt .start)).engine = some (wrAt .start)
      ∧ engineStep (errorAt (wrAt .start)) = .next (after (engineStep (errorAt (wrAt .start))))
      ∧ (after (engineStep (errorAt (wrAt .start)))).engine = none) := by
  constructor
  · intro e he
    simp only [List.mem_cons, List.not_mem_nil, or_false] at he
    rcases he with rfl | rfl | rfl | rfl
    all_goals
      refine ⟨inv_of (by decide) fun f h => ?_, rfl, next_after (by decide), by decide⟩
      cases h
      decide
  · refine ⟨inv_of (by decide) fun f h => ?_, rfl, next_after (by decide), by decide⟩
    cases h
    decide

theorem witness_FinishSetsStatusAndResult :
    Instr.mdioWr .one 3 7 ≠ .nop ∧ (busyAt (wrAt .finish) []).engine = some (wrAt .finish) ∧ (wrAt .finish).pos = .finish :=
  ⟨by decide, rfl, rfl⟩

theorem witness_NopFinishesOk :
    ((busyAt (nopAt .start) []).engine = some (nopAt .start) ∧ (nopAt .start).pos = .start)
    ∧ (idleWith []).engine = none := ⟨⟨rfl, rfl⟩, rfl⟩

/-- A misaligned address, T = 0, T = 1. -/
theorem witness_WaitStartsWithItsChecks :
    ((0x1003 : Word) &&& 0x3 ≠ 0
      ∧ (engineAt 0x1 (setup 1 (args 0x1003 0 0 0 0 0)) .start).snap.setup.args.arg0 = 0x1003)
    ∧ ((engineAt 0x1 (setup 0 waitArgs) .start).snap.setup.args.arg0 &&& 0x3 = 0
      ∧ (engineAt 0x1 (setup 0 waitArgs) .start).snap.setup.timeout = 0)
    ∧ ((busyAt (engineAt 0x1 (setup 1 waitArgs) .start) []).engine = some (engineAt 0x1 (setup 1 waitArgs) .start)
      ∧ (engineAt 0x1 (setup 1 waitArgs) .start).pos = .start
      ∧ (engineAt 0x1 (setup 1 waitArgs) .start).snap.setup.args.arg0 &&& 0x3 = 0
      ∧ (engineAt 0x1 (setup 1 waitArgs) .start).snap.setup.timeout ≠ 0) := by decide

/-- A first read that matches, one that fails with T = 2, and the last one. -/
theorem witness_WaitPollRoundFollowsThePseudocode :
    ∀ p ∈ [((1000 : Word), 0, (0x6 : Dword)), (2, 0, 0x1), (2, 1, 0x1)],
      let e := { engineAt 0x1 (setup p.1 waitArgs) (.pollRead .single) with n := p.2.1 }
      let s := busyAt e [p.2.2]
      s.engine = some e ∧ e.pos = .pollRead .single ∧ s.busFails = false ∧ e.snap.setup.args.arg0 &&& 0x3 = 0
      ∧ s.env.regValue e.snap.setup.args.arg0.toNat = p.2.2.setWidth 32 := by decide

theorem witness_WaitCompletesOnAMatchingRead :
    let s := busyAt (waitAt (.pollRead .single)) [0x6]
    s.engine = some (waitAt (.pollRead .single)) ∧ (waitAt (.pollRead .single)).pos = .pollRead .single
    ∧ s.busFails = false ∧ (waitAt (.pollRead .single)).snap.setup.args.arg0 &&& 0x3 = 0
    ∧ 0x6 = s.env.regValue (waitAt (.pollRead .single)).snap.setup.args.arg0.toNat
    ∧ (0x6 : Word) &&& (waitAt (.pollRead .single)).snap.setup.args.arg1
        = (waitAt (.pollRead .single)).snap.setup.args.arg2 := by decide

/-- 95 W3: three failing reads, then 0xFE. -/
theorem witness_WaitFinishesAtTheFirstMatch :
    let e := waitAt .start
    let bad : List Word := [0x0, 0x1, 0x0]
    let s := busyAt e ((bad ++ [(0xFE : Word)]).map (BitVec.setWidth 64))
    (s.engine = some e ∧ e.pos = .start ∧ s.params.busMayError = false ∧ s.csr.pollCount = 0
      ∧ e.snap.setup.args.arg0 &&& 0x3 = 0 ∧ bad.length < e.snap.setup.timeout.toNat
      ∧ (∀ v ∈ bad, v &&& e.snap.setup.args.arg1 ≠ e.snap.setup.args.arg2)
      ∧ (0xFE : Word) &&& e.snap.setup.args.arg1 = e.snap.setup.args.arg2
      ∧ s.env.answers = scripted ((bad ++ [(0xFE : Word)]).map (BitVec.setWidth 64)) ++ [])
    ∧ decode e.snap.cmd = .ok .wait :=
  ⟨⟨rfl, rfl, rfl, rfl, by decide, by decide, by simp; decide, by decide, rfl⟩, rfl⟩

/-- 95 W6: T = 3. -/
theorem witness_WaitTimesOutAfterTReads :
    let e := engineAt 0x1 (setup 3 waitArgs) .start
    let bad : List Word := [0x0, 0x0]
    let s := busyAt e ((bad ++ [(0x1 : Word)]).map (BitVec.setWidth 64))
    (s.engine = some e ∧ e.pos = .start ∧ s.params.busMayError = false ∧ s.csr.pollCount = 0
      ∧ e.snap.setup.args.arg0 &&& 0x3 = 0 ∧ bad.length + 1 = e.snap.setup.timeout.toNat
      ∧ (∀ v ∈ bad ++ [(0x1 : Word)], v &&& e.snap.setup.args.arg1 ≠ e.snap.setup.args.arg2)
      ∧ s.env.answers = scripted ((bad ++ [(0x1 : Word)]).map (BitVec.setWidth 64)) ++ [])
    ∧ decode e.snap.cmd = .ok .wait :=
  ⟨⟨rfl, rfl, rfl, rfl, by decide, by decide, by simp; decide, rfl⟩, rfl⟩

/-- The lowest and the highest bit. -/
theorem witness_ClockGateWritesTouchOneBit : 0 < 32 ∧ 31 < 32 := by decide

/-- Each clause: the first read with the gate off and on, the gate write, the mode write with T > 0 and T = 0. -/
theorem witness_ModeEnablesTheClockThenWritesTheMode :
    (∀ v ∈ [(0x0 : Word), 0x10], let s := busyAt (modeAt .start) [v.setWidth 64];
      s.engine = some (modeAt .start) ∧ s.busFails = false ∧ (modeAt .start).pos = .start
      ∧ v = s.env.regValue (4 * (modeAt .start).snap.setup.clkenAddr.toNat))
    ∧ (let s := busyAt (modeAt .gateSet) [0];
      s.engine = some (modeAt .gateSet) ∧ s.busFails = false ∧ (modeAt .gateSet).pos = .gateSet)
    ∧ (∀ w ∈ [(0 : Word), 1000], let e := engineAt 0x122 (setup w waitArgs) .modeWrite;
      (busyAt e [0]).engine = some e ∧ (busyAt e [0]).busFails = false ∧ e.pos = .modeWrite) := by
  refine ⟨?_, ⟨rfl, rfl, rfl⟩, ?_⟩
  · intro v hv
    simp only [List.mem_cons, List.not_mem_nil, or_false] at hv
    rcases hv with rfl | rfl <;> exact ⟨rfl, rfl, rfl, rfl⟩
  · intro w _
    exact ⟨rfl, rfl, rfl⟩

/-- Each clause; the poll read with a match and without. -/
theorem witness_ModePollsThenDisablesTheClockOnlyForDisable :
    (∀ v ∈ [(0x2 : Word), 0x7, 0x1], let s := busyAt (disableAt (.pollRead .single)) [v.setWidth 64];
      s.engine = some (disableAt (.pollRead .single)) ∧ s.busFails = false
      ∧ (disableAt (.pollRead .single)).pos = .pollRead .single
      ∧ v = s.env.regValue (4 * ((disableAt (.pollRead .single)).snap.setup.agt .one).msAddr.toNat))
    ∧ (let s := busyAt (disableAt .gateReread) [0x11];
      s.engine = some (disableAt .gateReread) ∧ s.busFails = false ∧ (disableAt .gateReread).pos = .gateReread
      ∧ 0x11 = s.env.regValue (4 * (disableAt .gateReread).snap.setup.clkenAddr.toNat))
    ∧ (∀ p ∈ [Pos.gateClear, .gateDisable], (busyAt (disableAt p) [0]).engine = some (disableAt p)
      ∧ (busyAt (disableAt p) [0]).busFails = false ∧ (disableAt p).pos = p) := by
  refine ⟨?_, ⟨rfl, rfl, rfl, rfl⟩, fun p _ => ⟨rfl, rfl, rfl⟩⟩
  intro v hv
  simp only [List.mem_cons, List.not_mem_nil, or_false] at hv
  rcases hv with rfl | rfl | rfl <;> exact ⟨rfl, rfl, rfl, rfl⟩

/-- 95 M1's status read; 95 M4's and M5's last write. -/
theorem witness_ModeCompletesOnAMatchingStatus :
    (let s := busyAt (modeAt (.pollRead .single)) [0x2];
      s.engine = some (modeAt (.pollRead .single)) ∧ s.busFails = false ∧ AgentMode.config ≠ .disable
      ∧ (modeAt (.pollRead .single)).pos = .pollRead .single
      ∧ 0x2 = s.env.regValue (4 * ((modeAt (.pollRead .single)).snap.setup.agt .one).msAddr.toNat)
      ∧ (0x2 : Word) &&& ((modeAt (.pollRead .single)).snap.setup.agt .one).msMask = AgentMode.config.bits)
    ∧ (∀ p ∈ [Pos.gateClear, .gateDisable], (busyAt (disableAt p) [0]).engine = some (disableAt p)
      ∧ (busyAt (disableAt p) [0]).busFails = false ∧ ((disableAt p).pos = .gateClear ∨ (disableAt p).pos = .gateDisable))
    := by decide

theorem witness_ModeNeverSucceedsWithoutAMatch :
    let e := { modeAt .finish with out := okWith 0x2 }
    let s := busyAt e []
    StateInv s ∧ s.engine = some e ∧ decode e.snap.cmd = .ok (.mode .one .config)
    ∧ engineStep s = .next (after (engineStep s)) ∧ (after (engineStep s)).engine = none
    ∧ (after (engineStep s)).csr.code = .ok := by
  refine ⟨inv_of (by decide) fun f h => ?_, rfl, rfl, next_after (by decide), by decide, by decide⟩
  cases h
  decide

/-- 95 M1 and M7. -/
theorem witness_ModeWritesTheClockBeforeTheMode :
    let e := modeAt .start
    (e.pos = .start ∧ AgentMode.config ≠ .disable ∧ params.busMayError = false ∧ e.snap.setup.timeout ≠ 0
      ∧ (0x2 : Word) &&& (e.snap.setup.agt .one).msMask = AgentMode.config.bits
      ∧ (0x0 : Word).getLsbD (e.snap.setup.agt .one).clkBit.toNat = false
      ∧ (busyAt e [0x0, 0, 0, 0x2]).engine = some e
      ∧ (busyAt e [0x0, 0, 0, 0x2]).env.answers
          = scripted [(0x0 : Word).setWidth 64, 0, 0, (0x2 : Word).setWidth 64] ++ []
      ∧ (0x10 : Word).getLsbD (e.snap.setup.agt .one).clkBit.toNat = true
      ∧ (busyAt e [0x10, 0, 0x2]).engine = some e
      ∧ (busyAt e [0x10, 0, 0x2]).env.answers = scripted [(0x10 : Word).setWidth 64, 0, (0x2 : Word).setWidth 64] ++ [])
    ∧ decode e.snap.cmd = .ok (.mode .one .config) := ⟨by decide, rfl⟩

/-- 20 R74: the first and the last byte; a listed byte. -/
theorem witness_MemoryIsLittleEndian :
    0 < 8 ∧ 7 < 8 ∧ ¬(16 ≤ 15 ∧ 15 < 16 + 8) ∧ ¬(16 ≤ 24 ∧ 24 < 16 + 8)
    ∧ Memory.byte [(23, 0xAB)] (16 + 7) = some 0xAB := by decide

/-- Operands that pass every check (95 F1, and F10 at the top of the memory space), and one failing each check (95 F5,
F8, F9, F11, F17, F15, F12). -/
theorem witness_FormatChecksEveryOperandFirst :
    (∀ u ∈ [setup 1000 txArgs, setup 1000 (args 0xFFFFFFE0 0xFF 0 0 2 0)],
      let e := engineAt 0x00010013 u .start
      (busyAt e []).engine = some e ∧ e.pos = .start ∧ validate params e.snap 1 .plain .transmit = true)
    ∧ (∀ q ∈ [(setup 1000 (args 0x34567800 0x12 0 0 1 0), 1), (setup 1000 txArgs, 4),
        (setup 1000 (args 0x34567804 0x12 0 0 4 0), 1), (setup 1000 (args 0xFFFFFFF0 0xFF 0 0 2 0), 1),
        ({ setup 1000 txArgs with bdtBaseHi := 0xFF, bdtBaseLo := 0x1FFFFFFF }, 1),
        ({ setup 1000 txArgs with chainCtrlBase := 0x3FFFFFFF }, 1)],
      let e := engineAt 0x00010013 q.1 .start
      (busyAt e []).engine = some e ∧ e.pos = .start ∧ validate params e.snap q.2 .plain .transmit = false)
    ∧ (let e := engineAt 0x00000023 (setup 1000 (args 0x00100000 0 0x00200004 0 2 0x0600)) .start
      (busyAt e []).engine = some e ∧ e.pos = .start ∧ validate params e.snap 0 .timestamped .receive = false) := by
  decide

/-- 95 F2's entry, and F14's. -/
theorem witness_FormatStopsAtABadBufferEntry :
    ∀ v ∈ [(0x0000000000300000 : Dword), 0x0000010000400800],
      let e := rxAt .entryRead
      let s := busyAt e [v]
      s.engine = some e ∧ e.pos = .entryRead ∧ s.busFails = false ∧ entryAddr e.snap e.idx % 8 = 0
      ∧ entryAddr e.snap e.idx + 8 ≤ 2 ^ 40 ∧ v = s.env.memValue (e.snap.bufTable.toNat + 8 * e.idx) := by
  intro v _
  exact ⟨rfl, rfl, rfl, by decide, by decide, rfl⟩

/-- Every word of a slot and of the link slot, in both layouts. -/
theorem witness_FormatWritesSlotWordsInOrder :
    ∀ w ∈ [SlotWord.header, .extension, .timestamp],
      let e := txAt (.slot w)
      let f := txAt (.link w)
      let pa := e.snap.ringBase.toNat + e.idx * 24 + w.offset
      let pb := f.snap.ringBase.toNat + (f.snap.numRing - 1) * 24 + w.offset
      (busyAt e [0]).engine = some e ∧ (busyAt e [0]).busFails = false ∧ pa % 8 = 0 ∧ pa + 8 ≤ 2 ^ 40 ∧ e.pos = .slot w
      ∧ (busyAt f [0]).engine = some f ∧ (busyAt f [0]).busFails = false ∧ pb % 8 = 0 ∧ pb + 8 ≤ 2 ^ 40
      ∧ f.pos = .link w := by decide

/-- 95 F16 and F17: the highest control register and the highest table entry. -/
theorem witness_FormatCompletesWithTableAndControl :
    let u := { setup 1000 txArgs with bdtBaseHi := 0xFF, bdtBaseLo := 0x1FFFFFFE, chainCtrlBase := 0x3FFFFFFE }
    let e := engineAt 0x00010013 u .table
    (busyAt e [0, 0]).engine = some e ∧ e.pos = .table ∧ (busyAt e [0, 0]).params.busMayError = false
    ∧ e.snap.setup.bdtBase.toNat + 8 * 1 + 8 = 2 ^ 40 ∧ 4 * e.snap.setup.chainCtrlBase.toNat + 4 * 1 = 0xFFFFFFFC := by
  decide

/-- The memory of 95 F2, answered as section 0 says. -/
def f2State : State :=
  let e := rxAt .start
  { stateOf params e.snap.setup (some e) (List.replicate 12 { error := false, data := none }) [] with
    env := { Env.reset with
      mem := Memory.store8 [] 0x200000 0x300000, answers := List.replicate 12 { error := false, data := none } } }

theorem witness_FormatLaysOutTheClosedRing :
    let e := rxAt .start
    f2State.engine = some e ∧ e.pos = .start ∧ decode e.snap.cmd = .ok (.format 0 .timestamped .receive)
    ∧ validate f2State.params e.snap 0 .timestamped .receive = true ∧ f2State.params.busMayError = false
    ∧ (∀ a ∈ f2State.env.answers, a.data = none) ∧ 4 * e.snap.numRing + 4 ≤ f2State.env.answers.length
    ∧ (∀ i, i + 1 < e.snap.numRing → (0x300000 : Dword) >>> 40 = 0
      ∧ (∀ k, k < 8 → Memory.byte f2State.env.mem (entryAddr e.snap i + k) = some (byteOf 0x300000 k))
      ∧ (entryAddr e.snap i + 8 ≤ e.snap.ringBase.toNat
          ∨ e.snap.ringBase.toNat + e.snap.numRing * slotSize .timestamped ≤ entryAddr e.snap i))
    ∧ (tableAddr e.snap 0 + 8 ≤ e.snap.ringBase.toNat
      ∨ e.snap.ringBase.toNat + e.snap.numRing * slotSize .timestamped ≤ tableAddr e.snap 0) := by
  refine ⟨rfl, rfl, rfl, by decide, rfl, by decide, by decide, ?_, by decide⟩
  intro i hi
  have hN : (rxAt .start).snap.numRing = 2 := by decide
  obtain rfl : i = 0 := by omega
  decide

theorem witness_MdioPhaseWordsFollowTheLayout : 31 < 32 ∧ 0 < 32 := by decide

/-- Each clause, for both commands. -/
theorem witness_MdioWritesFollowThePseudocode :
    ∀ p ∈ [Pos.start, .mdioAddress, .mdioAck, .mdioOp],
      (busyAt (rdAt p) [0]).engine = some (rdAt p) ∧ (busyAt (rdAt p) [0]).busFails = false ∧ (rdAt p).pos = p
      ∧ (busyAt (wrAt p) [0]).engine = some (wrAt p) ∧ (busyAt (wrAt p) [0]).busFails = false ∧ (wrAt p).pos = p := by
  decide

/-- Each clause, with a value that has the flag and one that has not. -/
theorem witness_MdioPollsItsOwnFlagInEachPhase :
    ∀ x ∈ [Site.address, .op], ∀ v ∈ [(0x4 : Word), 0x1, 0x2, 0x0],
      let e := rdAt (.pollRead x)
      let s := busyAt e [v.setWidth 64]
      s.engine = some e ∧ s.busFails = false ∧ v = s.env.regValue (4 * (e.snap.setup.agt .zero).mdioStsAddr.toNat)
      ∧ e.pos = .pollRead x := by
  intro x _ v hv
  simp only [List.mem_cons, List.not_mem_nil, or_false] at hv
  rcases hv with rfl | rfl | rfl | rfl <;> exact ⟨rfl, rfl, rfl, rfl⟩

theorem witness_MdioRdCompletesWithTheUpperHalf :
    let e := rdAt .mdioData
    let s := busyAt e [0xBEEF6105, 0]
    s.engine = some e ∧ e.pos = .mdioData ∧ s.params.busMayError = false
    ∧ 0xBEEF6105 = s.env.regValue (4 * (e.snap.setup.agt .zero).mdioAccAddr.toNat) := by decide

theorem witness_MdioWrCompletesOnWriteComplete :
    let e := wrAt (.pollRead .op)
    let s := busyAt e [0x2]
    s.engine = some e ∧ e.pos = .pollRead .op ∧ s.busFails = false
    ∧ 0x2 = s.env.regValue (4 * (e.snap.setup.agt .one).mdioStsAddr.toNat) ∧ (0x2 : Word).getLsbD 1 = true := by decide

/-- 95 MD1. -/
theorem witness_MdioRdTransactionRunsBothPhasesInOrder :
    let e := rdAt .start
    let s := busyAt e [0, 0, 0x4, 0, 0, 0x1, 0xBEEF6105, 0]
    (s.engine = some e ∧ e.pos = .start ∧ s.params.busMayError = false ∧ e.snap.setup.timeout ≠ 0
      ∧ (0x4 : Word).getLsbD 2 = true ∧ (0x1 : Word).getLsbD 0 = true
      ∧ s.env.answers = scripted [0, 0, (0x4 : Word).setWidth 64, 0, 0, (0x1 : Word).setWidth 64,
          (0xBEEF6105 : Word).setWidth 64, 0] ++ [])
    ∧ decode e.snap.cmd = .ok (.mdioRd .zero 0 1) := ⟨by decide, rfl⟩

/-- 95 MD3: T = 3, with read-complete alone in the second read. -/
theorem witness_MdioFailedAddressPhaseNeverWritesTheOpPhase :
    let e := engineAt 0x01000004 (setup 3 mdioArgs) .start
    let bad : List Word := [0x0, 0x1]
    let s := busyAt e ([0, 0] ++ (bad ++ [(0x0 : Word)]).map (BitVec.setWidth 64))
    (s.engine = some e ∧ e.pos = .start ∧ s.params.busMayError = false ∧ s.csr.pollCount = 0
      ∧ bad.length + 1 = e.snap.setup.timeout.toNat ∧ (∀ v ∈ bad ++ [(0x0 : Word)], v.getLsbD 2 = false)
      ∧ s.env.answers = scripted ([0, 0] ++ (bad ++ [(0x0 : Word)]).map (BitVec.setWidth 64)) ++ [])
    ∧ decode e.snap.cmd = .ok (.mdioRd .zero 0 1) :=
  ⟨⟨rfl, rfl, rfl, rfl, by decide, by simp, rfl⟩, rfl⟩

/-- The same for an MDIO_WR on slot 1. -/
theorem witness_MdioFailedAddressPhaseNeverWritesTheOpPhase_wr :
    let e := engineAt 0x07030105 (setup 3 mdioArgs) .start
    let bad : List Word := [0x0, 0x1]
    let s := busyAt e ([0, 0] ++ (bad ++ [(0x0 : Word)]).map (BitVec.setWidth 64))
    (s.engine = some e ∧ e.pos = .start ∧ s.params.busMayError = false ∧ s.csr.pollCount = 0
      ∧ bad.length + 1 = e.snap.setup.timeout.toNat ∧ (∀ v ∈ bad ++ [(0x0 : Word)], v.getLsbD 2 = false)
      ∧ s.env.answers = scripted ([0, 0] ++ (bad ++ [(0x0 : Word)]).map (BitVec.setWidth 64)) ++ [])
    ∧ decode e.snap.cmd = .ok (.mdioWr .one 3 7) :=
  ⟨⟨rfl, rfl, rfl, rfl, by decide, by simp, rfl⟩, rfl⟩

/-- In the middle of a FORMAT. -/
theorem witness_EveryStepKeepsTheInvariant :
    let s := busyAt (txAt (.slot .extension)) [0]
    StateInv s ∧ step s = .next (after (step s)) := by
  refine ⟨inv_of (by decide) fun f h => ?_, next_after (by decide)⟩
  cases h
  decide

theorem witness_EngineNeverFaults : StateInv (busyAt (rxAt .entryRead) [0]) := by
  refine inv_of (by decide) fun f h => ?_
  cases h
  decide

theorem witness_EveryCommandFinishesUnderFairTicks :
    StateInv (busyAt (modeAt (.pollTick .single)) [])
    ∧ (busyAt (modeAt (.pollTick .single)) []).engine = some (modeAt (.pollTick .single)) := by
  refine ⟨inv_of (by decide) fun f h => ?_, rfl⟩
  cases h
  decide

end Sys2Proof.Tests
end

section
/-! PROOFS. The statements about the state's own rules (10_state.md): the reset input, the host port, ticks and irq. -/

open Sys2Proof Sys2Proof.Machine

namespace Sys2Proof.Machine

variable {s t : State} {rest : List Event}

/-! ## The step at the head of the schedule -/

/-- A scheduled event is the step. -/
theorem step_event {x : Event} (h : s.inputs = x :: rest) : step s = eventStep x { s with inputs := rest } := by
  simp only [step, h]

/-- A host read of an aligned offset answers the CSR there and changes nothing else (R44). -/
theorem step_hostRead_at {off : Nat} (h256 : off < 256) (h4 : off % 4 = 0)
    (h : s.inputs = .hostRead (s.params.ctrlBase + off) 4 :: rest) :
    step s = .next { s with host := .word (readCsr (csrAt off) s), inputs := rest } := by
  simp only [step_event h, eventStep, hostRead, portAccess_at _ h256 h4]
  rw [readCsr_congr (csrAt off) (s := s) (t := { s with inputs := rest }) rfl rfl]

/-- A host write of an aligned offset writes the CSR there. -/
theorem step_hostWrite_at {off : Nat} {w : Word} (h256 : off < 256) (h4 : off % 4 = 0)
    (h : s.inputs = .hostWrite (s.params.ctrlBase + off) 4 w :: rest) :
    step s = .next { writeCsr (csrAt off) w { s with inputs := rest } with host := .none } := by
  simp only [step_event h, eventStep, hostWrite, portAccess_at _ h256 h4]

/-! ## Reset values (R57) -/

/-- R57's table: what the CSR at an offset reads right after reset. -/
def resetValue (off : Nat) : Word :=
  if off = 0x000 then 0x4D433435 else if off = 0x014 then 0x000003E8
  else if off = 0x048 ∨ off = 0x068 then 0x00000003 else 0x00000000

/-- R57: with the CSRs reset and the engine IDLE, every offset reads its reset value. -/
theorem readCsr_of_reset (hc : s.csr = Csrs.reset) (he : s.engine = none) (off : Nat) :
    readCsr (csrAt off) s = resetValue off := by
  rw [readCsr_congr (csrAt off) (s := State.reset) hc (congrArg Option.isSome he)]
  refine csrAt_cases (fun off n => readCsr n State.reset = resetValue off) (by decide) (fun off hoff => ?_) off
  have h : off ≠ 0x000 ∧ off ≠ 0x014 ∧ off ≠ 0x048 ∧ off ≠ 0x068 := by
    refine ⟨?_, ?_, ?_, ?_⟩ <;> rintro rfl <;> exact hoff (by decide)
  simp [readCsr, resetValue, h]

/-! ## Offsets whose writes are ignored (R42, R44) -/

/-- R26's gaps: no row of the map stands at them. -/
theorem csrAt_reserved {off : Nat}
    (h : (0x030 ≤ off ∧ off ≤ 0x03C) ∨ off = 0x05C ∨ off = 0x07C ∨ (0x0A0 ≤ off ∧ off ≤ 0x0FC)) :
    csrAt off = .reserved := by
  by_contra hn
  have gaps : ∀ p ∈ csrMap,
      ¬((0x030 ≤ p.1 ∧ p.1 ≤ 0x03C) ∨ p.1 = 0x05C ∨ p.1 = 0x07C ∨ (0x0A0 ≤ p.1 ∧ p.1 ≤ 0x0FC)) := by decide
  exact gaps _ (csrAt_row rfl hn) h

/-- The CSRs no host write changes: the read-only ones, and the reserved offsets. -/
inductive CsrName.Ignored : CsrName → Prop
  | id : Ignored .id
  | result : Ignored .result
  | pollCount : Ignored .pollCount
  | agtState (a : Slot) : Ignored (.agtState a)
  | reserved : Ignored .reserved

theorem writeCsr_ignored {n : CsrName} (hn : n.Ignored) (w : Word) (s : State) : writeCsr n w s = s := by
  cases hn <;> rfl

/-- The offsets of the read-only CSRs ID, RESULT, POLL_COUNT, AGT0_STATE and AGT1_STATE. -/
theorem csrAt_readOnly {off : Nat}
    (h : off = 0x000 ∨ off = 0x00C ∨ off = 0x018 ∨ off = 0x058 ∨ off = 0x078) : (csrAt off).Ignored := by
  rcases h with rfl | rfl | rfl | rfl | rfl
  · exact .id
  · exact .result
  · exact .pollCount
  · exact .agtState .zero
  · exact .agtState .one

/-- A host write that reaches an ignored CSR changes nothing and is no error. -/
theorem step_hostWrite_ignored {off : Nat} {w : Word} (h256 : off < 256) (h4 : off % 4 = 0)
    (hn : (csrAt off).Ignored) (h : s.inputs = .hostWrite (s.params.ctrlBase + off) 4 w :: rest) :
    step s = .next { s with host := .none, inputs := rest } := by
  rw [step_hostWrite_at h256 h4 h, writeCsr_ignored hn]

/-! ## Ticks (R47) -/

/-- A tick ends WaitTick(). -/
theorem Engine.ticked_pollTick {e : Engine} {x : Site} (h : e.pos = .pollTick x) :
    e.ticked = { e with pos := .pollRead x } := by
  simp only [Engine.ticked, h, Engine.goto]

/-- A tick outside WaitTick() is lost. -/
theorem Engine.ticked_of_ne {e : Engine} (h : ∀ x, e.pos ≠ .pollTick x) : e.ticked = e := by
  unfold Engine.ticked
  split
  · exact absurd ‹_› (h _)
  · rfl

/-! ## irq (R23, R250) -/

theorem statusWord_done (s : State) : s.statusWord.getLsbD 1 = s.csr.done := by
  simp only [State.statusWord, BitVec.getLsbD_append]
  simp

theorem irqEnWord_doneIe (c : Csrs) : c.irqEnWord.getLsbD 0 = c.doneIe := by
  simp only [Csrs.irqEnWord, BitVec.getLsbD_append]
  simp

/-- What a step does to the two bits irq is made of, DONE and DONE_IE. -/
inductive IrqMove (s t : State) : Prop
  | keep (hd : t.csr.done = s.csr.done) (hi : t.csr.doneIe = s.csr.doneIe)
  | finish (hs : s.busy = true) (ht : t.busy = false) (hd : t.csr.done = true) (hi : t.csr.doneIe = s.csr.doneIe)
  | accept (w : Word) (rest : List Event) (hx : s.inputs = .hostWrite (s.params.ctrlBase + 0x004) 4 w :: rest)
      (hs : s.busy = false) (hd : t.csr.done = false)
  | writeStatus (w : Word) (rest : List Event) (hx : s.inputs = .hostWrite (s.params.ctrlBase + 0x008) 4 w :: rest)
      (hd : t.csr.done = (s.csr.done && !w.getLsbD 1)) (hi : t.csr.doneIe = s.csr.doneIe)
  | writeIrqEn (w : Word) (rest : List Event) (hx : s.inputs = .hostWrite (s.params.ctrlBase + 0x010) 4 w :: rest)
      (hd : t.csr.done = s.csr.done) (hi : t.csr.doneIe = w.getLsbD 0)
  | reset (rest : List Event) (hx : s.inputs = .reset :: rest) (hd : t.csr.done = false)

/-- A step that leaves the CSRs alone leaves irq alone. -/
theorem IrqMove.of_csr (h : t.csr = s.csr) : IrqMove s t := .keep (by rw [h]) (by rw [h])

/-- The engine moves irq by a finish alone, whatever stands in the schedule. -/
theorem engineStep_irqMove {l : List Event} (h : engineStep { s with inputs := l } = .next t) : IrqMove s t := by
  obtain ⟨-, -, -, -, -, hi, -, ⟨hd, -, -⟩ | ⟨hs, ht, hd⟩⟩ := engineStep_frame h
  · exact .keep hd hi
  · exact .finish hs (by simp [State.busy, ht]) hd hi

/-- A host write moves irq at CMD, STATUS and IRQ_EN alone. -/
theorem hostWrite_irqMove {addr size : Nat} {w : Word} (hx : s.inputs = .hostWrite addr size w :: rest) :
    IrqMove s (hostWrite addr size w { s with inputs := rest }) := by
  rcases hostWrite_cases addr size w { s with inputs := rest } with ⟨r, hr⟩ | ⟨off, rfl, rfl, -, -, hr⟩
  · exact hr ▸ .of_csr rfl
  · rw [hr]
    rcases writeCsr_csr (csrAt off) w { s with inputs := rest } with
      ⟨hn, he, hc⟩ | ⟨-, -, hc⟩ | ⟨hn, hc⟩ | ⟨hn, hc⟩ | ⟨-, u, hc⟩
    · obtain rfl := (csrAt_cmd_iff off).1 hn
      exact .accept w rest hx (by simpa [State.busy] using he) (by simp [hc])
    · exact .keep (by simp [hc]) (by simp [hc])
    · obtain rfl := (csrAt_status_iff off).1 hn
      exact .writeStatus w rest hx (by simp [hc]) (by simp [hc])
    · obtain rfl := (csrAt_irqEn_iff off).1 hn
      exact .writeIrqEn w rest hx (by simp [hc]) (by simp [hc])
    · exact .keep (by simp [hc]) (by simp [hc])

/-- Every step of every agent moves irq in one of these ways. -/
theorem step_irqMove (h : step s = .next t) : IrqMove s t := by
  rcases step_cases h with ⟨-, h⟩ | ⟨x, rest, hx, h⟩
  · exact engineStep_irqMove (l := s.inputs) h
  · cases x with
    | engine => exact engineStep_irqMove h
    | hostRead addr size =>
      cases h
      obtain ⟨r, hr⟩ := hostRead_frame addr size { s with inputs := rest }
      exact hr ▸ .of_csr rfl
    | hostWrite addr size w =>
      cases h
      exact hostWrite_irqMove hx
    | hostTarget a => exact .of_csr (hostTarget_frame h).2.1
    | environment c => exact .of_csr (environment_frame h).2.1
    | tick =>
      cases h
      exact .of_csr (tick_csr _)
    | reset =>
      cases h
      exact .reset rest hx rfl

/-- irq rises only by a finish with DONE_IE set, or by the host setting DONE_IE with DONE set. -/
theorem IrqMove.rise (h : IrqMove s t) (hs : s.irq = false) (ht : t.irq = true) :
    (s.busy = true ∧ t.busy = false ∧ t.csr.done = true ∧ s.csr.doneIe = true)
      ∨ ∃ w rest, s.inputs = .hostWrite (s.params.ctrlBase + 0x010) 4 w :: rest ∧ w.getLsbD 0 = true
          ∧ s.csr.done = true := by
  simp only [State.irq, Bool.and_eq_true] at ht
  cases h with
  | keep hd hi => simp_all [State.irq]
  | finish hb hb' hd hi => exact .inl ⟨hb, hb', hd, hi ▸ ht.2⟩
  | accept w rest hx hb hd => simp_all
  | writeStatus w rest hx hd hi => simp_all [State.irq]
  | writeIrqEn w rest hx hd hi => exact .inr ⟨w, rest, hx, hi ▸ ht.2, hd ▸ ht.1⟩
  | reset rest hx hd => simp_all

/-- irq falls only by the host clearing DONE or DONE_IE, by acceptance, or at reset. -/
theorem IrqMove.fall (h : IrqMove s t) (hs : s.irq = true) (ht : t.irq = false) :
    (∃ w rest, s.inputs = .hostWrite (s.params.ctrlBase + 0x008) 4 w :: rest ∧ w.getLsbD 1 = true)
      ∨ (∃ w rest, s.inputs = .hostWrite (s.params.ctrlBase + 0x004) 4 w :: rest ∧ s.busy = false)
      ∨ (∃ w rest, s.inputs = .hostWrite (s.params.ctrlBase + 0x010) 4 w :: rest ∧ w.getLsbD 0 = false)
      ∨ (∃ rest, s.inputs = .reset :: rest) := by
  simp only [State.irq, Bool.and_eq_true] at hs
  cases h with
  | keep hd hi => simp_all [State.irq]
  | finish hb hb' hd hi => simp_all [State.irq]
  | accept w rest hx hb hd => exact .inr (.inl ⟨w, rest, hx, hb⟩)
  | writeStatus w rest hx hd hi => exact .inl ⟨w, rest, hx, by simp_all [State.irq]⟩
  | writeIrqEn w rest hx hd hi => exact .inr (.inr (.inl ⟨w, rest, hx, by simp_all [State.irq]⟩))
  | reset rest hx hd => exact .inr (.inr (.inr ⟨rest, hx⟩))

end Sys2Proof.Machine

/-- Settles O8: reset puts the CSRs and the engine where State.reset has them, and a CSR's value depends on those
alone. -/
theorem resetPutsEveryCsrAtItsResetValue : Obligations.ResetPutsEveryCsrAtItsResetValue := by
  refine ⟨fun s rest h => ?_, rfl, rfl, readCsr_of_reset rfl rfl⟩
  exact ⟨resetInput { s with inputs := rest }, step_event h, rfl, rfl, rfl, rfl, readCsr_of_reset rfl rfl⟩

/-- Settles O13: the reserved offsets have no row in R26's map, and no read-only CSR stores a write. -/
theorem reservedAndReadOnlyOffsetsIgnoreWrites : Obligations.ReservedAndReadOnlyOffsetsIgnoreWrites := by
  intro s off w rest h4
  refine ⟨fun hr => ?_, fun hro => step_hostWrite_ignored (by omega) h4 (csrAt_readOnly hro)⟩
  have hn : csrAt off = .reserved := csrAt_reserved hr
  refine ⟨fun h => ?_, step_hostWrite_ignored (by omega) h4 (hn ▸ .reserved)⟩
  rw [step_hostRead_at (by omega) h4 h, hn]
  rfl

/-- Settles O19: each way a step can move DONE and DONE_IE is one of the listed causes. -/
theorem irqRisesAndFallsOnlyAsListed : Obligations.IrqRisesAndFallsOnlyAsListed := by
  refine ⟨fun s => ?_, fun s t h => ⟨(step_irqMove h).rise, (step_irqMove h).fall⟩⟩
  simp only [readCsr, statusWord_done, irqEnWord_doneIe, State.irq]

/-- Settles O17: a tick acts on the engine's position alone, and only from WaitTick(). -/
theorem tickEndsOnlyAWaitTick : Obligations.TickEndsOnlyAWaitTick := by
  intro s rest h
  have hstep : step s = .next (tick { s with inputs := rest }) := step_event h
  refine ⟨fun e x he hp => ?_, ?_⟩
  · simp only [hstep, tick, he, Engine.ticked_pollTick hp, State.setEngine]
  · rintro (he | ⟨e, he, hp⟩)
    · simp only [hstep, tick, he]
    · simp only [hstep, tick, he, Engine.ticked_of_ne hp, State.setEngine]

end

section
/-! PROOFS. The statements about the encoding (30_encoding.md): the rows of R103's table, the words no row selects
(R104) and the clock-gate mask (R115). -/

open Sys2Proof Sys2Proof.Machine

namespace Sys2Proof

open Sys2Proof.Laws.EncodeSelectsRow (row)

variable {w : Word}

/-! ## The rows of R103's table -/

/-- The bits that must be 0 in the words of a row: those its mask keeps beside the opcode (R103). -/
def OpcodeRow.reserved (r : OpcodeRow) : Word := r.mask &&& 0xFFFFFFF0

/-- Every mask keeps the four opcode bits, and every match is the opcode alone. -/
theorem opcodeRows_opcode :
    ∀ r ∈ opcodeRows, r.mask &&& 0xF = 0xF ∧ r.pattern &&& 0xF = r.pattern ∧ r.pattern.toNat ≤ 5 := by decide

/-- Rows with one opcode are one row. -/
theorem opcodeRows_injective :
    ∀ r ∈ opcodeRows, ∀ r' ∈ opcodeRows, r.pattern = r'.pattern → r = r' := by decide

/-- Two words are equal when their opcodes and their other 28 bits are; here the second has 0 in those. -/
theorem and_eq_iff_opcode_and_rest (x p : Word) (hp : p &&& 0xF = p) :
    x = p ↔ x &&& 0xF = p ∧ x &&& 0xFFFFFFF0 = 0 := by
  have hsplit (y : Word) : y = (y &&& 0xF) ||| (y &&& 0xFFFFFFF0) := by
    rw [← BitVec.and_or_distrib_left]
    exact (BitVec.and_allOnes).symm
  constructor
  · rintro rfl
    refine ⟨hp, ?_⟩
    rw [← hp, BitVec.and_assoc]
    exact BitVec.and_zero
  · rintro ⟨hop, hrest⟩
    rw [hsplit x, hop, hrest]
    exact BitVec.or_zero

/-- R103 for a row of the table: the word has the row's opcode, and 0 in the row's reserved bits. -/
theorem OpcodeRow.selects_iff {r : OpcodeRow} (hr : r ∈ opcodeRows) :
    r.selects w = true ↔ w &&& 0xF = r.pattern ∧ w &&& r.reserved = 0 := by
  obtain ⟨hmask, hpat, -⟩ := opcodeRows_opcode r hr
  rw [OpcodeRow.selects, beq_iff_eq, and_eq_iff_opcode_and_rest _ _ hpat, BitVec.and_assoc, hmask, BitVec.and_assoc]
  rfl

/-- No word selects two rows. -/
theorem opcodeRow_unique {r r' : OpcodeRow} (hr : r ∈ opcodeRows) (hr' : r' ∈ opcodeRows)
    (h : r.selects w = true) (h' : r'.selects w = true) : r = r' := by
  have hop := ((OpcodeRow.selects_iff hr).1 h).1
  have hop' := ((OpcodeRow.selects_iff hr').1 h').1
  exact opcodeRows_injective r hr r' hr' (hop.symm.trans hop')

/-! ## What decode answers -/

theorem row_mem (i : Instr) : row i ∈ opcodeRows := by
  cases i <;> simp [row, opcodeRows]

/-- decode answers an instruction whose row selects the word. -/
theorem row_selects_of_decode {i : Instr} (h : decode w = .ok i) : (row i).selects w = true := by
  unfold decode at h
  split_ifs at h <;> cases h <;> assumption

/-- decode answers an error when no row selects the word, and the opcode says which. -/
theorem decode_error_iff {x : DecodeError} :
    decode w = .error x ↔ (∀ r ∈ opcodeRows, ¬r.selects w = true)
      ∧ (if (opField w).toNat ≤ 5 then .reservedBit else .reservedOpcode) = x := by
  simp only [opcodeRows, List.forall_mem_cons, List.not_mem_nil, false_imp_iff, implies_true, and_true]
  unfold decode
  split_ifs <;> simp_all

/-- A row selects exactly the words that decode to one of its instructions. -/
theorem selects_iff_decode {r : OpcodeRow} (hr : r ∈ opcodeRows) :
    (∃ i, decode w = .ok i ∧ row i = r) ↔ r.selects w = true := by
  constructor
  · rintro ⟨i, h, rfl⟩
    exact row_selects_of_decode h
  · intro h
    cases hd : decode w with
    | error x => exact absurd h ((decode_error_iff.1 hd).1 r hr)
    | ok i => exact ⟨i, rfl, opcodeRow_unique (row_mem i) hr (row_selects_of_decode hd) h⟩

/-- An instruction is one of the six commands. -/
theorem exists_instr {P : Instr → Prop} :
    (∃ i, P i) ↔ P .nop ∨ P .wait ∨ (∃ a t, P (.mode a t)) ∨ (∃ c l d, P (.format c l d))
      ∨ (∃ a p v, P (.mdioRd a p v)) ∨ ∃ a p v, P (.mdioWr a p v) := by
  constructor
  · rintro ⟨i, h⟩
    cases i with
    | nop => exact .inl h
    | wait => exact .inr (.inl h)
    | mode a t => exact .inr (.inr (.inl ⟨a, t, h⟩))
    | format c l d => exact .inr (.inr (.inr (.inl ⟨c, l, d, h⟩)))
    | mdioRd a p v => exact .inr (.inr (.inr (.inr (.inl ⟨a, p, v, h⟩))))
    | mdioWr a p v => exact .inr (.inr (.inr (.inr (.inr ⟨a, p, v, h⟩))))
  · rintro (h | h | ⟨_, _, h⟩ | ⟨_, _, _, h⟩ | ⟨_, _, _, h⟩ | ⟨_, _, _, h⟩) <;> exact ⟨_, h⟩

/-- R103 for a row of the table, as its mask and match say it. -/
theorem decode_iff_mask_match {r : OpcodeRow} (hr : r ∈ opcodeRows) :
    (∃ i, decode w = .ok i ∧ row i = r) ↔ w &&& r.mask = r.pattern :=
  (selects_iff_decode hr).trans beq_iff_eq

/-! ## The words no row selects (R104) -/

theorem opField_toNat (w : Word) : (opField w).toNat = (w &&& 0xF).toNat := by
  rw [BitVec.toNat_and, opField, BitVec.extractLsb'_toNat, Nat.shiftRight_zero]
  exact (Nat.and_two_pow_sub_one_eq_mod _ 4).symm

/-- An opcode above 5 is no row's. -/
theorem not_selects_of_opcode {r : OpcodeRow} (hr : r ∈ opcodeRows) (h : 6 ≤ (w &&& 0xF).toNat) :
    ¬r.selects w = true := by
  intro hs
  have hop := ((OpcodeRow.selects_iff hr).1 hs).1
  have hle := (opcodeRows_opcode r hr).2.2
  rw [← hop] at hle
  omega

theorem decode_reservedOpcode_iff : decode w = .error .reservedOpcode ↔ 6 ≤ (w &&& 0xF).toNat := by
  rw [decode_error_iff, opField_toNat]
  constructor
  · rintro ⟨-, hop⟩
    split_ifs at hop
    omega
  · intro h
    exact ⟨fun r hr => not_selects_of_opcode hr h, if_neg (by omega)⟩

theorem decode_reservedBit_iff :
    decode w = .error .reservedBit ↔ (w &&& 0xF).toNat ≤ 5 ∧ ∀ r ∈ opcodeRows, ¬r.selects w = true := by
  rw [decode_error_iff, opField_toNat, and_comm]
  simp

/-- An opcode up to 5 is the match of a row of the table. -/
theorem exists_row_of_opcode (h : (w &&& 0xF).toNat ≤ 5) : ∃ r ∈ opcodeRows, w &&& 0xF = r.pattern := by
  generalize w &&& 0xF = op at h
  obtain ⟨n, hn, rfl⟩ : ∃ n ≤ 5, op = BitVec.ofNat 32 n := ⟨op.toNat, h, by simp⟩
  interval_cases n <;> simp [opcodeRows, rowNop, rowWait, rowMode, rowFormat, rowMdioRd, rowMdioWr]

/-- R104's second case: the word has the opcode of a row, and a 1 in one of its reserved bits. -/
theorem decode_reservedBit_iff_row :
    decode w = .error .reservedBit ↔ ∃ r ∈ opcodeRows, w &&& 0xF = r.pattern ∧ w &&& r.reserved ≠ 0 := by
  rw [decode_reservedBit_iff]
  constructor
  · rintro ⟨hop, hnone⟩
    obtain ⟨r, hr, hr5⟩ := exists_row_of_opcode hop
    exact ⟨r, hr, hr5, fun h0 => hnone r hr ((OpcodeRow.selects_iff hr).2 ⟨hr5, h0⟩)⟩
  · rintro ⟨r, hr, hop, hres⟩
    refine ⟨hop ▸ (opcodeRows_opcode r hr).2.2, fun r' hr' hs => hres ?_⟩
    obtain ⟨hop', hres'⟩ := (OpcodeRow.selects_iff hr').1 hs
    rwa [opcodeRows_injective r hr r' hr' (hop.symm.trans hop')]

/-! ## A word that no row selects -/

namespace Machine

theorem step_unscheduled {s : State} (h : s.inputs = []) : step s = engineStep s := by
  simp only [step, h]

/-- R104: the engine's turn finishes an unselected word. -/
theorem engineStep_unselected {s : State} {e : Engine} {x : DecodeError} (he : s.engine = some e)
    (hd : decode e.snap.cmd = .error x) : engineStep s = .next (finish none illegalCommand s) := by
  simp only [engineStep, he, hd]

/-! ## The clock gate (R115) -/

/-- CLKMASK has the bit CLK_BIT alone. -/
theorem clkMask_getLsbD (p : Snapshot) (a : Slot) (j : Nat) :
    (p.clkMask a).getLsbD j = decide (j = (p.setup.agt a).clkBit.toNat) := by
  have hbit : (p.setup.agt a).clkBit.toNat < 32 := (p.setup.agt a).clkBit.isLt
  rw [Snapshot.clkMask, ← BitVec.twoPow_eq, BitVec.getLsbD_twoPow]
  simp only [hbit, decide_true, Bool.true_and, eq_comm]

end Machine

end Sys2Proof

open Sys2Proof.Laws.EncodeSelectsRow (row)

/-- Settles O3: decode answers an instruction whose row selects the word, and no word selects two rows. -/
theorem decodeFollowsMaskAndMatch : Obligations.DecodeFollowsMaskAndMatch := by
  intro w
  have hrows : ∀ r ∈ opcodeRows, (∃ i, decode w = .ok i ∧ row i = r) ↔ w &&& r.mask = r.pattern :=
    fun r => decode_iff_mask_match
  simpa [opcodeRows, exists_instr, row, rowNop, rowWait, rowMode, rowFormat, rowMdioRd, rowMdioWr] using hrows

/-- Settles O6: an error of decode is a row's opcode with a 1 in a reserved bit, or no row's opcode; the engine's turn
then only finishes. -/
theorem unselectedWordFinishesIllegal : Obligations.UnselectedWordFinishesIllegal := by
  refine ⟨fun s e x he hs hd => ?_, fun w => decode_reservedOpcode_iff, fun w => ?_⟩
  · rw [step_unscheduled hs, engineStep_unselected he hd]
    rfl
  · rw [or_and_right, or_and_right, or_assoc]
    simpa [opcodeRows, OpcodeRow.reserved, rowNop, rowWait, rowMode, rowFormat, rowMdioRd, rowMdioWr]
      using decode_reservedBit_iff_row (w := w)

/-- Settles O35: setting the gate is an OR and clearing it an AND NOT with a mask of one bit. -/
theorem clockGateWritesTouchOneBit : Obligations.ClockGateWritesTouchOneBit := by
  refine ⟨fun p a c j hj => ⟨clkMask_getLsbD p a j, ?_, ?_⟩, fun u => ⟨rfl, rfl⟩⟩
  · rw [BitVec.getLsbD_or, clkMask_getLsbD, Bool.or_comm]
  · rw [BitVec.getLsbD_and, BitVec.getLsbD_not, clkMask_getLsbD, Bool.and_comm]
    simp [hj]

end

section
/-! PROOFS. AGTa_STATE (10_state.md R39; 41_mode.md R154): what each engine step does to it, and its bits as read. -/

open Sys2Proof Sys2Proof.Machine

namespace Sys2Proof.Machine

variable {s t : State} {i : Instr}

/-! ## What a finish does to a slot's AGTa_STATE (R154) -/

/-- R154: OK records the target, every other code only clears VALID. -/
theorem AgentShadow.after_eq (h : AgentShadow) (m : AgentMode) (k : Code) :
    h.after m k = if k = .ok then { mode := m, valid := true } else { mode := h.mode, valid := false } := by
  cases k <;> rfl

@[simp] theorem Csrs.agtState_finish (c : Csrs) (k : Completion) (a : Slot) :
    (c.finish k).agtState a = c.agtState a := rfl

@[simp] theorem Csrs.agtState_countPoll (c : Csrs) (a : Slot) : c.countPoll.agtState a = c.agtState a := rfl

/-- A MODE on the slot updates its AGTa_STATE. -/
theorem Csrs.agtState_shadow_mode (c : Csrs) (a : Slot) (m : AgentMode) (k : Code) :
    (c.shadow (some (.mode a m)) k).agtState a = (c.agtState a).after m k := by
  cases a <;> rfl

/-- A command that is no MODE on the slot leaves its AGTa_STATE. -/
theorem Csrs.agtState_shadow_of_ne (c : Csrs) {a : Slot} (k : Code) (h : ∀ m, i ≠ .mode a m) :
    (c.shadow (some i) k).agtState a = c.agtState a := by
  cases i with
  | mode b m =>
    match a, b with
    | .zero, .one => rfl
    | .one, .zero => rfl
    | .zero, .zero => exact absurd rfl (h m)
    | .one, .one => exact absurd rfl (h m)
  | _ => rfl

/-! ## What an engine step does to AGTa_STATE -/

/-- A step after which the command still runs leaves both AGTa_STATE alone; any other is the command's finish. -/
theorem exec_agtState_or_finish (h : exec i s = .next t) :
    (t.engine.isSome ∧ ∀ a, t.csr.agtState a = s.csr.agtState a)
      ∨ ∃ k, t.engine = none ∧ t.csr = (s.csr.finish k).shadow (some i) k.code := by
  obtain ⟨e, he⟩ := exec_running h
  cases exec_move h with
  | hold => exact .inl ⟨by simp [he], fun _ => rfl⟩
  | finish k => exact .inr ⟨k, rfl, rfl⟩
  | busError => exact .inr ⟨busError, rfl, rfl⟩
  | access e e' x c _ _ _ hc =>
    refine .inl ⟨rfl, fun a => ?_⟩
    rcases hc with rfl | rfl <;> simp

/-! ## AGTa_STATE as the host reads it (R39) -/

theorem AgentShadow.word_valid (h : AgentShadow) : h.word.getLsbD 31 = h.valid := by
  simp only [AgentShadow.word, BitVec.getLsbD_append]
  simp

theorem AgentShadow.word_reserved (h : AgentShadow) : h.word.extractLsb' 2 29 = 0 :=
  (BitVec.extractLsb'_append_eq_of_le (by decide)).trans BitVec.extractLsb'_append_eq_right

theorem AgentShadow.word_mode (h : AgentShadow) : h.word.extractLsb' 0 2 = h.mode.bits.extractLsb' 0 2 :=
  BitVec.extractLsb'_append_eq_right

/-- R113's numbers, as the MODE field of R39 holds them. -/
theorem AgentMode.bits_low (m : AgentMode) :
    m.bits.extractLsb' 0 2
      = if m = .reset then 0 else if m = .disable then 1 else if m = .config then 2 else 3 := by
  cases m <;> rfl

theorem csrAt_agtState (a : Slot) : csrAt (if a = .zero then 0x058 else 0x078) = .agtState a := by
  cases a <;> rfl

end Sys2Proof.Machine

/-- Settles O25: a step of a command that changes AGTa_STATE is its finish, and a finish follows R154's table. -/
theorem onlyModeWritesAgentState : Obligations.OnlyModeWritesAgentState := by
  refine ⟨fun i s t a h => ?_, fun s a => ?_⟩
  · rcases exec_agtState_or_finish h with ⟨hbusy, hkept⟩ | ⟨k, hidle, hcsr⟩
    · refine ⟨fun m _ hidle => ?_, fun _ => hkept a⟩
      simp [hidle] at hbusy
    · rw [hcsr]
      refine ⟨?_, fun hother => ?_⟩
      · rintro m rfl -
        simp [Csrs.agtState_shadow_mode, AgentShadow.after_eq]
      · have hne : ∀ m, i ≠ .mode a m := hother.resolve_right (by simp [hidle])
        simp [Csrs.agtState_shadow_of_ne _ _ hne]
  · exact ⟨(s.csr.agtState a).word_valid, (s.csr.agtState a).word_reserved,
      (s.csr.agtState a).word_mode.trans (AgentMode.bits_low _), csrAt_agtState a⟩

end

section
/-! PROOFS. FORMAT (42_ring.md): the operand checks before its first access (R173) and the buffer-table entry of a
receive slot (R180, R181). -/

open Sys2Proof Sys2Proof.Machine

namespace Sys2Proof.Machine

variable {s : State} {e f : Engine} {m : Params} {p : Snapshot} {c : Nat} {l : Layout} {d : Dir}

/-! ## The table of R173, as the checks that fail -/

/-- NUM_RING is the low half of ARG4. -/
theorem numRing_eq_and (p : Snapshot) : p.numRing = (p.setup.args.arg4 &&& 0xFFFF).toNat := by
  rw [Snapshot.numRing, BitVec.extractLsb'_toNat, BitVec.toNat_and, Nat.shiftRight_zero]
  exact (Nat.and_two_pow_sub_one_eq_mod _ 16).symm

theorem slotSize_eq_ite (l : Layout) : slotSize l = if l = .timestamped then 24 else 16 := by
  cases l <;> rfl

/-- VALIDATE fails when one of R173's checks does. -/
theorem validate_false_iff :
    validate m p c l d = false ↔
      p.numRing < 2 ∨ m.numChains ≤ c ∨ p.ringBase.toNat % 8 ≠ 0
      ∨ 2 ^ 40 < p.ringBase.toNat + p.numRing * slotSize l
      ∨ 2 ^ 40 < tableAddr p c + 8 ∨ 0xFFFFFFFC < controlAddr p c
      ∨ (d = .receive ∧ (p.bufTable.toNat % 8 ≠ 0 ∨ 2 ^ 40 < p.bufTable.toNat + 8 * (p.numRing - 1))) := by
  rw [← Bool.not_eq_true, validate_iff]
  simp only [not_and_or, not_le, not_lt, Classical.not_imp, ne_eq]

/-! ## FORMAT's step, position by position -/

theorem formatEntry_of_ne_start (h : e.pos ≠ .start) : formatEntry m c l d e = e := by
  unfold formatEntry
  split
  · exact absurd ‹_› h
  · rfl

theorem formatEntry_valid (hp : e.pos = .start) (hv : validate m e.snap c l d = true) :
    formatEntry m c l d e = { e with pos := slotStart d, idx := 0 } := by
  simp [formatEntry, hp, hv]

theorem formatEntry_invalid (hp : e.pos = .start) (hv : validate m e.snap c l d = false) :
    formatEntry m c l d e = e.ends badArgument := by
  simp [formatEntry, hp, hv]

theorem slotStart_ne_start (d : Dir) : slotStart d ≠ .start := by
  cases d <;> simp [slotStart]

/-- The read of a buffer-table entry (R180). -/
theorem exec_format_entryRead (he : s.engine = some e) (hf : formatEntry s.params c l d e = f)
    (hp : f.pos = .entryRead) :
    exec (.format c l d) s
      = loadStep (.format c l d) (entryAddr f.snap f.idx) s fun v t => t.setEngine (afterEntry v f) := by
  simp only [exec, execFormat, running_some he, hf, hp]

/-- The write of a data slot's word (R174, R175, R177). -/
theorem exec_format_slot {w : SlotWord} (he : s.engine = some e) (hf : formatEntry s.params c l d e = f)
    (hp : f.pos = .slot w) :
    exec (.format c l d) s
      = storeStep (.format c l d) (afterSlotWord l d w f) (slotAddr f.snap l f.idx + w.offset)
          (w.value (dataHeader f.snap d f.entry)) s := by
  simp only [exec, execFormat, running_some he, hf, hp]

theorem exec_format_finish (he : s.engine = some e) (hf : formatEntry s.params c l d e = f) (hp : f.pos = .finish) :
    exec (.format c l d) s = .next (finish (some (.format c l d)) f.out s) := by
  simp only [exec, execFormat, running_some he, hf, hp]

/-! ## FORMAT's first step (R173) -/

/-- Operands that fail a check: the first step only finishes. -/
theorem exec_format_start_invalid (he : s.engine = some e) (hp : e.pos = .start)
    (hv : validate s.params e.snap c l d = false) :
    exec (.format c l d) s = .next (finish (some (.format c l d)) badArgument s) :=
  exec_format_finish he (formatEntry_invalid hp hv) rfl

/-- A step that comes to data slot 0's first access is the step from there. -/
theorem exec_format_slotStart (he : s.engine = some e) (hf : formatEntry s.params c l d e = f)
    (hp : f.pos = slotStart d) : exec (.format c l d) s = exec (.format c l d) (s.setEngine f) := by
  have hstays : formatEntry (s.setEngine f).params c l d f = f :=
    formatEntry_of_ne_start (hp ▸ slotStart_ne_start d)
  cases d with
  | receive =>
    rw [exec_format_entryRead he hf hp, exec_format_entryRead (s.setEngine_engine f) hstays hp]
    exact (loadStep_engine _ _ _).symm
  | transmit =>
    rw [exec_format_slot he hf hp, exec_format_slot (s.setEngine_engine f) hstays hp]
    exact (storeStep_engine _ _ _).symm

/-- Operands that pass every check: the first step is the first access of data slot 0. -/
theorem exec_format_start_valid (he : s.engine = some e) (hp : e.pos = .start)
    (hv : validate s.params e.snap c l d = true) :
    exec (.format c l d) s = exec (.format c l d) (s.setEngine { e with pos := slotStart d, idx := 0 }) :=
  exec_format_slotStart he (formatEntry_valid hp hv) rfl

/-! ## The buffer-table entry of a receive slot (R180, R181) -/

/-- Bits 63:40 are 0 when shifting the other bits out leaves 0. -/
theorem entryFits_iff (v : Dword) : entryFits v = true ↔ v >>> 40 = 0 := by
  rw [entryFits, beq_iff_eq, ← BitVec.toNat_inj, ← BitVec.toNat_inj, BitVec.extractLsb'_toNat,
    BitVec.toNat_ushiftRight, Nat.shiftRight_eq_div_pow]
  simp only [BitVec.ofNat_eq_ofNat, BitVec.toNat_ofNat, Nat.zero_mod]
  omega

theorem afterEntry_fits {v : Dword} (hv : v >>> 40 = 0) (e : Engine) :
    afterEntry v e = { e with entry := v, pos := .slot .header } :=
  if_pos ((entryFits_iff v).2 hv)

theorem afterEntry_not_fits {v : Dword} (hv : v >>> 40 ≠ 0) (e : Engine) :
    afterEntry v e = { e with entry := v, pos := .finish, out := badArgument } :=
  if_neg (mt (entryFits_iff v).1 hv)

/-- The read of a buffer-table entry that completes, in full. -/
theorem exec_format_entryRead_done (he : s.engine = some e) (hp : e.pos = .entryRead) (hb : s.busFails = false)
    (ha : memFault (entryAddr e.snap e.idx) = none) :
    exec (.format c l d) s = .next { s with
      env := s.env.performed .engine
        (.memRead (entryAddr e.snap e.idx) (s.env.memValue (entryAddr e.snap e.idx)))
      engine := some (afterEntry (s.env.memValue (entryAddr e.snap e.idx)) e) } := by
  have hstays : formatEntry s.params c l d e = e := formatEntry_of_ne_start (by simp [hp])
  rw [exec_format_entryRead he hstays hp, loadStep_done ha hb]
  rfl

/-- FORMAT about to finish does so, with no access. -/
theorem exec_format_ends (he : s.engine = some e) (hp : e.pos = .finish) :
    exec (.format c l d) s = .next (finish (some (.format c l d)) e.out s) :=
  exec_format_finish he (formatEntry_of_ne_start (by simp [hp])) hp

end Sys2Proof.Machine

/-- Settles O44: VALIDATE fails exactly when a check of R173's table does, and FORMAT's first step looks at it before
any access. -/
theorem formatChecksEveryOperandFirst : Obligations.FormatChecksEveryOperandFirst := by
  rintro s e c l d _ _ _ _ _ he hp rfl rfl rfl rfl rfl
  rw [← numRing_eq_and, ← slotSize_eq_ite]
  have hfails := validate_false_iff (m := s.params) (p := e.snap) (c := c) (l := l) (d := d)
  refine ⟨fun h => ?_, fun h => ?_⟩
  · exact exec_format_start_invalid he hp (hfails.2 h)
  · have hv : validate s.params e.snap c l d = true := (Bool.not_eq_false _).mp (mt hfails.1 h)
    rw [exec_format_start_valid he hp hv]
    cases d <;> rfl

/-- Settles O45: the entry's read leaves FORMAT at the slot's header, or about to finish BAD_ARG. -/
theorem formatStopsAtABadBufferEntry : Obligations.FormatStopsAtABadBufferEntry := by
  rintro s e c l d _ he hp hb halign hrange rfl
  have ha : memFault (entryAddr e.snap e.idx) = none := (memFault_none_iff _).2 ⟨halign, hrange⟩
  refine ⟨_, exec_format_entryRead_done he hp hb ha, rfl, rfl, fun hv => ?_, fun hv => ?_⟩
  · exact congrArg some (afterEntry_fits hv e)
  · have hafter := congrArg some (afterEntry_not_fits hv e)
    exact ⟨_, exec_format_ends hafter rfl, rfl, rfl, rfl, rfl, rfl, rfl, rfl⟩

end

section
/-! PROOFS. The statements about a host write to CMD (60_exceptions.md R240, R241): acceptance while IDLE, OVERRUN
while BUSY. -/

open Sys2Proof Sys2Proof.Machine

namespace Sys2Proof.Machine

variable {s : State} {e : Engine} {w : Word} {rest : List Event}

/-! ## A write to CMD, by BUSY (10 R28) -/

theorem writeCmd_idle (he : s.engine = none) : writeCmd w s = accept w s := by
  simp only [writeCmd, he]

theorem writeCmd_busy (he : s.engine = some e) : writeCmd w s = { s with csr := s.csr.overran } := by
  simp only [writeCmd, he]

/-- A host write of CMD's offset is a write to CMD, in every state. -/
theorem step_hostWrite_cmd (h : s.inputs = .hostWrite (s.params.ctrlBase + 0x004) 4 w :: rest) :
    step s = .next { writeCmd w { s with inputs := rest } with host := .none } :=
  step_hostWrite_at (by decide) (by decide) h

/-! ## The step after acceptance -/

/-- R240: the turn of an engine whose accepted word selects a command is that command's step. -/
theorem engineStep_selected {i : Instr} (he : s.engine = some e) (hd : decode e.snap.cmd = .ok i) :
    engineStep s = exec i s := by
  simp only [engineStep, he, hd]

end Sys2Proof.Machine

/-- Settles O9: the write is `accept`, and the accepted engine's snapshot holds the word that its next step decodes. -/
theorem cmdWriteWhileIdleStartsTheCommand : Obligations.CmdWriteWhileIdleStartsTheCommand := by
  intro s w rest he h
  have haccept : step s = .next { accept w { s with inputs := rest } with host := .none } := by
    rw [step_hostWrite_cmd h, writeCmd_idle (s := { s with inputs := rest }) he]
  refine ⟨_, Engine.accepted w s.csr.setup, haccept, rfl, rfl, rfl, rfl, rfl, fun i hd => ?_⟩
  rw [step_unscheduled rfl]
  exact engineStep_selected rfl hd

/-- Settles O10: with a command running, the write to CMD only sets OVERRUN. -/
theorem cmdWriteWhileBusyOnlySetsOverrun : Obligations.CmdWriteWhileBusyOnlySetsOverrun := by
  intro s e w rest he h
  rw [step_hostWrite_cmd h, writeCmd_busy (s := { s with inputs := rest }) he]
  rfl

end

section
/-! PROOFS. The two round trips of the encoding (30_encoding.md R100, R101) and the place of each operand field. -/

open Sys2Proof Sys2Proof.Machine

namespace Sys2Proof

open Sys2Proof.Laws
open Sys2Proof.Laws.EncodeSelectsRow (row ofNat_of_fits mdioFits)

variable {w : Word} {i : Instr}

/-! ## What decode reads -/

/-- The instruction with i's row and the operands that stand in w. -/
def Instr.operandsIn (w : Word) : Instr → Instr
  | .nop => .nop
  | .wait => .wait
  | .mode _ _ => .mode (agtField w) (targetField w)
  | .format _ _ _ => .format (chainField w) (layoutField w) (dirField w)
  | .mdioRd _ _ _ => .mdioRd (agtField w) (phyField w) (devField w)
  | .mdioWr _ _ _ => .mdioWr (agtField w) (phyField w) (devField w)

/-- Every operand of a decoded instruction is the word's field. -/
theorem decode_operandsIn (h : decode w = .ok i) : i.operandsIn w = i := by
  unfold decode at h
  split_ifs at h <;> cases h <;> rfl

/-- Instructions of one row read the same operands. -/
theorem Instr.operandsIn_of_row {j : Instr} (h : row j = row i) : j.operandsIn w = i.operandsIn w := by
  cases i <;> cases j <;> simp_all [row, rowNop, rowWait, rowMode, rowFormat, rowMdioRd, rowMdioWr, Instr.operandsIn]

/-- A word that a row selects decodes to the instruction of that row with the word's operands. -/
theorem decode_of_row_selects (h : (row i).selects w = true) : decode w = .ok (i.operandsIn w) := by
  obtain ⟨j, hj, hrow⟩ := (selects_iff_decode (row_mem i)).2 h
  rw [← Instr.operandsIn_of_row hrow, decode_operandsIn hj]
  exact hj

/-! ## The fields of a word as shifted and masked bits (R101) -/

theorem Slot.bits_ofBit (b : Bool) : (Slot.ofBit b).bits = (BitVec.ofBool b).setWidth 32 := by
  cases b <;> rfl

theorem Dir.bits_ofBit (b : Bool) : (Dir.ofBit b).bits = (BitVec.ofBool b).setWidth 32 := by
  cases b <;> rfl

theorem Layout.bits_ofBit (b : Bool) : (Layout.ofBit b).bits = (BitVec.ofBool b).setWidth 32 := by
  cases b <;> rfl

theorem AgentMode.bits_ofBits : ∀ b : BitVec 2, (AgentMode.ofBits b).bits = b.setWidth 32 := by
  decide

/-- A field of n bits from bit k on, zero-extended, is the word shifted by k and masked to n bits. -/
theorem field_eq_shift_and (w : Word) (k n : Nat) :
    (w.extractLsb' k n).setWidth 32 = (w >>> k) &&& BitVec.ofNat 32 (2 ^ n - 1) := by
  apply BitVec.eq_of_getLsbD_eq
  intro j hj
  rw [BitVec.getLsbD_setWidth, BitVec.getLsbD_extractLsb', BitVec.getLsbD_and, BitVec.getLsbD_ushiftRight,
    BitVec.getLsbD_ofNat, Nat.testBit_two_pow_sub_one, Bool.and_comm (w.getLsbD _)]
  simp [hj]

/-- One bit as a field of one bit. -/
theorem ofBool_getLsbD (w : Word) (k : Nat) : BitVec.ofBool (w.getLsbD k) = w.extractLsb' k 1 := by
  apply BitVec.eq_of_getLsbD_eq
  intro j hj
  obtain rfl : j = 0 := by omega
  simp

theorem agtField_bits (w : Word) : (agtField w).bits = (w >>> 8) &&& 0x1 := by
  rw [agtField, Slot.bits_ofBit, ofBool_getLsbD]
  exact field_eq_shift_and w 8 1

theorem targetField_bits (w : Word) : (targetField w).bits = (w >>> 4) &&& 0x3 := by
  rw [targetField, AgentMode.bits_ofBits]
  exact field_eq_shift_and w 4 2

theorem dirField_bits (w : Word) : (dirField w).bits = (w >>> 4) &&& 0x1 := by
  rw [dirField, Dir.bits_ofBit, ofBool_getLsbD]
  exact field_eq_shift_and w 4 1

theorem layoutField_bits (w : Word) : (layoutField w).bits = (w >>> 5) &&& 0x1 := by
  rw [layoutField, Layout.bits_ofBit, ofBool_getLsbD]
  exact field_eq_shift_and w 5 1

/-- A field of at most 32 bits and its zero extension are one number. -/
theorem field_toNat (w : Word) (k : Nat) {n : Nat} (hn : n ≤ 32) :
    (w.extractLsb' k n).toNat = ((w >>> k) &&& BitVec.ofNat 32 (2 ^ n - 1)).toNat := by
  rw [← field_eq_shift_and, BitVec.toNat_setWidth_of_le hn]

theorem chainField_eq (w : Word) : chainField w = ((w >>> 16) &&& 0xFF).toNat := field_toNat w 16 (by decide)

theorem phyField_eq (w : Word) : phyField w = ((w >>> 16) &&& 0x1F).toNat := field_toNat w 16 (by decide)

theorem devField_eq (w : Word) : devField w = ((w >>> 24) &&& 0x1F).toNat := field_toNat w 24 (by decide)

/-! ## The word of the operands a word holds -/

theorem operandsIn_wellFormed (w : Word) (i : Instr) : WellFormed (i.operandsIn w) := by
  have hc : chainField w < 2 ^ 8 := (w.extractLsb' 16 8).isLt
  have hp : phyField w < 2 ^ 5 := (w.extractLsb' 16 5).isLt
  have hv : devField w < 2 ^ 5 := (w.extractLsb' 24 5).isLt
  cases i <;> simp [Instr.operandsIn, WellFormed, wellFormed, chainFits, phyFits, devFits] <;> omega

/-- Putting a field back where it was read keeps the word's bits there. -/
theorem shift_and_shift (w m : Word) (k : Nat) : ((w >>> k) &&& m) <<< k = w &&& (m <<< k) := by
  apply BitVec.eq_of_getLsbD_eq
  intro j hj
  by_cases hjk : j < k
  · simp [hjk]
  · simp [hjk, hj, Nat.add_sub_cancel' (Nat.le_of_not_lt hjk)]

/-- A word is what a mask keeps of it and what the complement keeps. -/
theorem word_split (w m n : Word) (h : m ||| n = 0xFFFFFFFF) : (w &&& m) ||| (w &&& n) = w := by
  rw [← BitVec.and_or_distrib_left, h]
  exact BitVec.and_allOnes

/-- The bits a row's mask leaves free are its operand fields: encoding the operands in w gives back those bits of w. -/
theorem encode_operandsIn (w : Word) (i : Instr) :
    encode (i.operandsIn w) = (row i).pattern ||| (w &&& ~~~(row i).mask) := by
  cases i <;>
    simp only [Instr.operandsIn, encode, row, agtField_bits, targetField_bits, dirField_bits, layoutField_bits,
      chainField_eq, phyField_eq, devField_eq, BitVec.ofNat_toNat, BitVec.setWidth_eq, shift_and_shift, BitVec.or_assoc,
      ← BitVec.and_or_distrib_left] <;>
    simp [rowNop, rowWait, rowMode, rowFormat, rowMdioRd, rowMdioWr]

/-- A word that a row selects is the command word of the operands it holds. -/
theorem encode_operandsIn_of_selects (h : (row i).selects w = true) : encode (i.operandsIn w) = w := by
  rw [encode_operandsIn, ← beq_iff_eq.1 h]
  exact word_split w _ _ (by simp)

/-! ## The operands of an instruction's command word -/

/-- A number that fits a field is the field's bits as a number. -/
theorem toNat_eq_of_fits {n v : Nat} {x : BitVec n} (h : v < 2 ^ n) (hx : x = BitVec.ofNat n v) : x.toNat = v := by
  rw [hx, BitVec.toNat_ofNat, Nat.mod_eq_of_lt h]

/-- The fields of an MDIO command word: the opcode k, the slot, two five-bit numbers. -/
theorem mdioWord_fields (k : Word) (hk : k = 4 ∨ k = 5) (a : Slot) {p v : Nat} (hp : p < 2 ^ 5) (hv : v < 2 ^ 5) :
    let u : Word := k ||| (a.bits <<< 8) ||| (BitVec.ofNat 32 p <<< 16) ||| (BitVec.ofNat 32 v <<< 24)
    agtField u = a ∧ phyField u = p ∧ devField u = v := by
  simp only [ofNat_of_fits (by decide) hp, ofNat_of_fits (by decide) hv]
  refine ⟨?_, toNat_eq_of_fits hp (BitVec.eq_of_getLsbD_eq fun j hj => ?_),
    toNat_eq_of_fits hv (BitVec.eq_of_getLsbD_eq fun j hj => ?_)⟩
  · rcases hk with rfl | rfl <;> cases a <;> simp [agtField, Slot.bits, Slot.ofBit]
  · rcases hk with rfl | rfl <;> cases a <;> interval_cases j <;> simp [Slot.bits]
  · rcases hk with rfl | rfl <;> cases a <;> interval_cases j <;> simp [Slot.bits]

/-- The fields of a FORMAT command word. -/
theorem formatWord_fields {c : Nat} (hc : c < 2 ^ 8) (l : Layout) (d : Dir) :
    let u : Word := 0x3 ||| (d.bits <<< 4) ||| (l.bits <<< 5) ||| (BitVec.ofNat 32 c <<< 16)
    chainField u = c ∧ layoutField u = l ∧ dirField u = d := by
  simp only [ofNat_of_fits (by decide) hc]
  refine ⟨toNat_eq_of_fits hc (BitVec.eq_of_getLsbD_eq fun j hj => ?_), ?_, ?_⟩
  · cases l <;> cases d <;> interval_cases j <;> simp [Layout.bits, Dir.bits]
  · cases l <;> cases d <;> simp [layoutField, Layout.bits, Layout.ofBit, Dir.bits]
  · cases l <;> cases d <;> simp [dirField, Layout.bits, Dir.bits, Dir.ofBit]

/-- R117: the command word of a well-formed instruction holds the instruction's operands. -/
theorem operandsIn_encode (h : WellFormed i) : i.operandsIn (encode i) = i := by
  cases i with
  | nop => rfl
  | wait => rfl
  | mode a t => cases a <;> cases t <;> rfl
  | format c l d =>
    have hc : c < 2 ^ 8 := by simpa [WellFormed, wellFormed, chainFits, Nat.lt_succ_iff] using h
    exact Instr.format.injEq .. ▸ formatWord_fields hc l d
  | mdioRd a p v =>
    obtain ⟨hp, hv⟩ := mdioFits h
    exact Instr.mdioRd.injEq .. ▸ mdioWord_fields 4 (.inl rfl) a hp hv
  | mdioWr a p v =>
    obtain ⟨hp, hv⟩ := mdioFits h
    exact Instr.mdioWr.injEq .. ▸ mdioWord_fields 5 (.inr rfl) a hp hv

/-- R103: the command word of a well-formed instruction is selected by the instruction's row. -/
theorem row_selects_encode (h : WellFormed i) : (row i).selects (encode i) = true := by
  cases i with
  | nop => exact EncodeSelectsRow.nop h
  | wait => exact EncodeSelectsRow.wait h
  | mode a t => exact EncodeSelectsRow.mode a t h
  | format c l d => exact EncodeSelectsRow.format c l d h
  | mdioRd a p v => exact EncodeSelectsRow.mdioRd a p v h
  | mdioWr a p v => exact EncodeSelectsRow.mdioWr a p v h

end Sys2Proof

/-- Settles O1: the command word is selected by the instruction's row, and holds its operands. -/
theorem decodeEncodeRoundTrip : Obligations.DecodeEncodeRoundTrip := by
  intro i h
  rw [decode_of_row_selects (row_selects_encode h), operandsIn_encode h]

/-- Settles O2: a decoded instruction has the word's operands, and with the row's opcode they are the whole word. -/
theorem encodeDecodeRoundTrip : Obligations.EncodeDecodeRoundTrip := by
  intro w i h
  rw [← decode_operandsIn h]
  exact ⟨operandsIn_wellFormed w i, encode_operandsIn_of_selects (row_selects_of_decode h)⟩

/-- Settles O4: the operands of a decoded instruction are the word's fields. -/
theorem decodeReadsEachFieldInItsPlace : Obligations.DecodeReadsEachFieldInItsPlace := by
  intro w
  refine ⟨fun a t h => ?_, fun c l d h => ?_, fun a p v h => ?_, fun a p v h => ?_⟩ <;>
    cases decode_operandsIn h
  · exact ⟨agtField_bits w, targetField_bits w⟩
  · exact ⟨chainField_eq w, layoutField_bits w, dirField_bits w⟩
  · exact ⟨agtField_bits w, phyField_eq w, devField_eq w⟩
  · exact ⟨agtField_bits w, phyField_eq w, devField_eq w⟩

/-- Settles O5: each word is selected by its row, and its operands are read off. -/
theorem knownCommandWordsDecode : Obligations.KnownCommandWordsDecode :=
  ⟨rfl, rfl, rfl, rfl, rfl, rfl, rfl, rfl⟩

end

section
/-! PROOFS. The rest of the host port (10_state.md R26-R44): what a read and a write of every offset do, STATUS, the
slave error, and writes while a command runs; and the dispatch of a step. -/

open Sys2Proof Sys2Proof.Machine

namespace Sys2Proof.Machine

variable {s t : State} {e : Engine} {w : Word} {rest : List Event}

/-- A run takes one step after the other. -/
theorem run_step {k : Nat} (h : step s = .next t) :
    Host.Core.run Sys2Proof.core (k + 1) s = Host.Core.run Sys2Proof.core k t := by
  have hs : Sys2Proof.core.step s = .next t := h
  simp only [Host.Core.run, hs]

/-! ## RW bits (R26) -/

/-- R26's RW bits of the CSRs that store what the host writes, CMD apart. -/
def CsrName.rwBits : CsrName → Option Word
  | .irqEn => some 0x00000001
  | .timeout | .msMask _ | .arg _ => some 0xFFFFFFFF
  | .clkenAddr | .clkdisAddr | .chainCtrlBase => some 0xFFFFFFFC
  | .mcAddr _ | .msAddr _ | .mdioAccAddr _ | .mdioStsAddr _ => some 0xFFFFFFFC
  | .bdtBaseLo => some 0xFFFFFFF8
  | .bdtBaseHi => some 0x000000FF
  | .clkBit _ => some 0x0000001F
  | _ => none

/-- IRQ_EN stores bit 0, bits 31:1 read 0 (R31). -/
theorem irqEnView (c : Csrs) (w : Word) : Csrs.irqEnWord { c with doneIe := w.getLsbD 0 } = w &&& 0x00000001 := by
  apply BitVec.eq_of_getLsbD_eq
  intro i hi
  simp only [Csrs.irqEnWord, BitVec.getLsbD_append]
  interval_cases i <;> simp

/-- Every RW CSR reads back its RW bits of what was written. -/
theorem readCsr_writeCsr_same {n : CsrName} {m : Word} (hn : n.rwBits = some m) (w : Word) (s : State) :
    readCsr n (writeCsr n w s) = w &&& m := by
  cases n <;> cases hn
  case irqEn => exact irqEnView s.csr w
  case bdtBaseLo => exact lowView_lowBits w
  case bdtBaseHi => exact highView_highBits w
  case clkenAddr | clkdisAddr | chainCtrlBase => exact addrView_addrBits w
  case mcAddr a | msAddr a | mdioAccAddr a | mdioStsAddr a => cases a <;> exact addrView_addrBits w
  case clkBit a => cases a <;> exact bitView_bitBits w
  case msMask a => cases a <;> exact BitVec.and_allOnes.symm
  case timeout => exact BitVec.and_allOnes.symm
  case arg k => exact (ArgFile.get_set _ k k w).trans ((if_pos rfl).trans BitVec.and_allOnes.symm)

/-! ## What a read and a write of an offset do -/

/-- The host read of an offset answers the value that stands there. -/
theorem step_hostRead_value {off : Nat} {v : Word} (h256 : off < 256) (h4 : off % 4 = 0) (hv : readCsr (csrAt off) s = v)
    (h : s.inputs = .hostRead (s.params.ctrlBase + off) 4 :: rest) :
    readCsr (csrAt off) s = v ∧ step s = .next { s with host := .word v, inputs := rest } :=
  ⟨hv, hv ▸ step_hostRead_at h256 h4 h⟩

/-- A write to one offset, CMD's apart, leaves what every other offset reads. -/
theorem readCsr_writeCsr_other_offset {off other : Nat} (hcmd : off ≠ 0x004) (hne : other ≠ off) (w : Word) (s : State) :
    readCsr (csrAt other) (writeCsr (csrAt off) w s) = readCsr (csrAt other) s := by
  rcases csrAt_ne hne with hn | hr
  · exact readCsr_writeCsr_other s _ _ w (mt (csrAt_cmd_iff off).1 hcmd) hn
  · rw [hr]
    rfl

/-- BDT_BASE_HI by its zeros (R36). -/
theorem setWidth_eight (x : BitVec 8) : x.setWidth 32 = 0#24 ++ x := BitVec.setWidth_eq_append (by decide)

/-- AGTa_CLK_BIT by its zeros (R38). -/
theorem setWidth_five (x : BitVec 5) : x.setWidth 32 = 0#27 ++ x := BitVec.setWidth_eq_append (by decide)

/-- A narrow or misaligned access of the window (R43). -/
theorem portAccess_bad {m : Params} {addr size : Nat} (h1 : m.ctrlBase ≤ addr) (h2 : addr < m.ctrlBase + 256)
    (h : size ≠ 4 ∨ (addr - m.ctrlBase) % 4 ≠ 0) : portAccess m addr size = .bad := by
  unfold portAccess
  rw [if_neg (by omega), if_neg (by omega)]

/-! ## STATUS (R29) -/

theorem Code.bits_eq (k : Code) :
    k.bits = if k = .ok then 0 else if k = .timeout then 1 else if k = .illegal then 2
      else if k = .badArg then 3 else 4 := by
  cases k <;> rfl

theorem Phase.bits_eq (p : Phase) :
    p.bits = if p = .none then 0 else if p = .address then 1 else if p = .op then 2 else 3 := by
  cases p <;> rfl

/-- The four flags of STATUS. -/
theorem statusWord_flags (s : State) :
    s.statusWord.getLsbD 0 = s.engine.isSome ∧ s.statusWord.getLsbD 1 = s.csr.done
      ∧ s.statusWord.getLsbD 2 = s.csr.err ∧ s.statusWord.getLsbD 3 = s.csr.overrun := by
  simp only [State.statusWord, BitVec.getLsbD_append]
  simp [State.busy]

/-- The fields of STATUS above its flags: CODE, PHASE and the zeros. -/
theorem statusWord_fields (s : State) :
    s.statusWord.extractLsb' 4 4 = s.csr.code.bits ∧ s.statusWord.extractLsb' 8 2 = s.csr.phase.bits
      ∧ s.statusWord.extractLsb' 10 22 = 0 := by
  refine ⟨?_, ?_, ?_⟩ <;>
    (apply BitVec.eq_of_getLsbD_eq
     intro i hi
     simp only [State.statusWord, BitVec.getLsbD_extractLsb', BitVec.getLsbD_append]
     interval_cases i <;> simp)

/-- A host write to STATUS clears DONE, ERR and OVERRUN where the written bit is 1. -/
theorem statusWord_writeStatus (s : State) (w : Word) :
    (writeCsr .status w s).statusWord = s.statusWord &&& ~~~(w &&& 0x0000000E) := by
  apply BitVec.eq_of_getLsbD_eq
  intro i hi
  simp only [State.statusWord, writeCsr, BitVec.getLsbD_and, BitVec.getLsbD_not, BitVec.getLsbD_append]
  interval_cases i <;> simp [State.busy]

/-! ## A host write while a command runs (R41, R241) -/

/-- No CSR write changes a running command or CMD. -/
theorem writeCsr_busy (n : CsrName) (w : Word) (he : s.engine = some e) :
    (writeCsr n w s).engine = some e ∧ (writeCsr n w s).csr.cmd = s.csr.cmd := by
  refine ⟨(writeCsr_engine n w s (.inr (by simp [he]))).trans he, ?_⟩
  rcases writeCsr_csr n w s with ⟨-, hidle, -⟩ | ⟨-, -, hc⟩ | ⟨-, hc⟩ | ⟨-, hc⟩ | ⟨-, u, hc⟩
  · simp [hidle] at he
  all_goals simp [hc]

/-- Nor does any host write of the window, whatever its width and address. -/
theorem hostWrite_busy (addr size : Nat) (w : Word) (he : s.engine = some e) :
    (hostWrite addr size w s).engine = some e ∧ (hostWrite addr size w s).env = s.env
      ∧ (hostWrite addr size w s).params = s.params ∧ (hostWrite addr size w s).csr.cmd = s.csr.cmd := by
  rcases hostWrite_cases addr size w s with ⟨r, hr⟩ | ⟨off, -, -, -, -, hr⟩ <;> rw [hr]
  · exact ⟨he, rfl, rfl, rfl⟩
  · obtain ⟨heng, hcmd⟩ := writeCsr_busy (csrAt off) w he
    exact ⟨heng, writeCsr_env _ _ _, writeCsr_params _ _ _, hcmd⟩

end Sys2Proof.Machine

/-- Settles O7: a step is the event at the head of the schedule, and with none, or at its turn, the engine runs the
decoded command. -/
theorem stepRunsTheDecodedCommand : Obligations.StepRunsTheDecodedCommand := by
  refine ⟨fun s e i rest he hd => ⟨fun h => ?_, fun h => ?_⟩, fun s w i hd => ?_,
    fun s rest he => ⟨fun h => ?_, fun h => ?_⟩⟩
  · rw [step_unscheduled h, engineStep_selected he hd]
  · rw [step_event h]
    exact engineStep_selected he hd
  · rw [step_event (rest := s.inputs) rfl]
    exact engineStep_selected (s := accept (BitVec.ofNat 32 w) s) (accept_engine _ _) hd
  · simp only [step_unscheduled h, engineStep, he]
  · simp only [step_event h, eventStep, engineStep, he]

/-- Settles O11: the two steps are the CSR's write and its read, and each row of the list has the CSR's RW bits. -/
theorem hostReadsBackTheWritableBits : Obligations.HostReadsBackTheWritableBits := by
  intro s w p hp
  obtain ⟨h256, h4, hrw⟩ : p.1 < 256 ∧ p.1 % 4 = 0 ∧ (csrAt p.1).rwBits = some p.2 := by
    revert p
    decide
  rw [run_step (step_hostWrite_at h256 h4 rfl), run_step (step_hostRead_at h256 h4 (rest := []) (by simp))]
  exact ⟨_, rfl, congrArg HostReply.word (readCsr_writeCsr_same hrw w _)⟩

/-- Settles O12: a write reaches the CSR of its offset alone, a read none, and R26's map has the CSRs in these rows. -/
theorem hostAccessTouchesOnlyItsCsr : Obligations.HostAccessTouchesOnlyItsCsr := by
  refine ⟨fun s off other w rest h256 h4 hcmd hne h => ?_, fun s off rest h256 h4 h => step_hostRead_at h256 h4 h,
    fun s rest p hp => ?_⟩
  · have hn : csrAt off ≠ .cmd := mt (csrAt_cmd_iff off).1 hcmd
    exact ⟨_, step_hostWrite_at h256 h4 h,
      readCsr_writeCsr_other_offset hcmd hne w { s with inputs := rest },
      writeCsr_engine _ _ _ (.inl hn), writeCsr_env _ _ _⟩
  · have hv : readCsr (csrAt p.1) s = p.2 := by
      revert p
      simp only [← setWidth_eight, ← setWidth_five]
      refine (List.map_inj_left (f := fun p => readCsr (csrAt p.1) s) (g := Prod.snd)).1 ?_
      rfl
    obtain ⟨h256, h4⟩ : p.1 < 256 ∧ p.1 % 4 = 0 := by
      clear hv
      revert p
      simp
    exact step_hostRead_value h256 h4 hv

/-- Settles O14: STATUS is the concatenation of its fields, and W1C an AND with the complement of the written flags. -/
theorem statusLayoutAndWriteOneToClear : Obligations.StatusLayoutAndWriteOneToClear := by
  intro s w
  obtain ⟨hbusy, hdone, herr, hover⟩ := statusWord_flags s
  obtain ⟨hcode, hphase, hzero⟩ := statusWord_fields s
  exact ⟨⟨hbusy, hdone, herr, hover, hcode.trans (Code.bits_eq _), hphase.trans (Phase.bits_eq _), hzero⟩,
    statusWord_writeStatus s w⟩

/-- Settles O15: such an access is answered at the port and reaches no CSR. -/
theorem narrowOrMisalignedHostAccessIsASlaveError : Obligations.NarrowOrMisalignedHostAccessIsASlaveError := by
  intro s addr size w rest h1 h2 hbad
  have hp : portAccess s.params addr size = .bad := portAccess_bad h1 h2 hbad
  refine ⟨fun h => ?_, fun h => ?_⟩
  · simp only [step_event h, eventStep, hostRead, hp]
  · simp only [step_event h, eventStep, hostWrite, hp]

/-- Settles O16: a CSR write looks at the engine only to choose between acceptance and OVERRUN. -/
theorem hostWriteWhileBusyLeavesTheRunningCommand : Obligations.HostWriteWhileBusyLeavesTheRunningCommand := by
  intro s e addr size w rest he h
  exact ⟨_, step_event h, hostWrite_busy addr size w (s := { s with inputs := rest }) he⟩

end

section
/-! PROOFS. The rules that hold of every command: what a step of it can touch, its holds in `WaitTick()`, its `finish`,
and where BUSY and the snapshot change (10_state.md R41, R45; 20_memory.md section 5; 60_exceptions.md section 1). -/

open Sys2Proof Sys2Proof.Machine

namespace Sys2Proof.Machine

variable {s t : State} {e f : Engine} {i : Instr}

/-! ## What a step touches: one store, one register write, one counted poll read -/

/-- From s to t, memory changes at most by a store at `pa`, the registers at most by a write of `a`; a command that goes
on leaves the CSRs, unless it polls, and then it counts the read. -/
structure Touches (s t : State) (pa a : Option Nat) (polls : Prop) : Prop where
  mem  : t.env.mem = s.env.mem ∨ ∃ b v, pa = some b ∧ t.env.mem = Memory.store8 s.env.mem b v
  regs : t.env.regs = s.env.regs ∨ ∃ b v, a = some b ∧ t.env.regs = Cells.put s.env.regs b v
  csr  : t.engine = none ∨ t.csr = s.csr ∨ polls ∧ t.csr = s.csr.countPoll

section
variable {pa a : Option Nat} {polls : Prop}

theorem Touches.hold : Touches s s pa a polls := ⟨.inl rfl, .inl rfl, .inr (.inl rfl)⟩

theorem Touches.finish (k : Completion) : Touches s (Machine.finish (some i) k s) pa a polls :=
  ⟨.inl rfl, .inl rfl, .inl rfl⟩

theorem Touches.busError : Touches s (Machine.finish (some i) busError { s with env := s.env.took }) pa a polls :=
  ⟨.inl rfl, .inl rfl, .inl rfl⟩

theorem readStep_touches {b : Nat} {g : Word → Engine} (h : readStep i b s (fun v u => u.setEngine (g v)) = .next t) :
    Touches s t pa a polls := by
  rcases readStep_next h with ⟨-, rfl⟩ | ⟨-, rfl⟩
  · exact .busError
  · exact ⟨.inl rfl, .inl rfl, .inr (.inl rfl)⟩

theorem loadStep_touches {b : Nat} {g : Dword → Engine} (h : loadStep i b s (fun v u => u.setEngine (g v)) = .next t) :
    Touches s t pa a polls := by
  rcases loadStep_next h with ⟨-, rfl⟩ | ⟨-, rfl⟩
  · exact .busError
  · exact ⟨.inl rfl, .inl rfl, .inr (.inl rfl)⟩

theorem writeStep_touches {b : Nat} {v : Word} (h : writeStep i f b v s = .next t) (ha : a = some b) :
    Touches s t pa a polls := by
  rcases writeStep_next h with ⟨-, rfl⟩ | ⟨-, -, rfl⟩
  · exact .busError
  · exact ⟨.inl rfl, .inr ⟨b, v, ha, rfl⟩, .inr (.inl rfl)⟩

theorem storeStep_touches {b : Nat} {v : Dword} (h : storeStep i f b v s = .next t) (ha : pa = some b) :
    Touches s t pa a polls := by
  rcases storeStep_next h with ⟨-, rfl⟩ | ⟨-, -, rfl⟩
  · exact .busError
  · exact ⟨.inr ⟨b, v, ha, rfl⟩, .inl rfl, .inr (.inl rfl)⟩

theorem pollRound_touches {x : Site} {b : Nat} {m k : Word} {g : Engine → Engine}
    (h : pollRound i f x b m k g s = .next t) (hp : polls) : Touches s t pa a polls := by
  rcases readStep_next h with ⟨-, rfl⟩ | ⟨-, rfl⟩
  · exact .busError
  · exact ⟨.inl rfl, .inl rfl, .inr (.inr ⟨hp, rfl⟩)⟩

end

/-- The steps that read for a poll: those at a poll read, and WAIT's first. -/
def atPollRead (i : Instr) (e : Engine) : Prop :=
  e.pos = .pollRead .single ∨ e.pos = .pollRead .address ∨ e.pos = .pollRead .op ∨ (i = .wait ∧ e.pos = .start)

/-- WAIT reads at its poll, or at its start when the checks pass. -/
theorem waitEntry_pollRead (h : (waitEntry e).pos = .pollRead .single) : atPollRead .wait e := by
  unfold waitEntry at h
  split at h
  · exact .inr (.inr (.inr ⟨rfl, ‹_›⟩))
  · exact .inl h

/-- VALIDATE brings FORMAT to no write of the control register. -/
theorem formatEntry_control {m : Params} {c : Nat} {l : Layout} {d : Dir}
    (h : (formatEntry m c l d e).pos = .control) : e.pos = .control := by
  unfold formatEntry at h
  split at h
  · split at h
    · cases d <;> cases h
    · cases h
  · exact h

/-- A step of a command touches the target of its position (Safety.lean), and counts only a poll read. -/
theorem exec_touches (he : s.engine = some e) (h : exec i s = .next t) :
    Touches s t (memWritten s.params i e) (regWritten i e) (atPollRead i e) := by
  cases i with
  | nop =>
    simp only [exec, execNop, running_some he] at h
    split at h <;> cases h
    exact .finish _
  | wait =>
    simp only [exec, execWait, running_some he] at h
    split at h
    · exact pollRound_touches h (waitEntry_pollRead ‹_›)
    · cases h; exact .hold
    · cases h; exact .finish _
    · cases h
  | mode a m =>
    simp only [exec, execMode, running_some he] at h
    split at h <;> rename_i hp
    · exact readStep_touches (g := fun c => e.readAt c (if c &&& e.snap.clkMask a = 0 then .gateSet else .modeWrite)) h
    · exact writeStep_touches h (by simp only [regWritten, hp])
    · exact writeStep_touches h (by simp only [regWritten, hp])
    · exact pollRound_touches h (.inl hp)
    · cases h; exact .hold
    · exact readStep_touches (g := fun c => e.readAt c .gateClear) h
    · exact writeStep_touches h (by simp only [regWritten, hp])
    · exact writeStep_touches h (by simp only [regWritten, hp])
    · cases h; exact .finish _
    · cases h
  | format c l d =>
    simp only [exec, execFormat, running_some he] at h
    have hs := formatEntry_snap s.params c l d e
    split at h <;> rename_i hp
    · exact loadStep_touches (g := fun v => afterEntry v (formatEntry s.params c l d e)) h
    · exact storeStep_touches h (by simp only [memWritten, hp, hs])
    · exact storeStep_touches h (by simp only [memWritten, hp, hs])
    · exact storeStep_touches h (by simp only [memWritten, hp, hs])
    · exact writeStep_touches h (by simp only [regWritten, formatEntry_control hp, hs])
    · cases h; exact .finish _
    · cases h
  | mdioRd a p v =>
    simp only [exec, execMdioRd, running_some he] at h
    split at h <;> rename_i hp
    · exact writeStep_touches h (by simp only [regWritten, hp])
    · exact writeStep_touches h (by simp only [regWritten, hp])
    · exact pollRound_touches h (.inr (.inl hp))
    · cases h; exact .hold
    · exact writeStep_touches h (by simp only [regWritten, hp])
    · exact writeStep_touches h (by simp only [regWritten, hp])
    · exact pollRound_touches h (.inr (.inr (.inl hp)))
    · cases h; exact .hold
    · exact readStep_touches (g := fun v => e.readAt v .mdioReadAck) h
    · exact writeStep_touches h (by simp only [regWritten, hp])
    · cases h; exact .finish _
    · cases h
  | mdioWr a p v =>
    simp only [exec, execMdioWr, running_some he] at h
    split at h <;> rename_i hp
    · exact writeStep_touches h (by simp only [regWritten, hp])
    · exact writeStep_touches h (by simp only [regWritten, hp])
    · exact pollRound_touches h (.inr (.inl hp))
    · cases h; exact .hold
    · exact writeStep_touches h (by simp only [regWritten, hp])
    · exact writeStep_touches h (by simp only [regWritten, hp])
    · exact pollRound_touches h (.inr (.inr (.inl hp)))
    · cases h; exact .hold
    · cases h; exact .finish _
    · cases h

/-- Bytes outside the store are as before. -/
theorem Touches.byte {pa a : Option Nat} {polls : Prop} (h : Touches s t pa a polls) (x : Nat)
    (hx : ∀ b, pa = some b → ¬(b ≤ x ∧ x < b + 8)) : Memory.byte t.env.mem x = Memory.byte s.env.mem x := by
  rcases h.mem with hm | ⟨b, v, hb, hm⟩ <;> rw [hm]
  rw [Memory.byte_store8, if_neg (hx b hb)]

/-- Registers other than the one written are as before. -/
theorem Touches.word {pa a : Option Nat} {polls : Prop} (h : Touches s t pa a polls) (x : Nat) (hx : a ≠ some x) :
    Registers.word t.env.regs x = Registers.word s.env.regs x := by
  rcases h.regs with hr | ⟨b, v, hb, hr⟩ <;> rw [hr]
  exact Registers.word_put_other _ v fun hxb => hx (hxb ▸ hb)

/-! ## A step in `WaitTick()` and a `finish` -/

/-- In `WaitTick()` of a command that polls, an engine step changes nothing. -/
theorem exec_pollTick {x : Site} (he : s.engine = some e) (hp : e.pos = .pollTick x)
    (hf : posFits s.params i e = true) : exec i s = .next s := by
  cases i with
  | nop => simp [posFits, nopFits, hp] at hf
  | wait =>
    have hw : waitEntry e = e := by simp only [waitEntry, hp]
    cases x <;> simp [posFits, waitFits, hp] at hf
    simp only [exec, execWait, running_some he, hw, hp]
  | mode a m =>
    cases x <;> simp [posFits, modeFits, hp] at hf
    simp only [exec, execMode, running_some he, hp]
  | format c l d => simp [posFits, formatFits, hp] at hf
  | mdioRd a p v =>
    cases x <;> simp [posFits, mdioRdFits, hp] at hf <;> simp only [exec, execMdioRd, running_some he, hp]
  | mdioWr a p v =>
    cases x <;> simp [posFits, mdioWrFits, hp] at hf <;> simp only [exec, execMdioWr, running_some he, hp]

/-- At its `finish` a command, NOP apart, finishes with what stands in the engine (60 R244). -/
theorem exec_finish (hi : i ≠ .nop) (he : s.engine = some e) (hp : e.pos = .finish) :
    exec i s = .next (finish (some i) e.out s) := by
  cases i with
  | nop => exact absurd rfl hi
  | wait =>
    have hw : waitEntry e = e := by simp only [waitEntry, hp]
    simp only [exec, execWait, running_some he, hw, hp]
  | mode a m => simp only [exec, execMode, running_some he, hp]
  | format c l d => exact exec_format_ends he hp
  | mdioRd a p v => simp only [exec, execMdioRd, running_some he, hp]
  | mdioWr a p v => simp only [exec, execMdioWr, running_some he, hp]

/-- `finish` in full, but for AGTa_STATE. -/
theorem finish_eq (i : Option Instr) (k : Completion) (s : State) :
    finish i k s = { s with
      engine := none
      csr := { s.csr with
        result := k.result, code := k.code, phase := k.phase, done := true, err := decide (k.code ≠ .ok)
        state0 := ((s.csr.finish k).shadow i k.code).state0
        state1 := ((s.csr.finish k).shadow i k.code).state1 } } := by
  rcases i with _ | (_ | _ | ⟨_ | _, _⟩ | _ | _ | _) <;> rfl

/-- A command that is no MODE finishes without AGTa_STATE. -/
theorem finish_eq_of_not_mode {i : Option Instr} (hi : ∀ a m, i ≠ some (.mode a m)) (k : Completion) (s : State) :
    finish i k s = { s with
      engine := none
      csr := { s.csr with
        result := k.result, code := k.code, phase := k.phase, done := true, err := decide (k.code ≠ .ok) } } := by
  rcases i with _ | (_ | _ | ⟨_, _⟩ | _ | _ | _)
  case some.mode a m => exact absurd rfl (hi a m)
  all_goals rfl

/-! ## Where BUSY and the snapshot change (R41, R45) -/

/-- What a step does to the engine's presence and snapshot. -/
inductive EngineChange (s t : State) : Prop
  | keep (h : t.engine.map Engine.snap = s.engine.map Engine.snap)
  | finish (hs : s.engine.isSome) (ht : t.engine = none) (hd : t.csr.done = true)
  | accept (w : Word) (rest : List Event) (hx : s.inputs = .hostWrite (s.params.ctrlBase + 0x004) 4 w :: rest)
      (hs : s.engine = none) (hc : t.csr.cmd = w) (ht : t.engine = some (Engine.accepted w s.csr.setup))
  | reset (rest : List Event) (hx : s.inputs = .reset :: rest) (ht : t.engine = none)

theorem EngineChange.of_engine (h : t.engine = s.engine) : EngineChange s t := .keep (by rw [h])

theorem engineStep_change {l : List Event} (h : engineStep { s with inputs := l } = .next t) : EngineChange s t := by
  obtain ⟨-, -, -, -, -, -, -, ⟨-, hsome, hsnap⟩ | ⟨hs, ht, hd⟩⟩ := engineStep_frame h
  · refine .keep ?_
    cases hs : s.engine with
    | none => simpa [hs] using hsome
    | some e =>
      obtain ⟨f, hf⟩ := Option.isSome_iff_exists.1 (hsome.trans (by simp [hs]))
      simpa [hf] using hsnap e f hs hf
  · exact .finish hs ht hd

theorem hostWrite_change {addr size : Nat} {w : Word} {rest : List Event}
    (hx : s.inputs = .hostWrite addr size w :: rest) :
    EngineChange s (hostWrite addr size w { s with inputs := rest }) := by
  rcases hostWrite_cases addr size w { s with inputs := rest } with ⟨r, hr⟩ | ⟨off, rfl, rfl, -, -, hr⟩
  · exact hr ▸ .of_engine rfl
  · by_cases hidle : csrAt off = .cmd ∧ s.engine = none
    · obtain ⟨hn, he⟩ := hidle
      obtain rfl := (csrAt_cmd_iff off).1 hn
      rw [hr, hn, writeCsr, writeCmd_idle (s := { s with inputs := rest }) he]
      exact .accept w rest hx he rfl rfl
    · rw [hr]
      refine .of_engine (writeCsr_engine (csrAt off) w { s with inputs := rest } ?_)
      rwa [Option.isSome_iff_ne_none, ← not_and_or]

/-- Every step of every agent changes the engine in one of these ways. -/
theorem step_engineChange (h : step s = .next t) : EngineChange s t := by
  rcases step_cases h with ⟨-, h⟩ | ⟨x, rest, hx, h⟩
  · exact engineStep_change (l := s.inputs) h
  · cases x with
    | engine => exact engineStep_change h
    | hostRead addr size =>
      cases h
      obtain ⟨r, hr⟩ := hostRead_frame addr size { s with inputs := rest }
      exact hr ▸ .of_engine rfl
    | hostWrite addr size w =>
      cases h
      exact hostWrite_change hx
    | hostTarget a => exact .of_engine (hostTarget_frame h).2.2.1
    | environment c => exact .of_engine (environment_frame h).2.2.1
    | tick =>
      cases h
      refine .keep ?_
      simp [Function.comp_def]
    | reset =>
      cases h
      exact .reset rest hx rfl

/-- 00 R9: no step changes the parameters. -/
theorem step_params (h : step s = .next t) : t.params = s.params := by
  rcases step_cases h with ⟨-, h⟩ | ⟨x, rest, hx, h⟩
  · exact (engineStep_frame h).1
  · cases x with
    | engine => exact (engineStep_frame h).1
    | hostRead addr size =>
      cases h
      obtain ⟨r, hr⟩ := hostRead_frame addr size { s with inputs := rest }
      rw [hr]
    | hostWrite addr size w =>
      cases h
      rcases hostWrite_cases addr size w { s with inputs := rest } with ⟨r, hr⟩ | ⟨off, -, -, -, -, hr⟩ <;> rw [hr]
      exact writeCsr_params _ _ _
    | hostTarget a => exact (hostTarget_frame h).1
    | environment c => exact (environment_frame h).1
    | tick =>
      cases h
      exact tick_params _
    | reset =>
      cases h
      rfl

end Sys2Proof.Machine

/-- Settles O18: a step in `WaitTick()` is a hold, so any number of them is. -/
theorem engineHoldsInWaitTickWithoutATick : Obligations.EngineHoldsInWaitTickWithoutATick := by
  intro s e i x k he hd hp hin hf
  have hstep : step s = .next s := by
    rw [step_unscheduled hin, engineStep_selected he hd, exec_pollTick he hp hf]
  refine ⟨?_, (statusWord_flags s).1.trans (by simp [he])⟩
  induction k with
  | zero => rfl
  | succ k ih => rw [run_step hstep, ih]

/-- Settles O20: every step of every agent keeps the snapshot, finishes, accepts or resets. -/
theorem busyAndSnapshotChangeOnlyByAcceptanceFinishOrReset :
    Obligations.BusyAndSnapshotChangeOnlyByAcceptanceFinishOrReset := by
  intro s t h
  refine ⟨fun hs ht => ?_, fun hs ht => ?_, fun e e' hs ht => ?_, step_params h⟩
  · cases step_engineChange h with
    | keep hk => cases h1 : s.engine <;> cases h2 : t.engine <;> simp_all [State.busy]
    | finish hs' => simp_all [State.busy]
    | accept w rest hx _ hc ht => exact ⟨w, rest, hx, hc, _, ht, rfl⟩
    | reset rest hx ht' => simp [State.busy, ht'] at ht
  · cases step_engineChange h with
    | keep hk => cases h1 : s.engine <;> cases h2 : t.engine <;> simp_all [State.busy]
    | finish _ _ hd => exact .inl hd
    | accept w rest hx hs' => simp [State.busy, hs'] at hs
    | reset rest hx _ => exact .inr ⟨rest, hx⟩
  · cases step_engineChange h with
    | keep hk => simpa [hs, ht] using hk
    | finish _ ht' => simp [ht'] at ht
    | accept w rest hx hs' => simp [hs'] at hs
    | reset rest hx ht' => simp [ht'] at ht

/-- Settles O21: none of the four moves of a command writes one of these. -/
theorem commandsWriteNoHostRegister : Obligations.CommandsWriteNoHostRegister := by
  intro i s t h
  cases exec_move h with
  | hold => simp
  | finish k => simp
  | busError _ => simp
  | access e e' x c _ _ _ hc => rcases hc with rfl | rfl <;> simp

/-- Settles O22: of the four moves of a command, only an access performs one, and after it the command goes on. -/
theorem eachEngineStepPerformsAtMostOneAccess : Obligations.EachEngineStepPerformsAtMostOneAccess := by
  intro i s t h
  obtain ⟨e, he⟩ := exec_running h
  cases exec_move h with
  | hold => simp [he]
  | finish k => simp
  | busError _ => simp
  | access e e' x c _ _ _ hc =>
    refine ⟨.inr ⟨x, ?_⟩, fun hidle => by cases hidle⟩
    cases x <;> rfl

/-- Settles O23: a step stores at most at its own position's address. -/
theorem everyCommandChangesOnlyTheTargetItWrites : Obligations.EveryCommandChangesOnlyTheTargetItWrites :=
  fun _ _ _ _ he h => ⟨(exec_touches he h).byte, (exec_touches he h).word⟩

/-- Settles O24: a command that goes on leaves the CSRs but for the counted poll read. -/
theorem runningCommandChangesOnlyPollCount : Obligations.RunningCommandChangesOnlyPollCount := by
  intro i s t e e' he h ht
  rcases (exec_touches he h).csr with hidle | hsame | ⟨hpoll, hcount⟩
  · simp [hidle] at ht
  · exact ⟨.inl hsame, fun hne => absurd hsame hne⟩
  · exact ⟨.inr hcount, fun _ => hpoll⟩

/-- Settles O26: while the bus answers an error, a move of a command takes that answer and finishes, or takes none. -/
theorem busErrorEndsTheCommandAtTheAccess : Obligations.BusErrorEndsTheCommandAtTheAccess := by
  intro i s t hb h
  cases exec_move h with
  | hold => simp
  | finish k => simp
  | busError _ => simp [busError]
  | access e e' x c hnb => simp [hb] at hnb

/-- Settles O28: `finish` writes its arguments, and besides them AGTa_STATE at most. -/
theorem finishSetsStatusAndResult : Obligations.FinishSetsStatusAndResult := by
  intro i s e hi he hp
  exact ⟨_, _, (exec_finish hi he hp).trans (congrArg Host.Outcome.next (finish_eq (some i) e.out s))⟩

end

section
/-! PROOFS. From a position that fits its command (Safety.lean) every step goes on: to a position that fits and is nearer
to the end, or to a `finish` of the command. The invariant, the absence of faults and the completion codes follow. -/

open Sys2Proof Sys2Proof.Machine

namespace Sys2Proof.Machine

variable {s t : State} {e e' f : Engine} {i : Instr} {m : Params} {x : Site}

/-! ## How far a command is from its end -/

/-- The order of the positions in every command: a command moves to lower stages. The words of a ring are one stage. -/
def Pos.stage : Pos → Nat
  | .start => 9
  | .mdioAddress => 8
  | .pollRead .address | .pollTick .address => 7
  | .mdioAck | .gateSet => 6
  | .mdioOp | .modeWrite => 5
  | .pollRead _ | .pollTick _ => 4
  | .gateReread | .mdioData => 3
  | .gateClear | .gateDisable | .mdioReadAck => 2
  | .entryRead | .slot _ | .link _ | .table | .control => 1
  | .finish => 0

/-- How far the engine is from the end of its stage: the rounds its poll has left, or the words its ring has left. -/
def Engine.left (e : Engine) : Nat :=
  match e.pos with
  | .pollRead _ => 2 * (e.bound - e.n) + 1
  | .pollTick _ => 2 * (e.bound - e.n) + 2
  | .entryRead => 5 * (e.snap.numRing - e.idx) + 4
  | .slot .header => 5 * (e.snap.numRing - e.idx) + 3
  | .slot .extension => 5 * (e.snap.numRing - e.idx) + 2
  | .slot .timestamp => 5 * (e.snap.numRing - e.idx) + 1
  | .link .header => 5
  | .link .extension => 4
  | .link .timestamp => 3
  | .table => 2
  | .control => 1
  | _ => 0

/-- More than is left in any stage. -/
def Engine.span (e : Engine) : Nat := 2 * e.bound + 5 * e.snap.numRing + 20

/-- Every engine step of a running command, and every tick that ends a wait, lowers this number. -/
def Engine.rank (e : Engine) : Nat := e.pos.stage * e.span + e.left

@[simp] theorem Engine.goto_bound (e : Engine) (p : Pos) : (e.goto p).bound = e.bound := rfl
@[simp] theorem Engine.counted_bound (e : Engine) (v : Word) : (e.counted v).bound = e.bound := rfl

theorem Engine.polling_iff (e : Engine) : e.polling = true ↔ e.n < e.bound := decide_eq_true_iff

theorem Engine.left_lt_span (e : Engine) : e.left < e.span := by
  unfold Engine.left Engine.span
  split <;> omega

theorem Engine.span_congr (h : e'.snap = e.snap) : e'.span = e.span := by
  simp only [Engine.span, Engine.bound, h]

theorem rank_lt_of_stage (h : e'.snap = e.snap) (hs : e'.pos.stage < e.pos.stage) : e'.rank < e.rank := by
  have hleft := e'.left_lt_span
  have hmul : (e'.pos.stage + 1) * e.span ≤ e.pos.stage * e.span := Nat.mul_le_mul_right _ hs
  rw [Engine.span_congr h] at hleft
  rw [Nat.add_mul, Nat.one_mul] at hmul
  unfold Engine.rank
  rw [Engine.span_congr h]
  omega

theorem rank_lt_of_left (h : e'.snap = e.snap) (hs : e'.pos.stage = e.pos.stage) (hl : e'.left < e.left) :
    e'.rank < e.rank := by
  unfold Engine.rank
  rw [Engine.span_congr h, hs]
  omega

/-- From e the command i goes on to e': the same snapshot, a position that fits, nearer to the end. -/
structure Advances (m : Params) (i : Instr) (e e' : Engine) : Prop where
  snap : e'.snap = e.snap
  fits : posFits m i e' = true
  rank : e'.rank < e.rank

theorem Advances.of_stage {p : Pos} (hp : e.pos = p) (h : e'.snap = e.snap) (hf : posFits m i e' = true)
    (hs : decide (e'.pos.stage < p.stage) = true) : Advances m i e e' :=
  ⟨h, hf, rank_lt_of_stage h (hp ▸ of_decide_eq_true hs)⟩

theorem Advances.of_left (h : e'.snap = e.snap) (hf : posFits m i e' = true) (hs : e'.pos.stage = e.pos.stage)
    (hl : e'.left < e.left) : Advances m i e e' := ⟨h, hf, rank_lt_of_left h hs hl⟩

/-- What goes on from f goes on from an engine that comes to f without a step. -/
theorem Advances.of_entry (h : Advances m i f e') (hs : f.snap = e.snap) (hr : f.rank ≤ e.rank) :
    Advances m i e e' := ⟨h.snap.trans hs, h.fits, h.rank.trans_le hr⟩

/-! ## The moves from a position that fits -/

/-- The address of the access is one of its space (20 R76). -/
def Access.valid : Access → Prop
  | .r32 a _ | .w32 a _ => regFault a = none
  | .memRead pa _ | .memWrite pa _ => memFault pa = none

/-- The moves of `EngineMove`, with what holds of each when the position fits. -/
inductive FitMove (i : Instr) (e : Engine) (s : State) : State → Prop
  | hold (x : Site) : e.pos = .pollTick x → FitMove i e s s
  | finish (k : Completion) : (i = .nop ∧ k = okWith 0 ∨ i ≠ .nop ∧ posFits s.params i (e.ends k) = true) →
      FitMove i e s (Machine.finish (some i) k s)
  | busError : i ≠ .nop → s.busFails = true →
      FitMove i e s (Machine.finish (some i) busError { s with env := s.env.took })
  | access (e' : Engine) (x : Access) (c : Csrs) : x.valid → Advances s.params i e e' →
      (c = s.csr ∨ c = s.csr.countPoll) →
      FitMove i e s { s with csr := c, env := (s.env.performed .engine x).effect x, engine := some e' }

/-- The outcome is a next state, by one of these moves. -/
def FitStep (i : Instr) (e : Engine) (s : State) (o : Host.Outcome State Fault Refusal) : Prop :=
  ∃ t, o = .next t ∧ FitMove i e s t

section
variable {a : Nat}

theorem readStep_fits {g : Word → Engine} (hi : i ≠ .nop) (ha : regFault a = none)
    (hg : ∀ v, Advances s.params i e (g v)) : FitStep i e s (readStep i a s fun v u => u.setEngine (g v)) := by
  cases hb : s.busFails with
  | true => exact ⟨_, by simp only [readStep, proceed, settle, read32, ha, hb, if_true], .busError hi hb⟩
  | false => exact ⟨_, readStep_done ha hb, .access _ (.r32 a (s.env.regValue a)) _ ha (hg _) (.inl rfl)⟩

theorem loadStep_fits {g : Dword → Engine} (hi : i ≠ .nop) (ha : memFault a = none)
    (hg : ∀ v, Advances s.params i e (g v)) : FitStep i e s (loadStep i a s fun v u => u.setEngine (g v)) := by
  cases hb : s.busFails with
  | true => exact ⟨_, by simp only [loadStep, proceed, settle, memRead8, ha, hb, if_true], .busError hi hb⟩
  | false => exact ⟨_, loadStep_done ha hb, .access _ (.memRead a (s.env.memValue a)) _ ha (hg _) (.inl rfl)⟩

theorem writeStep_fits {v : Word} (hi : i ≠ .nop) (ha : regFault a = none) (hg : Advances s.params i e e') :
    FitStep i e s (writeStep i e' a v s) := by
  cases hb : s.busFails with
  | true => exact ⟨_, by simp only [writeStep, proceed, settle, write32, ha, hb, if_true], .busError hi hb⟩
  | false => exact ⟨_, writeStep_done ha hb, .access e' (.w32 a v) _ ha hg (.inl rfl)⟩

theorem storeStep_fits {v : Dword} (hi : i ≠ .nop) (ha : memFault a = none) (hg : Advances s.params i e e') :
    FitStep i e s (storeStep i e' a v s) := by
  cases hb : s.busFails with
  | true => exact ⟨_, by simp only [storeStep, proceed, settle, memWrite8, ha, hb, if_true], .busError hi hb⟩
  | false => exact ⟨_, storeStep_done ha hb, .access e' (.memWrite a v) _ ha hg (.inl rfl)⟩

theorem pollRound_fits {mask k : Word} {g : Engine → Engine} (hi : i ≠ .nop) (ha : regFault a = none)
    (hg : ∀ v, Advances s.params i e (f.polled x mask k g v)) : FitStep i e s (pollRound i f x a mask k g s) := by
  cases hb : s.busFails with
  | true => exact ⟨_, by simp only [pollRound, readStep, proceed, settle, read32, ha, hb, if_true], .busError hi hb⟩
  | false => exact ⟨_, pollRound_done ha hb, .access _ (.r32 a (s.env.regValue a)) _ ha (hg _) (.inr rfl)⟩

end

/-! ## Polls (40 R130, R131) -/

/-- Entering a poll: at its first read, or at the timeout of T = 0. -/
theorem enterPoll_advances {p : Pos} (hp : e.pos = p) (hs : (Pos.pollRead x).stage < p.stage)
    (poll : 0 < e.bound → posFits m i (Engine.goto { e with n := 0, last := 0 } (.pollRead x)) = true)
    (out : posFits m i (Engine.ends { e with n := 0, last := 0 } (timeoutAt x 0)) = true) :
    Advances m i e (e.enterPoll x) :=
  enterPoll_cases (P := Advances m i e) (fun hb => .of_stage hp rfl (poll hb) (decide_eq_true hs))
    (fun _ => .of_stage hp rfl out (decide_eq_true (Nat.zero_lt_of_lt hs)))

theorem enterPoll_rank (hs : (Pos.pollRead x).stage < e.pos.stage) : (e.enterPoll x).rank < e.rank :=
  enterPoll_cases (P := fun f => f.rank < e.rank) (fun _ => rank_lt_of_stage rfl hs)
    (fun _ => rank_lt_of_stage rfl (Nat.zero_lt_of_lt hs))

/-- A poll read: on as `g` says, to a tick wait, or to the timeout. -/
theorem polled_advances {mask k v : Word} {g : Engine → Engine} (hp : e.pos = .pollRead x)
    (hit : v &&& mask = k → Advances m i e (g (e.counted v)))
    (again : e.n + 1 < e.bound → posFits m i ((e.counted v).goto (.pollTick x)) = true)
    (out : posFits m i ((e.counted v).ends (timeoutAt x v)) = true) : Advances m i e (e.polled x mask k g v) := by
  refine polled_cases (P := Advances m i e) hit (fun _ hn => .of_left rfl (again hn) ?_ ?_)
    (fun _ _ => .of_stage hp rfl out ?_)
  · rw [hp]
    cases x <;> rfl
  · simp only [Engine.left, hp, Engine.goto, Engine.counted, Engine.bound] at hn ⊢
    omega
  · cases x <;> rfl

/-! ## Each command (40, 41, 42, 43) -/

theorem execNop_fits (he : s.engine = some e) (hf : posFits s.params .nop e = true) :
    FitStep .nop e s (exec .nop s) := by
  have hp : e.pos = .start := by
    simp only [posFits, nopFits] at hf
    split at hf
    · assumption
    · cases hf
  exact ⟨_, by simp only [exec, execNop, running_some he, hp], .finish _ (.inl ⟨rfl, rfl⟩)⟩

/-- WAIT's checks are no step. -/
theorem waitEntry_rank (e : Engine) : (waitEntry e).rank ≤ e.rank := by
  unfold waitEntry
  split
  · rename_i hp
    split
    · exact Nat.le_of_lt (enterPoll_rank (by rw [hp]; decide))
    · exact Nat.le_of_lt (rank_lt_of_stage (e' := e.ends badArgument) rfl (by rw [hp]; exact Nat.succ_pos _))
  · exact Nat.le_refl _

/-- WAIT's checks leave it in no tick wait it was not in. -/
theorem waitEntry_pollTick (h : (waitEntry e).pos = .pollTick x) : e.pos = .pollTick x := by
  unfold waitEntry at h
  split at h
  · split at h
    · exact absurd h (enterPoll_cases (P := fun f => f.pos ≠ .pollTick x) (by simp) (by simp))
    · cases h
  · exact h

theorem waitFits_finish (h : e.pos = .finish) :
    waitFits e = true ↔
      e.out.among waitEnds = true ∧ (e.out.code ≠ .ok ∨ e.out.result &&& e.snap.waitMask = e.snap.waitExpected) := by
  simp only [waitFits, h, Bool.and_eq_true, Bool.or_eq_true, decide_eq_true_eq]

/-- WAIT about to finish: OK only with a value that matched (40 R132). -/
theorem posFits_wait_ends {k : Completion} :
    posFits m .wait (e.ends k) = true ↔
      k.among waitEnds = true ∧ (k.code ≠ .ok ∨ k.result &&& e.snap.waitMask = e.snap.waitExpected) :=
  waitFits_finish (e := e.ends k) rfl

theorem execWait_fits (he : s.engine = some e) (hf : posFits s.params .wait e = true) :
    FitStep .wait e s (exec .wait s) := by
  obtain ⟨hstart, hw⟩ := waitEntry_fits hf
  have hsnap := waitEntry_snap e
  simp only [exec, execWait, running_some he]
  split <;> rename_i hp
  · simp only [waitFits, hp, Bool.and_eq_true, hsnap] at hw
    refine pollRound_fits (by simp) (waitAddr_ok hw.1) fun v => Advances.of_entry ?_ hsnap (waitEntry_rank e)
    refine polled_advances hp (fun hv => .of_stage hp rfl (posFits_wait_ends.2 ⟨rfl, .inr ?_⟩) rfl)
      (fun hn => ?_) (posFits_wait_ends.2 ⟨rfl, .inl (by simp [timeoutAt])⟩)
    · exact hsnap ▸ hv
    · simpa [posFits, waitFits, Engine.polling_iff, hsnap, hw.1] using hn
  · exact ⟨_, rfl, .hold _ (waitEntry_pollTick hp)⟩
  · rw [waitFits_finish hp, hsnap] at hw
    exact ⟨_, rfl, .finish _ (.inr ⟨by simp, posFits_wait_ends.2 hw⟩)⟩
  · simp [waitFits] at hw

section
variable {a : Slot} {mode : AgentMode}

theorem modeFits_finish (h : e.pos = .finish) :
    modeFits a mode e = true ↔
      e.out.among modeEnds = true ∧ (e.out.code ≠ .ok ∨ modeSeen a mode e e.out.result = true) := by
  simp only [modeFits, h, Bool.and_eq_true, Bool.or_eq_true, decide_eq_true_eq]

/-- MODE about to finish: OK only with a value that matched (40 R132, 41 R155). -/
theorem posFits_mode_ends {k : Completion} :
    posFits m (.mode a mode) (e.ends k) = true ↔
      k.among modeEnds = true ∧ (k.code ≠ .ok ∨ modeSeen a mode e k.result = true) :=
  modeFits_finish (e := e.ends k) rfl

/-- After a status value that matched, MODE goes on to the clock gate or to its end (41 R153). -/
theorem modeMatched_advances {v : Word} (hp : e.pos = .pollRead .single) (hv : modeSeen a mode e v = true) :
    Advances m (.mode a mode) e (modeMatched mode (e.counted v)) := by
  have hend : Advances m (.mode a mode) e ((e.counted v).ends (okWith v)) :=
    .of_stage hp rfl (posFits_mode_ends.2 ⟨rfl, .inr hv⟩) rfl
  cases mode with
  | disable =>
    unfold modeMatched
    dsimp only
    split <;> rename_i hc
    · exact .of_stage hp rfl (Bool.and_eq_true_iff.2 ⟨by simpa using hc, hv⟩) rfl
    · exact .of_stage hp rfl (Bool.and_eq_true_iff.2 ⟨by simpa using hc, hv⟩) rfl
  | _ => exact hend

theorem execMode_fits (he : s.engine = some e) (hf : posFits s.params (.mode a mode) e = true) :
    FitStep (.mode a mode) e s (exec (.mode a mode) s) := by
  simp only [exec, execMode, running_some he]
  split <;> rename_i hp <;> simp only [posFits, modeFits, hp, Bool.and_eq_true] at hf
  · refine readStep_fits (g := fun c => e.readAt c (if c &&& e.snap.clkMask a = 0 then .gateSet else .modeWrite))
      (by simp) (regFault_regAddr _) fun v => ?_
    split
    · exact .of_stage hp rfl rfl rfl
    · exact .of_stage hp rfl rfl rfl
  · exact writeStep_fits (by simp) (regFault_regAddr _) (.of_stage hp rfl rfl rfl)
  · exact writeStep_fits (by simp) (regFault_regAddr _) (enterPoll_advances hp (by decide)
      (fun hn => (Engine.polling_iff _).2 hn) (posFits_mode_ends.2 ⟨rfl, .inl (by simp [timeoutAt])⟩))
  · exact pollRound_fits (by simp) (regFault_regAddr _) fun v => polled_advances hp
      (fun hv => modeMatched_advances hp (by simpa [modeSeen] using hv)) (fun hn => (Engine.polling_iff _).2 hn)
      (posFits_mode_ends.2 ⟨rfl, .inl (by simp [timeoutAt])⟩)
  · exact ⟨_, rfl, .hold _ hp⟩
  · exact readStep_fits (g := fun c => e.readAt c .gateClear) (by simp) (regFault_regAddr _) fun v =>
      .of_stage hp rfl (Bool.and_eq_true_iff.2 hf) rfl
  · exact writeStep_fits (by simp) (regFault_regAddr _)
      (.of_stage hp rfl (posFits_mode_ends.2 ⟨rfl, .inr hf.2⟩) rfl)
  · exact writeStep_fits (by simp) (regFault_regAddr _)
      (.of_stage hp rfl (posFits_mode_ends.2 ⟨rfl, .inr hf.2⟩) rfl)
  · exact ⟨_, rfl, .finish _ (.inr ⟨by simp, posFits_mode_ends.2 (by simpa using hf)⟩)⟩
  · cases hf

end

section
variable {a : Slot} {p v : Nat}

theorem execMdioRd_fits (he : s.engine = some e)
    (hf : posFits s.params (.mdioRd a p v) e = true) : FitStep (.mdioRd a p v) e s (exec (.mdioRd a p v) s) := by
  simp only [exec, execMdioRd, running_some he]
  split <;> rename_i hp <;> simp only [posFits, mdioRdFits, hp] at hf
  · exact writeStep_fits (by simp) (regFault_regAddr _) (.of_stage hp rfl rfl rfl)
  · exact writeStep_fits (by simp) (regFault_regAddr _)
      (enterPoll_advances hp (by decide) (fun hn => (Engine.polling_iff _).2 hn) rfl)
  · exact pollRound_fits (by simp) (regFault_regAddr _) fun v => polled_advances hp
      (fun _ => .of_stage hp rfl rfl rfl) (fun hn => (Engine.polling_iff _).2 hn) rfl
  · exact ⟨_, rfl, .hold _ hp⟩
  · exact writeStep_fits (by simp) (regFault_regAddr _) (.of_stage hp rfl rfl rfl)
  · exact writeStep_fits (by simp) (regFault_regAddr _)
      (enterPoll_advances hp (by decide) (fun hn => (Engine.polling_iff _).2 hn) rfl)
  · exact pollRound_fits (by simp) (regFault_regAddr _) fun v => polled_advances hp
      (fun _ => .of_stage hp rfl rfl rfl) (fun hn => (Engine.polling_iff _).2 hn) rfl
  · exact ⟨_, rfl, .hold _ hp⟩
  · exact readStep_fits (g := fun v => e.readAt v .mdioReadAck) (by simp) (regFault_regAddr _) fun v =>
      .of_stage hp rfl rfl rfl
  · exact writeStep_fits (by simp) (regFault_regAddr _) (.of_stage hp rfl rfl rfl)
  · exact ⟨_, rfl, .finish _ (.inr ⟨by simp, hf⟩)⟩
  · cases hf

theorem execMdioWr_fits (he : s.engine = some e)
    (hf : posFits s.params (.mdioWr a p v) e = true) : FitStep (.mdioWr a p v) e s (exec (.mdioWr a p v) s) := by
  simp only [exec, execMdioWr, running_some he]
  split <;> rename_i hp <;> simp only [posFits, mdioWrFits, hp] at hf
  · exact writeStep_fits (by simp) (regFault_regAddr _) (.of_stage hp rfl rfl rfl)
  · exact writeStep_fits (by simp) (regFault_regAddr _)
      (enterPoll_advances hp (by decide) (fun hn => (Engine.polling_iff _).2 hn) rfl)
  · exact pollRound_fits (by simp) (regFault_regAddr _) fun v => polled_advances hp
      (fun _ => .of_stage hp rfl rfl rfl) (fun hn => (Engine.polling_iff _).2 hn) rfl
  · exact ⟨_, rfl, .hold _ hp⟩
  · exact writeStep_fits (by simp) (regFault_regAddr _) (.of_stage hp rfl rfl rfl)
  · exact writeStep_fits (by simp) (regFault_regAddr _)
      (enterPoll_advances hp (by decide) (fun hn => (Engine.polling_iff _).2 hn) rfl)
  · exact pollRound_fits (by simp) (regFault_regAddr _) fun v => polled_advances hp
      (fun _ => .of_stage hp rfl rfl rfl) (fun hn => (Engine.polling_iff _).2 hn) rfl
  · exact ⟨_, rfl, .hold _ hp⟩
  · exact ⟨_, rfl, .finish _ (.inr ⟨by simp, hf⟩)⟩
  · cases hf

end

section
variable {c : Nat} {l : Layout} {d : Dir}

/-- VALIDATE is no step. -/
theorem formatEntry_rank (m : Params) (c : Nat) (l : Layout) (d : Dir) (e : Engine) :
    (formatEntry m c l d e).rank ≤ e.rank := by
  unfold formatEntry
  split
  · rename_i hp
    split
    · refine Nat.le_of_lt (rank_lt_of_stage (e' := { e with pos := slotStart d, idx := 0 }) rfl ?_)
      cases d <;> simp [hp, slotStart, Pos.stage]
    · exact Nat.le_of_lt (rank_lt_of_stage (e' := e.ends badArgument) rfl (by rw [hp]; exact Nat.succ_pos _))
  · exact Nat.le_refl _

/-- The data slot whose first access is at `slotStart` fits while it is not the last slot. -/
theorem slotStart_fits {k : Nat} (hv : validate m f.snap c l d = true) (hk : k + 1 < f.snap.numRing) :
    formatFits m c l d { f with pos := slotStart d, idx := k } = true := by
  cases d
  · simp only [formatFits, slotStart, hv, Bool.true_and, decide_eq_true_eq]
    exact ⟨trivial, hk⟩
  · cases l <;> simp only [formatFits, slotStart, hv, Bool.true_and] <;> simpa using ⟨hk, rfl⟩

/-- A word of the data slot fits in its layout. -/
theorem slotWord_fits {w : SlotWord} (hv : validate m f.snap c l d = true) (hk : f.idx + 1 < f.snap.numRing)
    (hw : w.inLayout l = true) : formatFits m c l d (f.goto (.slot w)) = true := by
  simp only [formatFits, Engine.goto, hv, hw, Bool.and_true, Bool.true_and]
  exact decide_eq_true hk

/-- Every layout has a header. -/
theorem header_inLayout (l : Layout) : SlotWord.header.inLayout l = true := by
  cases l <;> decide

/-- After a buffer-table entry: the slot's header, or the end (42 R181). -/
theorem afterEntry_advances {v : Dword} (hp : f.pos = .entryRead) (hv : validate m f.snap c l d = true)
    (hk : f.idx + 1 < f.snap.numRing) : Advances m (.format c l d) f (afterEntry v f) := by
  unfold afterEntry
  split
  · refine .of_left rfl (slotWord_fits (f := { f with entry := v }) hv hk (header_inLayout l)) (by rw [hp]; rfl) ?_
    simp only [Engine.left, hp]
    omega
  · exact .of_stage hp rfl rfl rfl

/-- After a word of a data slot: its next word, the next data slot, or the link slot (42 R178). -/
theorem afterSlotWord_advances {w : SlotWord} (hp : f.pos = .slot w) (hv : validate m f.snap c l d = true)
    (hk : f.idx + 1 < f.snap.numRing) : Advances m (.format c l d) f (afterSlotWord l d w f) := by
  unfold afterSlotWord
  split
  · rename_i w' hnext
    refine .of_left rfl (slotWord_fits hv hk (next_inLayout hnext)) (by rw [hp]; rfl) ?_
    cases w <;> cases l <;> cases hnext <;> simp [Engine.left, hp, Engine.goto]
  · split
    · rename_i hmore
      refine .of_left rfl (slotStart_fits hv (by omega)) (by rw [hp]; cases d <;> rfl) ?_
      cases w <;> cases d <;> simp only [Engine.left, hp, slotStart] <;> omega
    · refine .of_left rfl ?_ (by rw [hp]; rfl) ?_
      · exact Bool.and_eq_true_iff.2 ⟨hv, header_inLayout l⟩
      · cases w <;> simp only [Engine.left, hp] <;> omega

/-- After a word of the link slot: its next word, or the table entry. -/
theorem afterLinkWord_advances {w : SlotWord} (hp : f.pos = .link w) (hv : validate m f.snap c l d = true) :
    Advances m (.format c l d) f (afterLinkWord l w f) := by
  unfold afterLinkWord
  split
  · rename_i w' hnext
    refine .of_left rfl (Bool.and_eq_true_iff.2 ⟨hv, next_inLayout hnext⟩) (by rw [hp]; rfl) ?_
    cases w <;> cases l <;> cases hnext <;> simp [Engine.left, hp, Engine.goto]
  · refine .of_left rfl hv (by rw [hp]; rfl) ?_
    cases w <;> simp [Engine.left, hp, Engine.goto]

/-- After the table entry: the control register. -/
theorem table_advances (hp : f.pos = .table) (hv : validate m f.snap c l d = true) :
    Advances m (.format c l d) f (f.goto .control) := by
  refine .of_left rfl hv (by rw [hp]; rfl) ?_
  simp only [Engine.left, hp, Engine.goto]
  decide

theorem execFormat_fits (he : s.engine = some e) (hf : posFits s.params (.format c l d) e = true) :
    FitStep (.format c l d) e s (exec (.format c l d) s) := by
  obtain ⟨hstart, hw⟩ := formatEntry_fits hf
  have hsnap := formatEntry_snap s.params c l d e
  have hrank := formatEntry_rank s.params c l d e
  simp only [exec, execFormat, running_some he]
  generalize formatEntry s.params c l d e = f at *
  split <;> rename_i hp <;> simp only [formatFits, hp, Bool.and_eq_true, decide_eq_true_eq] at hw
  · obtain ⟨hv, rfl, hk⟩ := hw
    exact loadStep_fits (g := fun v => afterEntry v f) (by simp) (entryAddr_ok hv hk) fun v =>
      (afterEntry_advances hp hv hk).of_entry hsnap hrank
  · obtain ⟨⟨hv, hk⟩, hin⟩ := hw
    exact storeStep_fits (by simp) (slotAddr_ok hv (by omega) hin)
      ((afterSlotWord_advances hp hv hk).of_entry hsnap hrank)
  · obtain ⟨hv, hin⟩ := hw
    have hr := ((validate_iff ..).1 hv).1
    exact storeStep_fits (by simp) (slotAddr_ok hv (by omega) hin)
      ((afterLinkWord_advances hp hv).of_entry hsnap hrank)
  · exact storeStep_fits (by simp) (tableAddr_ok hw)
      ((table_advances hp hw).of_entry hsnap hrank)
  · exact writeStep_fits (by simp) (controlAddr_ok hw) (Advances.of_entry (.of_stage hp rfl rfl rfl) hsnap hrank)
  · exact ⟨_, rfl, .finish _ (.inr ⟨by simp, hw⟩)⟩
  · simp at hw

end

/-- From a position that fits, every command answers a next state, by one of the moves of `FitMove`. -/
theorem exec_fits (he : s.engine = some e) (hf : posFits s.params i e = true) : FitStep i e s (exec i s) := by
  cases i with
  | nop => exact execNop_fits he hf
  | wait => exact execWait_fits he hf
  | mode a mode => exact execMode_fits he hf
  | format c l d => exact execFormat_fits he hf
  | mdioRd a p v => exact execMdioRd_fits he hf
  | mdioWr a p v => exact execMdioWr_fits he hf

/-- An outcome that is a next state is the one `exec_fits` speaks of. -/
theorem FitStep.move {o : Host.Outcome State Fault Refusal} (h : FitStep i e s o) (ho : o = .next t) :
    FitMove i e s t := by
  obtain ⟨u, hu, hmove⟩ := h
  cases ho.symm.trans hu
  exact hmove

/-! ## The completions (60 R242) -/

/-- A code and phase that command i can be about to finish with. -/
def canEnd (i : Instr) (q : Code × Phase) : Prop :=
  q = (.ok, .none)
    ∨ (q.1 = .timeout ∧ q.2 ≠ .none ∧ i ≠ .nop ∧ ∀ c l d, i ≠ .format c l d)
    ∨ (q = (.badArg, .none) ∧ (i = .wait ∨ ∃ c l d, i = .format c l d))

theorem Completion.forall_among {k : Completion} {l : List (Code × Phase)} {P : Code × Phase → Prop}
    (h : k.among l = true) (hP : ∀ q ∈ l, P q) : P (k.code, k.phase) :=
  hP _ (of_decide_eq_true h)

theorem canEnd_of_fits {k : Completion} (hf : posFits m i (e.ends k) = true) : canEnd i (k.code, k.phase) := by
  cases i with
  | nop => cases hf
  | wait => exact Completion.forall_among (P := canEnd _) (posFits_wait_ends.1 hf).1 (by simp [waitEnds, canEnd])
  | mode a mode => exact Completion.forall_among (P := canEnd _) (posFits_mode_ends.1 hf).1 (by simp [modeEnds, canEnd])
  | format c l d => exact Completion.forall_among (P := canEnd _) (l := formatEnds) hf (by simp [formatEnds, canEnd])
  | mdioRd a p v => exact Completion.forall_among (P := canEnd _) (l := mdioEnds) hf (by simp [mdioEnds, canEnd])
  | mdioWr a p v => exact Completion.forall_among (P := canEnd _) (l := mdioEnds) hf (by simp [mdioEnds, canEnd])

/-- How a step that ends a command from a position that fits has ended it: by its `finish`, or at a bus error. -/
theorem FitMove.ended (h : FitMove i e s t) (he : s.engine = some e) (ht : t.engine = none) :
    (∃ k, canEnd i (k.code, k.phase) ∧ (∀ a mode, i = .mode a mode → posFits s.params i (e.ends k) = true)
        ∧ t = Machine.finish (some i) k s)
      ∨ (i ≠ .nop ∧ s.busFails = true
        ∧ t = Machine.finish (some i) Machine.busError { s with env := s.env.took }) := by
  cases h with
  | hold x hp => simp [he] at ht
  | finish k hk =>
    refine .inl ⟨k, ?_, ?_, rfl⟩
    · rcases hk with ⟨rfl, rfl⟩ | ⟨-, hk⟩
      · exact .inl rfl
      · exact canEnd_of_fits hk
    · rintro a mode rfl
      simpa using hk
  | busError hi hb => exact .inr ⟨hi, hb, rfl⟩
  | access e' x c hx he' hc => cases ht

/-! ## The invariant through each agent's step -/

/-- What StateInv says of STATUS. -/
structure StatusInv (c : Csrs) : Prop where
  err   : c.err = true → c.code ≠ .ok
  phase : c.phase = .none ↔ c.code ≠ .timeout

/-- `finish` sets STATUS as 60 R244 says. -/
theorem StatusInv.finish {k : Completion} (hk : k.phase = .none ↔ k.code ≠ .timeout) (c : Csrs) (i : Option Instr) :
    StatusInv ((c.finish k).shadow i k.code) :=
  ⟨by simp, by simpa using hk⟩

theorem canEnd_phase {k : Completion} (h : canEnd i (k.code, k.phase)) : k.phase = .none ↔ k.code ≠ .timeout := by
  rcases h with h | ⟨hc, hp, -⟩ | ⟨h, -⟩
  · simp [(Prod.mk.inj h).1, (Prod.mk.inj h).2]
  · simp_all
  · simp [(Prod.mk.inj h).1, (Prod.mk.inj h).2]

/-- An IDLE state meets the invariant when its parameters, address spaces and STATUS do. -/
theorem StateInv.of_idle (hp : s.params.wf) (hm : Memory.wf s.env.mem = true) (hr : Registers.wf s.env.regs = true)
    (hs : StatusInv s.csr) (he : s.engine = none) : StateInv s where
  params := hp
  mem := hm
  regs := hr
  busy := fun h => by simp [State.busy, he] at h
  err := hs.err
  phase := hs.phase
  engine := fun e h => by simp [he] at h

/-- A change of STATUS that touches none of these, of the host's answer or of the schedule. -/
theorem StateInv.of_same (h : StateInv s) (hp : t.params = s.params) (hm : Memory.wf t.env.mem = true)
    (hr : Registers.wf t.env.regs = true) (hd : t.csr.done = true → s.csr.done = true)
    (he : t.csr.err = true → s.csr.err = true) (hc : t.csr.code = s.csr.code) (hph : t.csr.phase = s.csr.phase)
    (hb : t.engine.isSome = s.engine.isSome) (heng : ∀ e, t.engine = some e → engineFits s.params e = true) :
    StateInv t where
  params := hp ▸ h.params
  mem := hm
  regs := hr
  busy := by
    intro hbusy
    obtain ⟨h1, h2, h3, h4⟩ := h.busy (hb.symm.trans hbusy)
    exact ⟨by simpa [h1] using hd, by simpa [h2] using he, hc.trans h3, hph.trans h4⟩
  err := fun herr => hc ▸ h.err (he herr)
  phase := by rw [hph, hc]; exact h.phase
  engine := hp ▸ heng

/-- A valid access keeps the canonical forms. -/
theorem Access.effect_wf {v : Env} {a : Access} (hx : a.valid) (hm : Memory.wf v.mem = true)
    (hr : Registers.wf v.regs = true) :
    Memory.wf (v.effect a).mem = true ∧ Registers.wf (v.effect a).regs = true := by
  cases a with
  | r32 a w => exact ⟨hm, hr⟩
  | w32 a w => exact ⟨hm, Registers.wf_put _ _ _ hr ((regFault_none_iff a).1 hx)⟩
  | memRead pa w => exact ⟨hm, hr⟩
  | memWrite pa w => exact ⟨Memory.wf_store8 _ _ _ hm ((memFault_none_iff pa).1 hx).2, hr⟩

/-- The read of a poll and its tick wait fit alike. -/
theorem posFits_pollRead (hp : e.pos = .pollTick x) : posFits m i (e.goto (.pollRead x)) = posFits m i e := by
  cases i <;> cases x <;> simp only [posFits, nopFits, waitFits, modeFits, formatFits, mdioRdFits, mdioWrFits, hp,
    Engine.goto_pos] <;> rfl

/-- A tick leaves the engine at a position that fits. -/
theorem engineFits_ticked (h : engineFits m e = true) : engineFits m e.ticked = true := by
  by_cases hp : ∃ x, e.pos = .pollTick x
  · obtain ⟨x, hp⟩ := hp
    have hgoto : e.ticked = e.goto (.pollRead x) := Engine.ticked_pollTick hp
    rw [hgoto]
    unfold engineFits at h ⊢
    rw [Engine.goto_snap]
    split at h <;> rename_i hd
    · simp [nopFits, hp] at h
    · exact (posFits_pollRead hp).trans h
  · rwa [Engine.ticked_of_ne (not_exists.1 hp)]

/-- Every move from a position that fits keeps the invariant. -/
theorem FitMove.inv (h : StateInv s) (he : s.engine = some e) (hd : decode e.snap.cmd = .ok i)
    (hmove : FitMove i e s t) : StateInv t := by
  cases hmove with
  | hold x hp => exact h
  | finish k hk =>
    have hphase : k.phase = .none ↔ k.code ≠ .timeout := by
      rcases hk with ⟨-, rfl⟩ | ⟨-, hk⟩
      · simp [okWith]
      · exact canEnd_phase (canEnd_of_fits hk)
    exact .of_idle h.params h.mem h.regs (.finish hphase _ _) rfl
  | busError _ _ => exact .of_idle h.params h.mem h.regs (.finish (k := Machine.busError) (by decide) _ _) rfl
  | access e' x c hx he' hc =>
    obtain ⟨hm, hr⟩ := Access.effect_wf (v := s.env.performed .engine x) hx h.mem h.regs
    refine h.of_same rfl hm hr ?_ ?_ ?_ ?_ (by simp [he]) ?_
    · rcases hc with rfl | rfl <;> exact id
    · rcases hc with rfl | rfl <;> exact id
    · rcases hc with rfl | rfl <;> rfl
    · rcases hc with rfl | rfl <;> rfl
    · rintro _ ⟨⟩
      simp only [engineFits, he'.snap, hd]
      exact he'.fits

/-- The engine's turn keeps the invariant. -/
theorem engineStep_inv (h : StateInv s) (hstep : engineStep s = .next t) : StateInv t := by
  cases he : s.engine with
  | none => exact engineStep_idle he hstep ▸ h
  | some e =>
    have hf := h.engine e he
    rcases engineStep_busy he hstep with ⟨x, -, rfl⟩ | ⟨i, hd, hexec⟩
    · exact .of_idle h.params h.mem h.regs (.finish (k := illegalCommand) (by decide) s.csr none) rfl
    · simp only [engineFits, hd] at hf
      exact FitMove.inv h he hd ((exec_fits he hf).move hexec)

/-- A write of a CSR keeps the invariant. -/
theorem writeCsr_inv (h : StateInv s) (n : CsrName) (w : Word) : StateInv (writeCsr n w s) := by
  by_cases hidle : n = .cmd ∧ s.engine = none
  · obtain ⟨rfl, he⟩ := hidle
    simp only [writeCsr, writeCmd_idle he]
    refine ⟨h.params, h.mem, h.regs, fun _ => ⟨rfl, rfl, rfl, rfl⟩, by simp, by simp, ?_⟩
    rintro _ ⟨⟩
    unfold engineFits
    split
    · rfl
    · rename_i i _
      cases i <;> rfl
  · have heng : (writeCsr n w s).engine = s.engine := by
      refine writeCsr_engine n w s ?_
      rwa [Option.isSome_iff_ne_none, ← not_and_or]
    have hm : Memory.wf (writeCsr n w s).env.mem = true := by simpa using h.mem
    have hr : Registers.wf (writeCsr n w s).env.regs = true := by simpa using h.regs
    refine h.of_same (writeCsr_params n w s) hm hr ?_ ?_ ?_ ?_ (by rw [heng]) (by rw [heng]; exact h.engine)
    all_goals
      rcases writeCsr_csr n w s with ⟨hn, he, -⟩ | ⟨-, -, hc⟩ | ⟨-, hc⟩ | ⟨-, hc⟩ | ⟨-, u, hc⟩
      · exact absurd ⟨hn, he⟩ hidle
      all_goals simp +contextual [hc]

/-- The host's answer and the schedule are no part of the invariant. -/
theorem StateInv.with_host_inputs (h : StateInv s) (r : HostReply) (l : List Event) :
    StateInv { s with host := r, inputs := l } :=
  ⟨h.params, h.mem, h.regs, h.busy, h.err, h.phase, h.engine⟩

theorem hostTarget_inv {a : TargetAccess} (h : StateInv s) (hstep : hostTarget a s = .next t) : StateInv t := by
  obtain ⟨hp, hc, he, -⟩ := hostTarget_frame hstep
  have hwf : Memory.wf t.env.mem = true ∧ Registers.wf t.env.regs = true := by
    unfold hostTarget at hstep
    split at hstep <;> split at hstep <;> cases hstep
    · exact ⟨h.mem, h.regs⟩
    · exact Access.effect_wf (a := .w32 _ _) ‹_› h.mem h.regs
    · exact ⟨h.mem, h.regs⟩
    · exact Access.effect_wf (a := .memWrite _ _) ‹_› h.mem h.regs
  exact h.of_same hp hwf.1 hwf.2 (by rw [hc]; exact id) (by rw [hc]; exact id) (by rw [hc]) (by rw [hc]) (by rw [he])
    (by rw [he]; exact h.engine)

theorem environment_inv {c : TargetChange} (h : StateInv s) (hstep : environment c s = .next t) : StateInv t := by
  obtain ⟨hp, hc, he, -⟩ := environment_frame hstep
  have hwf : Memory.wf t.env.mem = true ∧ Registers.wf t.env.regs = true := by
    unfold environment at hstep
    split at hstep <;> split at hstep <;> cases hstep
    · exact Access.effect_wf (a := .w32 _ _) ‹_› h.mem h.regs
    · exact ⟨Memory.wf_put _ _ _ h.mem ‹_›, h.regs⟩
  exact h.of_same hp hwf.1 hwf.2 (by rw [hc]; exact id) (by rw [hc]; exact id) (by rw [hc]) (by rw [hc]) (by rw [he])
    (by rw [he]; exact h.engine)

theorem tick_inv (h : StateInv s) : StateInv (tick s) := by
  refine h.of_same (tick_params s) (by simpa using h.mem) (by simpa using h.regs) ?_ ?_ ?_ ?_ (by simp) ?_
  · simp
  · simp
  · simp
  · simp
  · intro f hf
    rw [tick_engine, Option.map_eq_some_iff] at hf
    obtain ⟨e, he, rfl⟩ := hf
    exact engineFits_ticked (h.engine e he)

/-- Every event keeps the invariant. -/
theorem eventStep_inv {x : Event} (h : StateInv s) (hstep : eventStep x s = .next t) : StateInv t := by
  cases x with
  | engine => exact engineStep_inv h hstep
  | hostRead addr size =>
    cases hstep
    obtain ⟨r, hr⟩ := hostRead_frame addr size s
    exact hr ▸ h.with_host_inputs r s.inputs
  | hostWrite addr size w =>
    cases hstep
    rcases hostWrite_cases addr size w s with ⟨r, hr⟩ | ⟨off, -, -, -, -, hr⟩ <;> rw [hr]
    · exact h.with_host_inputs r s.inputs
    · exact (writeCsr_inv h (csrAt off) w).with_host_inputs .none _
  | hostTarget a => exact hostTarget_inv h hstep
  | environment c => exact environment_inv h hstep
  | tick =>
    cases hstep
    exact tick_inv h
  | reset =>
    cases hstep
    exact .of_idle h.params h.mem h.regs ⟨by simp [Csrs.reset], by simp [Csrs.reset]⟩ rfl

end Sys2Proof.Machine

/-- Settles O57: each event keeps the invariant. -/
theorem everyStepKeepsTheInvariant : Obligations.EveryStepKeepsTheInvariant := by
  intro s t h hstep
  rcases step_cases hstep with ⟨-, hengine⟩ | ⟨x, rest, -, hevent⟩
  · exact engineStep_inv h hengine
  · exact eventStep_inv (h.with_host_inputs s.host rest) hevent

/-- Settles O56: right after reset nothing is listed, nothing runs and STATUS is 0. -/
theorem resetStateMeetsTheInvariant : Obligations.ResetStateMeetsTheInvariant := by
  refine .of_idle ?_ rfl rfl ⟨by simp [State.reset, Csrs.reset], by simp [State.reset, Csrs.reset]⟩ rfl
  have hlt := Config.chainsAboveTwo.isLt
  have hn : State.reset.params.numChains = Config.chainsAboveTwo.val + 2 := rfl
  unfold Params.wf
  omega

/-- Settles O58: from a position that fits, a command answers a next state; any other turn does so always. -/
theorem engineNeverFaults : Obligations.EngineNeverFaults := by
  intro s h
  cases he : s.engine with
  | none => exact ⟨s, by simp only [engineStep, he]⟩
  | some e =>
    have hf := h.engine e he
    cases hd : decode e.snap.cmd with
    | error x => exact ⟨_, engineStep_unselected he hd⟩
    | ok i =>
      simp only [engineFits, hd] at hf
      obtain ⟨t, ht, -⟩ := exec_fits he hf
      exact ⟨t, (engineStep_selected he hd).trans ht⟩

/-- Settles O27: a command ends by its `finish`, with a completion that fits it, at a bus error, or unselected. -/
theorem completionCodesHaveTheirCauses : Obligations.CompletionCodesHaveTheirCauses := by
  intro s t e h he hstep ht
  have hf := h.engine e he
  rcases engineStep_busy he hstep with ⟨x, hd, rfl⟩ | ⟨i, hd, hexec⟩
  · simp [hd, illegalCommand]
  · simp only [engineFits, hd] at hf
    rcases ((exec_fits he hf).move hexec).ended he ht with ⟨k, hk, -, rfl⟩ | ⟨hi, hb, rfl⟩
    · rcases hk with hk | ⟨(hc : k.code = .timeout), -, hnop, hformat⟩ | ⟨hk, hi⟩
      · simp [(Prod.mk.inj hk).1, hd]
      · simp [hc, hd, hnop, hformat]
      · simp [(Prod.mk.inj hk).1, hd, hi]
    · have hmay : s.params.busMayError = true := (Bool.and_eq_true_iff.1 hb).1
      simp [busError, hd, hi, hmay]

/-- Settles O39: MODE finishes OK only from a position that holds a status value that matched. -/
theorem modeNeverSucceedsWithoutAMatch : Obligations.ModeNeverSucceedsWithoutAMatch := by
  intro s t e a mode h he hd hstep ht hok
  have hf := h.engine e he
  simp only [engineFits, hd] at hf
  rw [engineStep_selected he hd] at hstep
  rcases ((exec_fits he hf).move hstep).ended he ht with ⟨k, -, hk, rfl⟩ | ⟨-, -, rfl⟩
  · have hcode : k.code = .ok := by simpa using hok
    have hseen := (posFits_mode_ends.1 (hk a mode rfl)).2.resolve_left (by simp [hcode])
    exact (congrArg (· &&& _) (by simp)).trans (of_decide_eq_true hseen)
  · simp [busError] at hok

end

section
/-! PROOFS. Under fair ticks every command finishes (60_exceptions.md R262): each round of an engine turn and a tick
lowers the rank of the engine, or ends the command. -/

open Sys2Proof Sys2Proof.Machine

namespace Sys2Proof.Machine

variable {s t : State} {e : Engine} {x : Site}

/-- A tick that ends a wait lowers the rank. -/
theorem rank_ticked_lt (hp : e.pos = .pollTick x) : e.ticked.rank < e.rank := by
  rw [Engine.ticked_pollTick hp]
  refine rank_lt_of_left rfl ?_ ?_
  · rw [hp]
    cases x <;> rfl
  · simp only [Engine.left, hp, Engine.bound]
    omega

theorem rank_ticked_le (e : Engine) : e.ticked.rank ≤ e.rank := by
  by_cases hp : ∃ x, e.pos = .pollTick x
  · exact Nat.le_of_lt (rank_ticked_lt hp.choose_spec)
  · rw [Engine.ticked_of_ne (not_exists.1 hp)]

/-- The turn of a BUSY engine: the command has finished, or it is nearer to its end, or it waits for the tick. -/
theorem engineStep_progress (h : StateInv s) (he : s.engine = some e) :
    ∃ t, engineStep s = .next t
      ∧ (t.engine = none ∧ t.csr.done = true ∨ ∃ f, t.engine = some f ∧ f.ticked.rank < e.rank) := by
  have hf := h.engine e he
  cases hd : decode e.snap.cmd with
  | error y => exact ⟨_, engineStep_unselected he hd, .inl ⟨rfl, by simp⟩⟩
  | ok i =>
    simp only [engineFits, hd] at hf
    obtain ⟨t, ht, hmove⟩ := exec_fits he hf
    refine ⟨t, (engineStep_selected he hd).trans ht, ?_⟩
    cases hmove with
    | hold x hp => exact .inr ⟨e, he, rank_ticked_lt hp⟩
    | finish k _ => exact .inl ⟨rfl, by simp⟩
    | busError _ _ => exact .inl ⟨rfl, by simp⟩
    | access e' x c _ he' _ => exact .inr ⟨e', rfl, (rank_ticked_le e').trans_lt he'.rank⟩

/-- The engine's turn looks at the schedule nowhere. -/
theorem engineStep_inputs (l : List Event) (h : engineStep s = .next t) :
    engineStep { s with inputs := l } = .next { t with inputs := l } := by
  obtain he | ⟨e, he⟩ := Option.eq_none_or_eq_some s.engine
  · obtain rfl := engineStep_idle he h
    simp only [engineStep, he]
  · rcases engineStep_busy he h with ⟨x, hd, rfl⟩ | ⟨i, hd, hexec⟩
    · exact engineStep_unselected (s := { s with inputs := l }) he hd
    · rw [engineStep_selected (s := { s with inputs := l }) he hd]
      exact exec_inputs l hexec

/-- Nor does a tick. -/
theorem tick_with_inputs (s : State) (l : List Event) :
    tick { s with inputs := l } = { tick s with inputs := l } := by
  obtain ⟨params, csr, engine, env, host, inputs⟩ := s
  cases engine <;> rfl

/-- A round of a fair schedule is the engine's turn and then the tick. -/
theorem run_round {k : Nat} {l : List Event} (h : engineStep s = .next t) :
    Host.Core.run Sys2Proof.core (k + 2) { s with inputs := .engine :: .tick :: l }
      = Host.Core.run Sys2Proof.core k { tick t with inputs := l } := by
  rw [run_event (x := .engine) (engineStep_inputs (.tick :: l) h)]
  exact run_event (x := .tick) (congrArg Host.Outcome.next (tick_with_inputs t l))

/-- From a BUSY state of the invariant enough fair rounds end the command. -/
theorem finishes_under_fairRounds (h : StateInv s) (he : s.engine = some e) :
    ∃ k t, Host.Core.run Sys2Proof.core (2 * k) { s with inputs := fairRounds k } = .next t
      ∧ t.engine = none ∧ t.csr.done = true := by
  induction hr : e.rank using Nat.strong_induction_on generalizing s e with
  | _ n ih =>
    obtain ⟨t, ht, ⟨hidle, hdone⟩ | ⟨f, hf, hlt⟩⟩ := engineStep_progress h he
    · exact ⟨1, { tick t with inputs := [] }, run_round ht, by simp [hidle], by simpa using hdone⟩
    · have hnext : (tick t).engine = some f.ticked := by simp [hf]
      obtain ⟨k, u, hrun, hu⟩ := ih f.ticked.rank (hr ▸ hlt) (tick_inv (engineStep_inv h ht)) hnext rfl
      exact ⟨k + 1, u, (run_round ht).trans hrun, hu⟩

end Sys2Proof.Machine

/-- Settles O59: each fair round lowers the rank of the engine, or ends the command. -/
theorem everyCommandFinishesUnderFairTicks : Obligations.EveryCommandFinishesUnderFairTicks :=
  fun _ _ h he => finishes_under_fairRounds h he

end

section
/-! PROOFS. A whole POLL whose reads fail, in a fair schedule (40_wait.md R130), for any command that polls. -/

open Sys2Proof Sys2Proof.Machine

namespace Sys2Proof.Machine

variable {s t : State} {e f : Engine} {i : Instr} {x : Site} {a : Nat} {mask expected v : Word} {vs : List Word}

/-! ## Answers that are listed -/

/-- A listed answer is the value a register read gives. -/
theorem regValue_scripted {more : List Answer} (h : s.env.answers = scripted [v.setWidth 64] ++ more) (a : Nat) :
    s.env.regValue a = v := by
  have hanswer : s.env.answer = { error := false, data := some (v.setWidth 64) } := by
    rw [Env.answer, h]
    rfl
  rw [Env.regValue, hanswer]
  exact BitVec.setWidth_setWidth_of_le v (by decide)

/-! ## The reads of a poll that fail -/

/-- One more read is counted while the count does not saturate. -/
theorem countPoll_toNat {c : Csrs} (h : c.pollCount.toNat + 1 < 2 ^ 32) :
    c.countPoll.pollCount.toNat = c.pollCount.toNat + 1 := by
  have hne : c.pollCount ≠ 0xFFFFFFFF := by
    intro hmax
    simp [hmax] at h
  rw [Csrs.countPoll_pollCount, if_neg hne, BitVec.toNat_add]
  exact Nat.mod_eq_of_lt h

/-- From s with engine e to t with engine f, the engine has read the values vs at a, in order, and nothing else has
happened to the position or the targets. -/
structure ReadsAt (a : Nat) (vs : List Word) (s : State) (e : Engine) (t : State) (f : Engine) : Prop where
  engine  : t.engine = some f
  snap    : f.snap = e.snap
  pos     : f.pos = e.pos
  n       : f.n = e.n + vs.length
  params  : t.params = s.params
  count   : s.csr.pollCount.toNat + vs.length < 2 ^ 32 → t.csr.pollCount.toNat = s.csr.pollCount.toNat + vs.length
  answers : ∀ more, s.env.answers = scripted (vs.map (BitVec.setWidth 64)) ++ more → t.env.answers = more
  mem     : t.env.mem = s.env.mem
  regs    : t.env.regs = s.env.regs
  history : t.env.history = (vs.map fun v => (Master.engine, Access.r32 a v)).reverse ++ s.env.history

/-- The engine after a read that failed and the tick after it. -/
def Engine.failedOnce (e : Engine) (v : Word) (x : Site) : Engine := (e.counted v).goto (.pollRead x)

/-- The state after a read at a that failed and the tick after it. -/
def State.failedOnce (s : State) (e : Engine) (v : Word) (x : Site) (a : Nat) : State :=
  { s with csr := s.csr.countPoll, env := s.env.performed .engine (.r32 a v), engine := some (e.failedOnce v x) }

/-- A poll read that fails before the last one: to the tick wait. -/
theorem polled_fails {g : Engine → Engine} (hv : v &&& mask ≠ expected) (hn : e.n + 1 < e.bound) :
    e.polled x mask expected g v = (e.counted v).goto (.pollTick x) := by
  rw [Engine.polled, if_neg hv, if_pos hn]

/-- One failing read and the tick after it, in a run. -/
theorem run_failedOnce {g : Engine → Engine} {k : Nat} {l : List Event} (he : s.engine = some e)
    (hd : decode e.snap.cmd = .ok i) (ha : regFault a = none) (hb : s.params.busMayError = false)
    (hexec : exec i s = pollRound i e x a mask expected g s) (hr : s.env.regValue a = v) (hv : v &&& mask ≠ expected)
    (hn : e.n + 1 < e.bound) :
    Host.Core.run Sys2Proof.core (k + 2) { s with inputs := .engine :: .tick :: l }
      = Host.Core.run Sys2Proof.core k { s.failedOnce e v x a with inputs := l } := by
  rw [pollRound_done ha (busFails_of_not_may hb), hr, polled_fails hv hn] at hexec
  rw [run_engine he hd hexec, run_tick (e := (e.counted v).goto (.pollTick x)) rfl]
  rfl

/-- The reads vs of a poll fail, with a tick after each: the poll is at its next read. -/
theorem run_reads_fail {g : Engine → Engine} (p : Snapshot) (hd : decode p.cmd = .ok i) (ha : regFault a = none)
    (hexec : ∀ (s : State) (e : Engine), s.engine = some e → e.snap = p → e.pos = .pollRead x →
      exec i s = pollRound i e x a mask expected g s) :
    ∀ (vs : List Word) (s : State) (e : Engine) (more : List Answer), s.engine = some e → e.snap = p →
      e.pos = .pollRead x → s.params.busMayError = false → (∀ v ∈ vs, v &&& mask ≠ expected) →
      e.n + vs.length < e.bound → s.env.answers = scripted (vs.map (BitVec.setWidth 64)) ++ more →
      ∃ t f, ReadsAt a vs s e t f ∧ ∀ k l,
        Host.Core.run Sys2Proof.core (2 * vs.length + k) { s with inputs := fairRounds vs.length ++ l }
          = Host.Core.run Sys2Proof.core k { t with inputs := l } := by
  intro vs
  induction vs with
  | nil =>
    intro s e more he hs hp hb hv hn hans
    refine ⟨s, e, ⟨he, rfl, rfl, rfl, rfl, fun _ => rfl, fun _ h => h, rfl, rfl, rfl⟩, fun k l => ?_⟩
    simp [fairRounds]
  | cons v vs ih =>
    intro s e more he hs hp hb hv hn hans
    simp only [List.length_cons] at hn
    have hr : s.env.regValue a = v := regValue_scripted (more := scripted (vs.map (BitVec.setWidth 64)) ++ more) hans a
    have hans' : (s.failedOnce e v x a).env.answers = scripted (vs.map (BitVec.setWidth 64)) ++ more := by
      simp [State.failedOnce, hans, scripted]
    obtain ⟨t, f, hreads, hrun⟩ := ih (s.failedOnce e v x a) (e.failedOnce v x) more rfl hs rfl hb
      (fun w hw => hv w (List.mem_cons_of_mem v hw)) (by simp [Engine.failedOnce]; omega) hans'
    refine ⟨t, f, ⟨hreads.engine, hreads.snap, ?_, ?_, hreads.params, ?_, ?_, hreads.mem, hreads.regs, ?_⟩,
      fun k l => ?_⟩
    · rw [hreads.pos, hp]
      rfl
    · rw [hreads.n]
      simp [Engine.failedOnce]
      omega
    · intro hc
      simp only [List.length_cons] at hc ⊢
      have h1 : s.csr.countPoll.pollCount.toNat = s.csr.pollCount.toNat + 1 := countPoll_toNat (by omega)
      have h2 := hreads.count
      simp only [State.failedOnce] at h2
      omega
    · intro more' h
      refine hreads.answers more' ?_
      simp [State.failedOnce, h, scripted]
    · rw [hreads.history]
      simp [State.failedOnce]
    · rw [← hrun k l, ← run_failedOnce he (hs ▸ hd) ha hb (hexec s e he hs hp) hr (hv v (by simp)) (by omega)]
      congr 1
      simp only [List.length_cons]
      omega

end Sys2Proof.Machine

end

section
/-! PROOFS. NOP and WAIT (40_wait.md): the checks, the poll round, and whole runs. -/

open Sys2Proof Sys2Proof.Machine

namespace Sys2Proof.Machine

variable {s t : State} {e f : Engine} {v : Word}

/-! ## NOP (R145) -/

theorem exec_nop_start (he : s.engine = some e) (hp : e.pos = .start) :
    exec .nop s = .next (finish (some .nop) (okWith 0) s) := by
  simp only [exec, execNop, running_some he, hp]

/-- The engine's turn after NOP is accepted. -/
theorem step_nop {w : Word} {u : Setup} {l : List Event} (hd : decode w = .ok .nop)
    (he : s.engine = some (Engine.accepted w u)) (hl : s.inputs = .engine :: l) :
    step s = .next (finish (some .nop) (okWith 0) { s with inputs := l }) := by
  rw [step_event hl]
  exact (engineStep_selected (s := { s with inputs := l }) he hd).trans (exec_nop_start (s := { s with inputs := l }) he rfl)

/-- STATUS of an IDLE engine after an OK completion: DONE alone, OVERRUN apart. -/
theorem statusWord_ok (he : s.engine = none) (hd : s.csr.done = true) (herr : s.csr.err = false)
    (hc : s.csr.code = .ok) (hp : s.csr.phase = .none) :
    s.statusWord = if s.csr.overrun then 0x0000000A else 0x00000002 := by
  simp only [State.statusWord, State.busy, he, hd, herr, hc, hp]
  cases s.csr.overrun <;> decide

/-! ## WAIT's step, position by position -/

theorem exec_wait_pollRead (he : s.engine = some e) (hf : waitEntry e = f) (hp : f.pos = .pollRead .single) :
    exec .wait s = pollRound .wait f .single e.snap.waitAddr.toNat e.snap.waitMask e.snap.waitExpected
      (fun g => g.ends (okWith g.last)) s := by
  simp only [exec, execWait, running_some he, hf, hp]

theorem exec_wait_finish (he : s.engine = some e) (hf : waitEntry e = f) (hp : f.pos = .finish) :
    exec .wait s = .next (finish (some .wait) f.out s) := by
  simp only [exec, execWait, running_some he, hf, hp]

theorem waitEntry_of_ne_start (h : e.pos ≠ .start) : waitEntry e = e := by
  unfold waitEntry
  split
  · exact absurd ‹_› h
  · rfl

theorem waitEntry_misaligned (hp : e.pos = .start) (ha : e.snap.waitAligned = false) :
    waitEntry e = e.ends badArgument := by
  simp [waitEntry, hp, ha]

theorem waitEntry_aligned (hp : e.pos = .start) (ha : e.snap.waitAligned = true) :
    waitEntry e = e.enterPoll .single := by
  simp [waitEntry, hp, ha]

/-- R140's alignment check, as a mask. -/
theorem waitAligned_iff_and (p : Snapshot) : p.waitAligned = true ↔ p.setup.args.arg0 &&& 0x3 = 0 := by
  rw [waitAligned_iff, ← BitVec.toNat_inj, BitVec.toNat_and]
  exact Eq.congr_left (Nat.and_two_pow_sub_one_eq_mod _ 2).symm

/-- WAIT's poll round, in full, when the bus completes. -/
theorem exec_wait_round (he : s.engine = some e) (hp : e.pos = .pollRead .single) (hb : s.busFails = false)
    (ha : e.snap.setup.args.arg0 &&& 0x3 = 0) (hv : v = s.env.regValue e.snap.setup.args.arg0.toNat) :
    exec .wait s = .next { s with
      csr := s.csr.countPoll
      env := s.env.performed .engine (.r32 e.snap.setup.args.arg0.toNat v)
      engine := some (e.polled .single e.snap.waitMask e.snap.waitExpected (fun g => g.ends (okWith g.last)) v) } := by
  subst hv
  rw [exec_wait_pollRead he (waitEntry_of_ne_start (by simp [hp])) hp,
    pollRound_done (waitAddr_ok ((waitAligned_iff_and _).2 ha)) hb]
  rfl

theorem bound_pos (h : e.snap.setup.timeout ≠ 0) : 0 < e.bound := by
  have hne : e.snap.setup.timeout.toNat ≠ 0 := fun h0 => h (BitVec.eq_of_toNat_eq h0)
  unfold Engine.bound
  omega

/-- The engine at the first read of a poll. -/
def Engine.firstRead (e : Engine) (x : Site) : Engine := { e with pos := .pollRead x, n := 0, last := 0 }

@[simp] theorem Engine.firstRead_bound (e : Engine) (x : Site) : (e.firstRead x).bound = e.bound := rfl
@[simp] theorem Engine.firstRead_snap (e : Engine) (x : Site) : (e.firstRead x).snap = e.snap := rfl
@[simp] theorem Engine.firstRead_n (e : Engine) (x : Site) : (e.firstRead x).n = 0 := rfl

/-- A poll is entered at its first read when T > 0. -/
theorem enterPoll_of_pos {x : Site} (hT : 0 < e.bound) : e.enterPoll x = e.firstRead x := if_pos hT

/-- Past its checks and with T > 0, WAIT's first step is its first poll read. -/
theorem exec_wait_first (he : s.engine = some e) (hp : e.pos = .start) (ha : e.snap.setup.args.arg0 &&& 0x3 = 0)
    (hT : 0 < e.bound) : exec .wait s = exec .wait { s with engine := some (e.firstRead .single) } := by
  have hentry : waitEntry e = e.firstRead .single := by
    rw [waitEntry_aligned hp ((waitAligned_iff_and _).2 ha), enterPoll_of_pos hT]
  rw [exec_wait_pollRead he hentry rfl,
    exec_wait_pollRead (e := e.firstRead .single) rfl (waitEntry_of_ne_start (by simp [Engine.firstRead])) rfl]
  exact (pollRound_engine ..).symm

/-! ## Whole WAITs -/

/-- A run's schedule of fair rounds and then the engine alone begins with the engine. -/
theorem fairRounds_append_engine (n k : Nat) : ∃ l, fairRounds n ++ engineOnly (k + 1) = .engine :: l := by
  cases n <;> exact ⟨_, rfl⟩

/-- In a run, WAIT's first step is the one from its first poll read. -/
theorem run_wait_first {k : Nat} {l : List Event} (he : s.engine = some e) (hd : decode e.snap.cmd = .ok .wait)
    (hp : e.pos = .start) (ha : e.snap.setup.args.arg0 &&& 0x3 = 0) (hT : 0 < e.bound)
    (hb : s.params.busMayError = false) :
    Host.Core.run Sys2Proof.core (k + 1) { s with inputs := .engine :: l }
      = Host.Core.run Sys2Proof.core (k + 1) { s with engine := some (e.firstRead .single), inputs := .engine :: l } := by
  have hround := exec_wait_round (s := { s with engine := some (e.firstRead .single) }) (e := e.firstRead .single) rfl rfl
    (busFails_of_not_may hb) ha rfl
  rw [run_engine he hd ((exec_wait_first he hp ha hT).trans hround)]
  exact (run_engine (s := { s with engine := some (e.firstRead .single) }) (e := e.firstRead .single) rfl hd hround).symm

/-- WAIT at a read that is its last one: in two turns of the engine it has finished with k. -/
theorem run_wait_last {k : Completion} (he : s.engine = some e) (hd : decode e.snap.cmd = .ok .wait)
    (hp : e.pos = .pollRead .single) (ha : e.snap.setup.args.arg0 &&& 0x3 = 0) (hb : s.params.busMayError = false)
    (hv : v = s.env.regValue e.snap.setup.args.arg0.toNat)
    (hk : e.polled .single e.snap.waitMask e.snap.waitExpected (fun g => g.ends (okWith g.last)) v
      = (e.counted v).ends k) :
    Host.Core.run Sys2Proof.core 2 { s with inputs := engineOnly 2 } = .next { s with
      csr := (s.csr.countPoll.finish k)
      env := s.env.performed .engine (.r32 e.snap.setup.args.arg0.toNat v)
      engine := none, inputs := [] } := by
  have hround := exec_wait_round he hp (busFails_of_not_may hb) ha hv
  rw [hk] at hround
  refine (run_engine (l := [.engine]) he hd hround).trans ?_
  exact run_engine (l := []) (k := 0) (e := (e.counted v).ends k) rfl hd
    (exec_finish (e := (e.counted v).ends k) (by simp) rfl rfl)

/-- WAIT reads the values vs, which fail, in fair rounds, and then one more, with which it ends. -/
theorem run_wait {k : Completion} {more : List Answer} (vs : List Word) (he : s.engine = some e)
    (hp : e.pos = .start) (hd : decode e.snap.cmd = .ok .wait) (hb : s.params.busMayError = false)
    (hc : s.csr.pollCount = 0) (ha : e.snap.setup.args.arg0 &&& 0x3 = 0) (hT : vs.length < e.bound)
    (hvs : ∀ v ∈ vs, v &&& e.snap.setup.args.arg1 ≠ e.snap.setup.args.arg2)
    (hans : s.env.answers = scripted ((vs ++ [v]).map (BitVec.setWidth 64)) ++ more)
    (hk : ∀ f : Engine, f.snap = e.snap → f.n = vs.length →
      f.polled .single e.snap.waitMask e.snap.waitExpected (fun g => g.ends (okWith g.last)) v = (f.counted v).ends k) :
    ∃ t, Host.Core.run Sys2Proof.core (2 * vs.length + 2)
        { s with inputs := fairRounds vs.length ++ engineOnly 2 } = .next t
      ∧ t.engine = none ∧ t.csr.done = true ∧ t.csr.err = decide (k.code ≠ .ok) ∧ t.csr.code = k.code
      ∧ t.csr.phase = k.phase ∧ t.csr.result = k.result ∧ t.csr.pollCount = BitVec.ofNat 32 (vs.length + 1)
      ∧ t.env.mem = s.env.mem ∧ t.env.regs = s.env.regs
      ∧ t.env.history
          = ((vs ++ [v]).map fun v => (Master.engine, Access.r32 e.snap.setup.args.arg0.toNat v)).reverse
            ++ s.env.history := by
  have hexec : ∀ (s : State) (f : Engine), s.engine = some f → f.snap = e.snap → f.pos = .pollRead .single →
      exec .wait s = pollRound .wait f .single e.snap.waitAddr.toNat e.snap.waitMask e.snap.waitExpected
        (fun g => g.ends (okWith g.last)) s := fun s f hf hs hpos =>
    hs ▸ exec_wait_pollRead hf (waitEntry_of_ne_start (by simp [hpos])) hpos
  rw [List.map_append, scripted, List.map_append, List.append_assoc] at hans
  obtain ⟨t, f, hreads, hrun⟩ := run_reads_fail e.snap hd (waitAddr_ok ((waitAligned_iff_and _).2 ha)) hexec vs
    { s with engine := some (e.firstRead .single) } (e.firstRead .single) (scripted [v.setWidth 64] ++ more) rfl rfl rfl hb
    hvs (by simpa using hT) hans
  obtain ⟨l, hl⟩ := fairRounds_append_engine vs.length 1
  have hfirst := run_wait_first (k := 2 * vs.length + 1) (l := l) he hd hp ha (Nat.zero_lt_of_lt hT) hb
  have hfails := hrun 2 (engineOnly 2)
  rw [hl] at hfails ⊢
  have hsnap : f.snap = e.snap := hreads.snap
  have hn : f.n = vs.length := by simpa using hreads.n
  have hv : v = t.env.regValue e.snap.setup.args.arg0.toNat :=
    (regValue_scripted (hreads.answers _ hans) _).symm
  rw [← hsnap] at hv hd ha hk
  have hlast := run_wait_last hreads.engine hd hreads.pos ha (hreads.params ▸ hb) hv (hk f rfl hn)
  refine ⟨_, hfirst.trans (hfails.trans hlast), rfl, rfl, rfl, rfl, rfl, rfl, ?_, hreads.mem, hreads.regs, ?_⟩
  · have hlt := e.snap.setup.timeout.isLt
    have hcount := hreads.count
    simp only [hc, BitVec.ofNat_eq_ofNat, BitVec.toNat_ofNat, Nat.zero_mod, Nat.zero_add] at hcount
    have hcount' := hcount (Nat.lt_trans hT hlt)
    have hmax : vs.length + 1 < 2 ^ 32 := by unfold Engine.bound at hT; omega
    apply BitVec.eq_of_toNat_eq
    rw [BitVec.toNat_ofNat, Nat.mod_eq_of_lt hmax]
    exact (countPoll_toNat (hcount'.symm ▸ hmax)).trans (congrArg (· + 1) hcount')
  · simp [hreads.history, hsnap, Snapshot.waitAddr]

end Sys2Proof.Machine

/-- Settles O29: NOP's one step is its `finish`, and acceptance cleared STATUS and POLL_COUNT before it. -/
theorem nopFinishesOk : Obligations.NopFinishesOk := by
  refine ⟨fun s e he hp => ?_, fun s he => ?_⟩
  · rw [exec_nop_start he hp, finish_eq_of_not_mode (by simp)]
    rfl
  · rw [run_step (step_hostWrite_cmd (rest := [.engine]) rfl), writeCmd_idle (s := { s with inputs := [.engine] }) he,
      run_step (step_nop (w := 0) (u := s.csr.setup) rfl rfl rfl)]
    exact ⟨_, rfl, rfl, rfl, rfl, statusWord_ok rfl rfl rfl rfl rfl, Bool.true_and _⟩

/-- Settles O30: the entry of WAIT ends it, ends its poll at once, or enters the poll. -/
theorem waitStartsWithItsChecks : Obligations.WaitStartsWithItsChecks := by
  intro s e he hp
  refine ⟨fun ha => ?_, fun ha hT => ?_, fun ha hT => exec_wait_first he hp ha (bound_pos hT)⟩
  · have hal : e.snap.waitAligned = false := by simpa using mt (waitAligned_iff_and _).1 ha
    rw [exec_wait_finish he (waitEntry_misaligned hp hal) rfl, finish_eq_of_not_mode (by simp)]
    rfl
  · have hb : e.bound = 0 := by simp [Engine.bound, hT]
    have hentry : waitEntry e = Engine.ends { e with n := 0, last := 0 } (timeoutAt .single 0) := by
      rw [waitEntry_aligned hp ((waitAligned_iff_and _).2 ha), Engine.enterPoll, if_neg (by omega)]
      rfl
    rw [exec_wait_finish he hentry rfl, finish_eq_of_not_mode (by simp)]
    rfl

/-- Settles O31: WAIT's poll round is POLL's. -/
theorem waitPollRoundFollowsThePseudocode : Obligations.WaitPollRoundFollowsThePseudocode := by
  intro s e v he hp hb ha hv
  exact exec_wait_round he hp hb ha hv

/-- Settles O32: a matching read leaves WAIT about to finish with it. -/
theorem waitCompletesOnAMatchingRead : Obligations.WaitCompletesOnAMatchingRead := by
  intro s e v he hp hb ha hv hmatch
  refine ⟨_, exec_wait_round he hp hb ha hv, ?_⟩
  have hpolled : e.polled .single e.snap.waitMask e.snap.waitExpected (fun g => g.ends (okWith g.last)) v
      = (e.counted v).ends (okWith v) := if_pos hmatch
  rw [hpolled, exec_finish (e := (e.counted v).ends (okWith v)) (by simp) rfl rfl, finish_eq_of_not_mode (by simp)]
  rfl

/-- Settles O33: the failing reads, and then the one that matches. -/
theorem waitFinishesAtTheFirstMatch : Obligations.WaitFinishesAtTheFirstMatch := by
  intro s e bad good more he hp hd hb hc ha hT hbad hgood hans
  have hk (f : Engine) (_ : f.snap = e.snap) (_ : f.n = bad.length) :
      f.polled .single e.snap.waitMask e.snap.waitExpected (fun g => g.ends (okWith g.last)) good
        = (f.counted good).ends (okWith good) := if_pos hgood
  exact run_wait bad he hp hd hb hc ha hT hbad hans hk

/-- Settles O34: the failing reads, and then the last one that T allows. -/
theorem waitTimesOutAfterTReads : Obligations.WaitTimesOutAfterTReads := by
  intro s e bad lastBad more he hp hd hb hc ha hT hbad hans
  have hlast : lastBad &&& e.snap.setup.args.arg1 ≠ e.snap.setup.args.arg2 := hbad lastBad (by simp)
  have hk (f : Engine) (hs : f.snap = e.snap) (hn : f.n = bad.length) :
      f.polled .single e.snap.waitMask e.snap.waitExpected (fun g => g.ends (okWith g.last)) lastBad
        = (f.counted lastBad).ends (timeoutAt .single lastBad) := by
    refine (if_neg hlast).trans (if_neg ?_)
    rw [hn, Engine.bound, hs]
    omega
  obtain ⟨t, hrun, h1, h2, h3, h4, h5, h6, h7, h8, h9, -⟩ := run_wait bad he hp hd hb hc ha
    (by unfold Engine.bound; omega) (fun v hv => hbad v (by simp [hv])) hans hk
  refine ⟨t, hrun, h1, h2, h3, h4, h5, h6, h7.trans ?_, h8, h9⟩
  rw [hT, BitVec.ofNat_toNat, BitVec.setWidth_eq]

end

section
/-! PROOFS. MODE (41_mode.md R150-R155): its step at each position, and whole runs. -/

open Sys2Proof Sys2Proof.Machine

namespace Sys2Proof.Machine

variable {s t : State} {e f : Engine} {a : Slot} {m : AgentMode} {v : Word}

/-! ## The state after one performed register access, and the command going on with engine f -/

/-- After an `R32` outside a poll. -/
def State.didRead (s : State) (a : Nat) (v : Word) (f : Engine) : State :=
  { s with env := s.env.performed .engine (.r32 a v), engine := some f }

/-- After a `W32`. -/
def State.didWrite (s : State) (a : Nat) (v : Word) (f : Engine) : State :=
  { s with env := (s.env.performed .engine (.w32 a v)).putReg a v, engine := some f }

/-- After a poll read. -/
def State.didPoll (s : State) (a : Nat) (v : Word) (f : Engine) : State :=
  { s with csr := s.csr.countPoll, env := s.env.performed .engine (.r32 a v), engine := some f }

@[simp] theorem State.didWrite_csr (b : Nat) : (s.didWrite b v f).csr = s.csr := rfl
@[simp] theorem State.didWrite_history (b : Nat) :
    (s.didWrite b v f).env.history = (.engine, .w32 b v) :: s.env.history := rfl

/-- A listed answer is taken by the access performed. -/
theorem tail_scripted {l more : List Answer} {d : Dword} {ds : List Dword} (h : l = scripted (d :: ds) ++ more) :
    l.tail = scripted ds ++ more := by
  rw [h]
  rfl

/-! ## MODE's step, position by position, when the bus completes -/

/-- Step 1's read (R151). -/
theorem exec_mode_start (he : s.engine = some e) (hp : e.pos = .start) (hb : s.busFails = false)
    (hv : v = s.env.regValue (regAddr e.snap.setup.clkenAddr)) :
    exec (.mode a m) s = .next (s.didRead (regAddr e.snap.setup.clkenAddr) v
      (e.readAt v (if v &&& e.snap.clkMask a = 0 then .gateSet else .modeWrite))) := by
  simp only [exec, execMode, running_some he, hp, readStep_done (regFault_regAddr _) hb, hv]
  rfl

/-- Step 1's write (R151). -/
theorem exec_mode_gateSet (he : s.engine = some e) (hp : e.pos = .gateSet) (hb : s.busFails = false) :
    exec (.mode a m) s = .next (s.didWrite (regAddr e.snap.setup.clkenAddr) (e.read ||| e.snap.clkMask a)
      (e.goto .modeWrite)) := by
  simp only [exec, execMode, running_some he, hp, writeStep_done (regFault_regAddr _) hb]
  rfl

/-- Step 2, and the entry of step 3's poll (R152). -/
theorem exec_mode_modeWrite (he : s.engine = some e) (hp : e.pos = .modeWrite) (hb : s.busFails = false) :
    exec (.mode a m) s = .next (s.didWrite (regAddr (e.snap.setup.agt a).mcAddr) m.bits (e.enterPoll .single)) := by
  simp only [exec, execMode, running_some he, hp, writeStep_done (regFault_regAddr _) hb]
  rfl

/-- Step 3's poll round (R152). -/
theorem exec_mode_pollRead (he : s.engine = some e) (hp : e.pos = .pollRead .single) (hb : s.busFails = false)
    (hv : v = s.env.regValue (regAddr (e.snap.setup.agt a).msAddr)) :
    exec (.mode a m) s = .next (s.didPoll (regAddr (e.snap.setup.agt a).msAddr) v
      (e.polled .single (e.snap.setup.agt a).msMask m.bits (modeMatched m) v)) := by
  simp only [exec, execMode, running_some he, hp, pollRound_done (regFault_regAddr _) hb, hv]
  rfl

/-- Step 4's re-read (R153). -/
theorem exec_mode_gateReread (he : s.engine = some e) (hp : e.pos = .gateReread) (hb : s.busFails = false)
    (hv : v = s.env.regValue (regAddr e.snap.setup.clkenAddr)) :
    exec (.mode a m) s = .next (s.didRead (regAddr e.snap.setup.clkenAddr) v (e.readAt v .gateClear)) := by
  simp only [exec, execMode, running_some he, hp, readStep_done (regFault_regAddr _) hb, hv]
  rfl

/-- Step 4's write-back (R153). -/
theorem exec_mode_gateClear (he : s.engine = some e) (hp : e.pos = .gateClear) (hb : s.busFails = false) :
    exec (.mode a m) s = .next (s.didWrite (regAddr e.snap.setup.clkenAddr) (e.read &&& ~~~(e.snap.clkMask a))
      (e.ends (okWith e.last))) := by
  simp only [exec, execMode, running_some he, hp, writeStep_done (regFault_regAddr _) hb]
  rfl

/-- Step 4's write to the clock-disable register (R153). -/
theorem exec_mode_gateDisable (he : s.engine = some e) (hp : e.pos = .gateDisable) (hb : s.busFails = false) :
    exec (.mode a m) s = .next (s.didWrite (regAddr e.snap.setup.clkdisAddr) (e.snap.clkMask a)
      (e.ends (okWith e.last))) := by
  simp only [exec, execMode, running_some he, hp, writeStep_done (regFault_regAddr _) hb]
  rfl

/-! ## After a match, and the end -/

theorem modeMatched_eq (m : AgentMode) (e : Engine) :
    modeMatched m e = if m = .disable then
        (if e.snap.setup.clkdisAddr = 0 then e.goto .gateReread else e.goto .gateDisable)
      else e.ends (okWith e.last) := by
  cases m <;> rfl

/-- To a target other than DISABLE, a status that matches is the end (R150). -/
theorem polled_mode_match (hm : m ≠ .disable) {mask : Word} (hv : v &&& mask = m.bits) :
    e.polled .single mask m.bits (modeMatched m) v = (e.counted v).ends (okWith v) :=
  (if_pos hv).trans ((modeMatched_eq m _).trans (if_neg hm))

/-- MODE finishes OK, with its target in AGTa_STATE (R154). -/
theorem mode_finishes_ok (s : State) (a : Slot) (m : AgentMode) (v : Word) :
    let u := finish (some (.mode a m)) (okWith v) s
    u.engine = none ∧ u.csr.done = true ∧ u.csr.err = false ∧ u.csr.code = .ok ∧ u.csr.phase = .none
      ∧ u.csr.result = v ∧ u.csr.agtState a = { mode := m, valid := true } := by
  refine ⟨rfl, ?_, ?_, ?_, ?_, ?_, ?_⟩
  · simp
  · simp [okWith]
  · simp [okWith]
  · simp [okWith]
  · simp [okWith]
  · simp [Csrs.agtState_shadow_mode, AgentShadow.after_eq, okWith]

theorem enterPoll_eq (e : Engine) (x : Site) :
    e.enterPoll x = if e.snap.setup.timeout = 0 then
        { e with n := 0, last := 0, pos := .finish, out := timeoutAt x 0 }
      else { e with n := 0, last := 0, pos := .pollRead x } := by
  split
  · rename_i hT
    exact if_neg (by simp [Engine.bound, hT])
  · exact enterPoll_of_pos (bound_pos ‹_›)

/-! ## Whole runs -/

/-- The clock gate is off when the bit CLK_BIT is clear (R151). -/
theorem and_clkMask_eq_zero_iff (p : Snapshot) (a : Slot) (c : Word) :
    c &&& p.clkMask a = 0 ↔ c.getLsbD (p.setup.agt a).clkBit.toNat = false := by
  constructor
  · intro h
    have hbit := congrArg (BitVec.getLsbD · (p.setup.agt a).clkBit.toNat) h
    simpa [BitVec.getLsbD_and, clkMask_getLsbD] using hbit
  · intro h
    apply BitVec.eq_of_getLsbD_eq
    intro j hj
    rw [BitVec.getLsbD_and, clkMask_getLsbD]
    by_cases hjb : j = (p.setup.agt a).clkBit.toNat
    · simp [hjb, h]
    · simp [hjb]

/-- MODE from its mode-control write on, when the first status read matches: the write, the read, and OK. -/
theorem run_mode_from_modeWrite {x : Dword} {more : List Answer} (he : s.engine = some e) (hp : e.pos = .modeWrite)
    (hd : decode e.snap.cmd = .ok (.mode a m)) (hm : m ≠ .disable) (hb : s.params.busMayError = false)
    (hT : e.snap.setup.timeout ≠ 0) (hv : v &&& (e.snap.setup.agt a).msMask = m.bits)
    (hans : s.env.answers = scripted [x, v.setWidth 64] ++ more) :
    ∃ t, Host.Core.run Sys2Proof.core 3 { s with inputs := engineOnly 3 } = .next t
      ∧ t.engine = none ∧ t.csr.code = .ok ∧ t.csr.done = true ∧ t.csr.result = v
      ∧ t.csr.agtState a = { mode := m, valid := true }
      ∧ t.env.history
          = [(.engine, .r32 (regAddr (e.snap.setup.agt a).msAddr) v),
             (.engine, .w32 (regAddr (e.snap.setup.agt a).mcAddr) m.bits)] ++ s.env.history := by
  have hwrite := exec_mode_modeWrite (a := a) (m := m) he hp (busFails_of_not_may hb)
  rw [enterPoll_of_pos (bound_pos hT)] at hwrite
  have hans1 := tail_scripted hans
  have hread := exec_mode_pollRead (a := a) (m := m)
    (s := s.didWrite (regAddr (e.snap.setup.agt a).mcAddr) m.bits (e.firstRead .single)) (e := e.firstRead .single)
    rfl rfl (busFails_of_not_may hb) (regValue_scripted hans1 _).symm
  rw [Engine.firstRead_snap, polled_mode_match hm hv] at hread
  obtain ⟨h1, h2, -, h4, -, h6, h7⟩ := mode_finishes_ok _ a m v
  refine ⟨_, (run_engine (k := 2) (l := engineOnly 2) he hd hwrite).trans
    ((run_engine (k := 1) (l := engineOnly 1) (e := e.firstRead .single) rfl hd hread).trans
      (run_engine (k := 0) (l := []) (e := ((e.firstRead .single).counted v).ends (okWith v)) rfl hd
        (exec_finish (e := ((e.firstRead .single).counted v).ends (okWith v)) (by simp) rfl rfl))),
    h1, h4, h2, h6, h7, rfl⟩

end Sys2Proof.Machine

/-- Settles O36: the three positions before the poll. -/
theorem modeEnablesTheClockThenWritesTheMode : Obligations.ModeEnablesTheClockThenWritesTheMode := by
  intro s e a m he hb
  refine ⟨fun c hp hc => exec_mode_start he hp hb hc, fun hp => exec_mode_gateSet he hp hb, fun hp => ?_⟩
  rw [exec_mode_modeWrite he hp hb, enterPoll_eq]
  rfl

/-- Settles O37: the poll, and the positions after a match. -/
theorem modePollsThenDisablesTheClockOnlyForDisable : Obligations.ModePollsThenDisablesTheClockOnlyForDisable := by
  intro s e a m he hb
  refine ⟨fun v hp hv => ?_, fun c hp hc => exec_mode_gateReread he hp hb hc, fun hp => exec_mode_gateClear he hp hb,
    fun hp => exec_mode_gateDisable he hp hb⟩
  rw [exec_mode_pollRead he hp hb hv, Engine.polled, modeMatched_eq]
  rfl

/-- Settles O38: the last access leaves MODE about to finish OK. -/
theorem modeCompletesOnAMatchingStatus : Obligations.ModeCompletesOnAMatchingStatus := by
  intro s e a m he hb
  refine ⟨fun v hm hp hv hmatch => ?_, ?_⟩
  · have hround := exec_mode_pollRead (a := a) (m := m) he hp hb hv
    rw [polled_mode_match hm hmatch] at hround
    obtain ⟨h1, h2, h3, h4, h5, h6, h7⟩ := mode_finishes_ok _ a m v
    exact ⟨_, _, hround, exec_finish (e := (e.counted v).ends (okWith v)) (by simp) rfl rfl,
      h1, h2, h3, h4, h5, h6, h7, rfl⟩
  · rintro rfl (hp | hp)
    · obtain ⟨h1, h2, h3, h4, h5, h6, h7⟩ := mode_finishes_ok _ a .disable e.last
      exact ⟨_, _, exec_mode_gateClear he hp hb, exec_finish (e := e.ends (okWith e.last)) (by simp) rfl rfl,
        h1, h2, h3, h4, h5, h6, h7, rfl⟩
    · obtain ⟨h1, h2, h3, h4, h5, h6, h7⟩ := mode_finishes_ok _ a .disable e.last
      exact ⟨_, _, exec_mode_gateDisable he hp hb, exec_finish (e := e.ends (okWith e.last)) (by simp) rfl rfl,
        h1, h2, h3, h4, h5, h6, h7, rfl⟩

/-- Settles O40: the clock-enable read, the gate's write when the bit is clear, and the rest. -/
theorem modeWritesTheClockBeforeTheMode : Obligations.ModeWritesTheClockBeforeTheMode := by
  intro s e a m c v x more he hp hd hm hb hT hv
  refine ⟨fun hoff hans => ?_, fun hon hans => ?_⟩
  · have hread := exec_mode_start (a := a) (m := m) he hp (busFails_of_not_may hb) (regValue_scripted hans _).symm
    rw [if_pos ((and_clkMask_eq_zero_iff _ _ _).2 hoff)] at hread
    have hset := exec_mode_gateSet (a := a) (m := m)
      (s := s.didRead (regAddr e.snap.setup.clkenAddr) c (e.readAt c .gateSet)) (e := e.readAt c .gateSet)
      rfl rfl (busFails_of_not_may hb)
    obtain ⟨t, hrun, h1, h2, h3, h4, h5, h6⟩ := run_mode_from_modeWrite
      (s := (s.didRead (regAddr e.snap.setup.clkenAddr) c (e.readAt c .gateSet)).didWrite
        (regAddr e.snap.setup.clkenAddr) (c ||| e.snap.clkMask a) ((e.readAt c .gateSet).goto .modeWrite))
      (e := (e.readAt c .gateSet).goto .modeWrite) rfl rfl hd hm hb hT hv (tail_scripted (tail_scripted hans))
    exact ⟨t, (run_engine (k := 4) (l := engineOnly 4) he hd hread).trans
      ((run_engine (k := 3) (l := engineOnly 3) (e := e.readAt c .gateSet) rfl hd hset).trans hrun),
      h1, h2, h3, h4, h5, h6⟩
  · have hread := exec_mode_start (a := a) (m := m) he hp (busFails_of_not_may hb) (regValue_scripted hans _).symm
    have hne : ¬c &&& e.snap.clkMask a = 0 := mt (and_clkMask_eq_zero_iff _ _ _).1 (by rw [hon]; decide)
    rw [if_neg hne] at hread
    obtain ⟨t, hrun, h1, h2, h3, h4, h5, h6⟩ := run_mode_from_modeWrite
      (s := s.didRead (regAddr e.snap.setup.clkenAddr) c (e.readAt c .modeWrite)) (e := e.readAt c .modeWrite)
      rfl rfl hd hm hb hT hv (tail_scripted hans)
    exact ⟨t, (run_engine (k := 3) (l := engineOnly 3) he hd hread).trans hrun, h1, h2, h3, h4, h5, h6⟩

end

section
/-! PROOFS. The words FORMAT writes (20_memory.md section 4), little-endian memory (R74), and FORMAT's step at each
position past its checks (42_ring.md). -/

open Sys2Proof Sys2Proof.Machine

namespace Sys2Proof

/-! ## Little-endian memory (R74) -/

/-- Byte k of an 8-byte load is the byte at pa+k, or what stands for a byte nothing has written. -/
theorem Memory.load8_byte (m : List Host.Cell) (pa : Nat) (free : Dword) {k : Nat} (hk : k < 8) :
    (Memory.load8 m pa free).extractLsb' (8 * k) 8 = (Memory.byte m (pa + k)).getD (byteOf free k) := by
  have hbyte (b0 b1 b2 b3 b4 b5 b6 b7 : Byte) : ∀ k < 8,
      (b7 ++ b6 ++ b5 ++ b4 ++ b3 ++ b2 ++ b1 ++ b0).extractLsb' (8 * k) 8
        = [b0, b1, b2, b3, b4, b5, b6, b7].getD k 0 := by
    intro k hk
    apply BitVec.eq_of_getLsbD_eq
    intro j hj
    simp only [BitVec.getLsbD_extractLsb', BitVec.getLsbD_append]
    interval_cases k <;> interval_cases j <;> simp
  refine (hbyte _ _ _ _ _ _ _ _ k hk).trans ?_
  interval_cases k <;> rfl

end Sys2Proof

namespace Sys2Proof.Machine

variable {s t : State} {e f : Engine} {p : Snapshot} {c : Nat} {l : Layout} {d : Dir} {w : SlotWord}

/-! ## Headers (R80-R82) -/

/-- The header is the concatenation of its fields. -/
theorem header_eq_append (info : BitVec 16) (dt : Byte) (ptr : PAddr) :
    header info dt ptr = ptr.extractLsb' 0 32 ++ ptr.extractLsb' 32 8 ++ dt ++ info := by
  apply BitVec.eq_of_getLsbD_eq
  intro i hi
  simp only [header, BitVec.getLsbD_or, BitVec.getLsbD_shiftLeft, BitVec.getLsbD_append]
  interval_cases i <;> simp

/-- A pointer is its high byte and its low word. -/
theorem pointer_split (ptr : PAddr) : ptr.extractLsb' 32 8 ++ ptr.extractLsb' 0 32 = ptr := by
  apply BitVec.eq_of_getLsbD_eq
  intro i hi
  simp only [BitVec.getLsbD_append, BitVec.getLsbD_extractLsb']
  by_cases h : i < 32
  · simp [h]
  · have hsub : i - 32 < 8 := by omega
    simp [h, hsub, Nat.add_sub_cancel' (Nat.le_of_not_lt h)]

theorem header_fields (info : BitVec 16) (dt : Byte) (ptr : PAddr) :
    (header info dt ptr).extractLsb' 0 16 = info
    ∧ (header info dt ptr).extractLsb' 16 8 = dt
    ∧ (header info dt ptr).extractLsb' 24 8 = ptr.extractLsb' 32 8
    ∧ (header info dt ptr).extractLsb' 32 32 = ptr.extractLsb' 0 32 := by
  rw [header_eq_append]
  refine ⟨BitVec.extractLsb'_append_eq_right, ?_, ?_, ?_⟩
  · exact (BitVec.extractLsb'_append_eq_of_le (by decide)).trans BitVec.extractLsb'_append_eq_right
  · exact (BitVec.extractLsb'_append_eq_of_le (by decide)).trans
      ((BitVec.extractLsb'_append_eq_of_le (by decide)).trans BitVec.extractLsb'_append_eq_right)
  · exact (BitVec.extractLsb'_append_eq_of_le (by decide)).trans
      ((BitVec.extractLsb'_append_eq_of_le (by decide)).trans
        ((BitVec.extractLsb'_append_eq_of_le (by decide)).trans (BitVec.extractLsb'_eq_self)))

theorem header_pointer (info : BitVec 16) (dt : Byte) (ptr : PAddr) :
    (header info dt ptr).extractLsb' 24 8 ++ (header info dt ptr).extractLsb' 32 32 = ptr := by
  obtain ⟨-, -, hhigh, hlow⟩ := header_fields info dt ptr
  rw [hhigh, hlow, pointer_split]

/-- R114's word. -/
theorem controlWord_eq (d : Dir) (l : Layout) :
    controlWord d l = 0x01000100 ||| (if d = .transmit then 0x00000800 else 0)
      ||| (if l = .timestamped then 0x00000200 else 0) := by
  cases d <;> cases l <;> decide

/-! ## FORMAT's step at the positions past its checks, when the bus completes -/

/-- The state after a performed `MemWrite`, the command going on with engine f. -/
def State.didStore (s : State) (pa : Nat) (v : Dword) (f : Engine) : State :=
  { s with env := (s.env.performed .engine (.memWrite pa v)).putMem pa v, engine := some f }

/-- A word of a data slot (R174, R175, R177). -/
theorem exec_format_slot_done (he : s.engine = some e) (hp : e.pos = .slot w) (hb : s.busFails = false)
    (ha : memFault (slotAddr e.snap l e.idx + w.offset) = none) :
    exec (.format c l d) s = .next (s.didStore (slotAddr e.snap l e.idx + w.offset)
      (w.value (dataHeader e.snap d e.entry)) (afterSlotWord l d w e)) := by
  rw [exec_format_slot he (formatEntry_of_ne_start (by simp [hp])) hp, storeStep_done ha hb]
  rfl

/-- A word of the link slot (R176, R177). -/
theorem exec_format_link_done (he : s.engine = some e) (hp : e.pos = .link w) (hb : s.busFails = false)
    (ha : memFault (slotAddr e.snap l (e.snap.numRing - 1) + w.offset) = none) :
    exec (.format c l d) s = .next (s.didStore (slotAddr e.snap l (e.snap.numRing - 1) + w.offset)
      (w.value (linkHeader e.snap d)) (afterLinkWord l w e)) := by
  have hstays : formatEntry s.params c l d e = e := formatEntry_of_ne_start (by simp [hp])
  simp only [exec, execFormat, running_some he, hstays, hp, storeStep_done ha hb]
  rfl

/-- The base-descriptor table entry (R179). -/
theorem exec_format_table_done (he : s.engine = some e) (hp : e.pos = .table) (hb : s.busFails = false)
    (ha : memFault (tableAddr e.snap c) = none) :
    exec (.format c l d) s
      = .next (s.didStore (tableAddr e.snap c) (tableHeader e.snap) (e.goto .control)) := by
  have hstays : formatEntry s.params c l d e = e := formatEntry_of_ne_start (by simp [hp])
  simp only [exec, execFormat, running_some he, hstays, hp, storeStep_done ha hb]
  rfl

/-- The chain control register (R184). -/
theorem exec_format_control_done (he : s.engine = some e) (hp : e.pos = .control) (hb : s.busFails = false)
    (ha : regFault (controlAddr e.snap c) = none) :
    exec (.format c l d) s
      = .next (s.didWrite (controlAddr e.snap c) (controlWord d l) (e.ends (okWith 0))) := by
  have hstays : formatEntry s.params c l d e = e := formatEntry_of_ne_start (by simp [hp])
  simp only [exec, execFormat, running_some he, hstays, hp, writeStep_done ha hb]
  rfl

/-! ## The words of a slot in order (R177, R178) -/

theorem SlotWord.value_eq (w : SlotWord) (h : Dword) : w.value h = if w = .header then h else 0 := by
  cases w <;> rfl

/-- The words of a slot in order (R177). -/
theorem SlotWord.next_eq (w : SlotWord) (l : Layout) :
    w.next l = if w = .header then some .extension
      else if w = .extension ∧ l = .timestamped then some .timestamp else none := by
  cases w <;> cases l <;> rfl

theorem slotStart_eq (d : Dir) : slotStart d = if d = .receive then .entryRead else .slot .header := by
  cases d <;> rfl

theorem afterSlotWord_of_next {w' : SlotWord} (h : w.next l = some w') :
    afterSlotWord l d w e = e.goto (.slot w') := by
  simp [afterSlotWord, h]

theorem afterSlotWord_of_last (h : w.next l = none) :
    afterSlotWord l d w e
      = { e with pos := if e.idx + 2 < e.snap.numRing then slotStart d else .link .header, idx := e.idx + 1 } := by
  simp only [afterSlotWord, h]
  split_ifs <;> rfl

/-- Where a data slot's word leaves FORMAT. -/
theorem afterSlotWord_eq (l : Layout) (d : Dir) (w : SlotWord) (e : Engine) {p : Pos} {j : Nat}
    (h : (p, j) = (if w = .header then (.slot .extension, e.idx)
                else if w = .extension ∧ l = .timestamped then (.slot .timestamp, e.idx)
                else if e.idx + 2 < e.snap.numRing then
                  (if d = .receive then (.entryRead, e.idx + 1) else (.slot .header, e.idx + 1))
                else (.link .header, e.idx + 1))) :
    afterSlotWord l d w e = { e with pos := p, idx := j } := by
  have hnext := SlotWord.next_eq w l
  split_ifs at h hnext with _ _ hmore hreceive
  all_goals obtain ⟨rfl, rfl⟩ := Prod.mk.inj h
  · exact afterSlotWord_of_next hnext
  · exact afterSlotWord_of_next hnext
  · rw [afterSlotWord_of_last hnext, if_pos hmore, slotStart_eq, if_pos hreceive]
  · rw [afterSlotWord_of_last hnext, if_pos hmore, slotStart_eq, if_neg hreceive]
  · rw [afterSlotWord_of_last hnext, if_neg hmore]

/-- Where a word of the link slot leaves FORMAT. -/
theorem afterLinkWord_eq (l : Layout) (w : SlotWord) (e : Engine) :
    afterLinkWord l w e = e.goto (if w = .header then .link .extension
           else if w = .extension ∧ l = .timestamped then .link .timestamp else .table) := by
  cases w <;> cases l <;> rfl

end Sys2Proof.Machine

/-- Settles O41: the header is the concatenation of its fields. -/
theorem headerFieldsStandInTheirPlaces : Obligations.HeaderFieldsStandInTheirPlaces := by
  intro info dt ptr
  obtain ⟨h1, h2, h3, h4⟩ := header_fields info dt ptr
  exact ⟨h1, h2, h3, h4, header_pointer info dt ptr⟩

/-- Settles O42: each header is built from these fields, and its type byte is a number. -/
theorem formatHeadersCarryTheirTypeAndPointer : Obligations.FormatHeadersCarryTheirTypeAndPointer := by
  intro p e
  refine ⟨⟨(header_fields ..).1, (header_fields ..).2.1, header_pointer ..⟩, ?_,
    ⟨(header_fields ..).1, (header_fields ..).1⟩, fun d => ?_, rfl, rfl, rfl, rfl, rfl, ⟨rfl, rfl, rfl⟩,
    controlWord_eq⟩
  · have hclosed : header 0 (dieDt .eempty true) 0 = 0x0000000000D10000 := by decide
    exact hclosed
  · cases d
    · exact ⟨(header_fields ..).2.1, header_pointer ..⟩
    · exact ⟨(header_fields ..).2.1, header_pointer ..⟩

/-- Settles O43: a store puts its bytes at its 8 addresses, and a load reads byte by byte. -/
theorem memoryIsLittleEndian : Obligations.MemoryIsLittleEndian := by
  intro m pa v free
  refine ⟨fun k hk => ?_, fun a ha => ?_, Memory.load8_store8 m pa v free, fun k b hk hb => ?_⟩
  · rw [Memory.byte_store8, if_pos (by omega), Nat.add_sub_cancel_left]
    rfl
  · rw [Memory.byte_store8, if_neg ha]
  · rw [Memory.load8_byte m pa free hk, hb]
    rfl

/-- Settles O46: a word is stored at its place in its slot, and the next one follows in the layout. -/
theorem formatWritesSlotWordsInOrder : Obligations.FormatWritesSlotWordsInOrder := by
  rintro s e c l d w _ pa v p j he hb h8 hrange rfl
  have ha : memFault pa = none := (memFault_none_iff pa).2 ⟨h8, hrange⟩
  rw [← slotSize_eq_ite]
  refine ⟨?_, ?_⟩
  · rintro hp rfl rfl hnext
    rw [exec_format_slot_done he hp hb ha, afterSlotWord_eq l d w e hnext, SlotWord.value_eq]
    rfl
  · rintro hp rfl rfl rfl
    rw [exec_format_link_done he hp hb ha, afterLinkWord_eq, SlotWord.value_eq]
    rfl

/-- Settles O47: three steps, from the table entry to the `finish`. -/
theorem formatCompletesWithTableAndControl : Obligations.FormatCompletesWithTableAndControl := by
  rintro s e c l d _ _ he hp hb rfl hpa rfl hcc
  have hmem : memFault (tableAddr e.snap c) = none := by
    have halign := bdtBase_aligned e.snap.setup
    exact (memFault_none_iff _).2 ⟨by unfold tableAddr; omega, hpa⟩
  have hreg : regFault (controlAddr e.snap c) = none := by
    refine (regFault_none_iff _).2 ?_
    unfold controlAddr regAddr
    omega
  refine ⟨_, _, _, exec_format_table_done he hp (busFails_of_not_may hb) hmem,
    exec_format_control_done (e := e.goto .control) rfl rfl (busFails_of_not_may hb) hreg,
    exec_finish (e := (e.goto .control).ends (okWith 0)) (by simp) rfl rfl, rfl, rfl, rfl, rfl, rfl, ?_, rfl, rfl⟩
  exact Registers.word_put_same _ _ _

end

section
/-! PROOFS. MDIO_RD and MDIO_WR (43_mdio.md R210-R223): the phase words, the step at each position, and whole runs. -/

open Sys2Proof Sys2Proof.Machine

namespace Sys2Proof.Machine

variable {s t : State} {e f : Engine} {a : Slot} {phy dev : Nat} {i : Instr} {v : Word}

/-! ## Words and flags (R110-R112) -/

/-- Fields in their places, above the frame every phase word ends in. -/
theorem mdioWord_eq_append (high : BitVec 16) (op : BitVec 2) (phy dev : Nat) :
    (high.setWidth 32 <<< 16) ||| (op.setWidth 32 <<< 13) ||| mdioFrame phy dev
      = high ++ 0#1 ++ op ++ BitVec.ofNat 5 dev ++ BitVec.ofNat 5 phy ++ 1#1 ++ 0#1 ++ 1#1 := by
  unfold mdioFrame
  generalize BitVec.ofNat 5 dev = d
  generalize BitVec.ofNat 5 phy = p
  apply BitVec.eq_of_getLsbD_eq
  intro j hj
  simp only [BitVec.getLsbD_or, BitVec.getLsbD_shiftLeft, BitVec.getLsbD_append, BitVec.getLsbD_setWidth]
  interval_cases j <;> simp

/-- A one-bit flag tested by its mask. -/
theorem and_flag_eq_iff (v : Word) (k : Nat) (hk : k < 32) :
    v &&& BitVec.twoPow 32 k = BitVec.twoPow 32 k ↔ v.getLsbD k = true := by
  rw [BitVec.and_twoPow]
  cases v.getLsbD k
  · have hne : BitVec.twoPow 32 k ≠ 0#32 := by
      intro h
      simpa [hk] using congrArg (BitVec.getLsbD · k) h
    simpa using hne.symm
  · simp

theorem addrDone_eq : addrDone = BitVec.twoPow 32 2 := by decide
theorem rdDone_eq : rdDone = BitVec.twoPow 32 0 := by decide
theorem wrDone_eq : wrDone = BitVec.twoPow 32 1 := by decide

/-- A poll for one flag. -/
theorem polled_flag (e : Engine) (x : Site) (g : Engine → Engine) (v : Word) {flag : Word} {k : Nat}
    (hflag : flag = BitVec.twoPow 32 k) (hk : k < 32) :
    e.polled x flag flag g v = if v.getLsbD k then g (e.counted v)
      else if e.n + 1 < e.bound then (e.counted v).goto (.pollTick x)
      else (e.counted v).ends (timeoutAt x v) := by
  subst hflag
  simp only [Engine.polled, and_flag_eq_iff v k hk]

/-- Bits 31:16, zero-extended (R216). -/
theorem readResult_eq (v : Word) : readResult v = v >>> 16 := by
  apply BitVec.eq_of_getLsbD_eq
  intro j hj
  simp only [readResult, BitVec.getLsbD_setWidth, BitVec.getLsbD_extractLsb', BitVec.getLsbD_ushiftRight]
  by_cases h : j < 16
  · simp [h, hj]
  · have hout : v.getLsbD (16 + j) = false := BitVec.getLsbD_of_ge _ _ (by omega)
    simp [h, hout]

/-! ## The step at each position, when the bus completes -/

section
variable (hi : i = .mdioRd a phy dev ∨ i = .mdioWr a phy dev) (he : s.engine = some e) (hb : s.busFails = false)
include hi he hb

/-- Step 1 (R211). -/
theorem exec_mdio_start (hp : e.pos = .start) :
    exec i s = .next (s.didWrite (mdioSts e a) allFlags (e.goto .mdioAddress)) := by
  rcases hi with rfl | rfl
  · simp only [exec, execMdioRd, running_some he, hp, mdioClear, mdioSts, writeStep_done (regFault_regAddr _) hb]
    rfl
  · simp only [exec, execMdioWr, running_some he, hp, mdioClear, mdioSts, writeStep_done (regFault_regAddr _) hb]
    rfl

/-- Step 2's write, and the entry of its poll (R212). -/
theorem exec_mdio_address (hp : e.pos = .mdioAddress) :
    exec i s = .next (s.didWrite (mdioAcc e a) (addrWord phy dev e.snap.mdioReg) (e.enterPoll .address)) := by
  rcases hi with rfl | rfl
  · simp only [exec, execMdioRd, running_some he, hp, mdioAddressWrite, mdioAcc, writeStep_done (regFault_regAddr _) hb]
    rfl
  · simp only [exec, execMdioWr, running_some he, hp, mdioAddressWrite, mdioAcc, writeStep_done (regFault_regAddr _) hb]
    rfl

/-- Step 3 (R214). -/
theorem exec_mdio_ack (hp : e.pos = .mdioAck) :
    exec i s = .next (s.didWrite (mdioSts e a) addrDone (e.goto .mdioOp)) := by
  rcases hi with rfl | rfl
  · simp only [exec, execMdioRd, running_some he, hp, mdioAddressAck, mdioSts, writeStep_done (regFault_regAddr _) hb]
    rfl
  · simp only [exec, execMdioWr, running_some he, hp, mdioAddressAck, mdioSts, writeStep_done (regFault_regAddr _) hb]
    rfl

omit hb in
/-- Step 2's poll round is POLL's (R212). -/
theorem exec_mdio_addressPoll (hp : e.pos = .pollRead .address) :
    exec i s = pollRound i e .address (mdioSts e a) addrDone addrDone (fun g => g.goto .mdioAck) s := by
  rcases hi with rfl | rfl
  · simp only [exec, execMdioRd, running_some he, hp, mdioAddressPoll]
  · simp only [exec, execMdioWr, running_some he, hp, mdioAddressPoll]

/-- Step 2's poll round, in full. -/
theorem exec_mdio_addressRound (hp : e.pos = .pollRead .address) (hv : v = s.env.regValue (mdioSts e a)) :
    exec i s = .next (s.didPoll (mdioSts e a) v
      (e.polled .address addrDone addrDone (fun g => g.goto .mdioAck) v)) := by
  subst hv
  exact (exec_mdio_addressPoll hi he hp).trans (pollRound_done (regFault_regAddr _) hb)

end

section
variable (he : s.engine = some e) (hb : s.busFails = false)
include he hb

/-- Step 4's write of MDIO_RD (R215). -/
theorem exec_mdioRd_op (hp : e.pos = .mdioOp) :
    exec (.mdioRd a phy dev) s = .next (s.didWrite (mdioAcc e a) (readWord phy dev) (e.enterPoll .op)) := by
  simp only [exec, execMdioRd, running_some he, hp, mdioAcc, writeStep_done (regFault_regAddr _) hb]
  rfl

/-- Step 4's write of MDIO_WR (R220). -/
theorem exec_mdioWr_op (hp : e.pos = .mdioOp) :
    exec (.mdioWr a phy dev) s
      = .next (s.didWrite (mdioAcc e a) (writeWord phy dev e.snap.mdioWriteData) (e.enterPoll .op)) := by
  simp only [exec, execMdioWr, running_some he, hp, mdioAcc, writeStep_done (regFault_regAddr _) hb]
  rfl

/-- Step 4's poll round of MDIO_RD (R215). -/
theorem exec_mdioRd_opRound (hp : e.pos = .pollRead .op) (hv : v = s.env.regValue (mdioSts e a)) :
    exec (.mdioRd a phy dev) s = .next (s.didPoll (mdioSts e a) v
      (e.polled .op rdDone rdDone (fun g => g.goto .mdioData) v)) := by
  subst hv
  simp only [exec, execMdioRd, running_some he, hp, mdioSts, pollRound_done (regFault_regAddr _) hb]
  rfl

/-- Step 4's poll round of MDIO_WR (R220). -/
theorem exec_mdioWr_opRound (hp : e.pos = .pollRead .op) (hv : v = s.env.regValue (mdioSts e a)) :
    exec (.mdioWr a phy dev) s = .next (s.didPoll (mdioSts e a) v
      (e.polled .op wrDone wrDone (fun g => g.ends (okWith 0)) v)) := by
  subst hv
  simp only [exec, execMdioWr, running_some he, hp, mdioSts, pollRound_done (regFault_regAddr _) hb]
  rfl

/-- Step 5's read (R216). -/
theorem exec_mdioRd_data (hp : e.pos = .mdioData) (hv : v = s.env.regValue (mdioAcc e a)) :
    exec (.mdioRd a phy dev) s = .next (s.didRead (mdioAcc e a) v (e.readAt v .mdioReadAck)) := by
  subst hv
  simp only [exec, execMdioRd, running_some he, hp, mdioAcc, readStep_done (regFault_regAddr _) hb]
  rfl

/-- Step 5's clear of read-complete (R216). -/
theorem exec_mdioRd_readAck (hp : e.pos = .mdioReadAck) :
    exec (.mdioRd a phy dev) s
      = .next (s.didWrite (mdioSts e a) rdDone (e.ends (okWith (readResult e.read)))) := by
  simp only [exec, execMdioRd, running_some he, hp, mdioSts, writeStep_done (regFault_regAddr _) hb]
  rfl

end

/-! ## Whole runs -/

/-- After steps 1 and 2: the flags cleared, the address phase written, its poll entered. -/
def State.mdioAddressed (s : State) (e : Engine) (a : Slot) (phy dev : Nat) : State :=
  (s.didWrite (mdioSts e a) allFlags (e.goto .mdioAddress)).didWrite (mdioAcc e a)
    (addrWord phy dev e.snap.mdioReg) (e.firstRead .address)

/-- Steps 1 and 2, in a run, when T > 0. -/
theorem run_mdioAddressed (hi : i = .mdioRd a phy dev ∨ i = .mdioWr a phy dev) (he : s.engine = some e)
    (hp : e.pos = .start) (hd : decode e.snap.cmd = .ok i) (hb : s.params.busMayError = false) (hT : 0 < e.bound)
    (k : Nat) (l : List Event) :
    Host.Core.run Sys2Proof.core (k + 2) { s with inputs := .engine :: .engine :: l }
      = Host.Core.run Sys2Proof.core k { s.mdioAddressed e a phy dev with inputs := l } := by
  have hclear := exec_mdio_start hi he (busFails_of_not_may hb) hp
  have haddress := exec_mdio_address (s := s.didWrite (mdioSts e a) allFlags (e.goto .mdioAddress))
    (e := e.goto .mdioAddress) hi rfl (busFails_of_not_may hb) rfl
  rw [enterPoll_of_pos (e := e.goto .mdioAddress) hT] at haddress
  exact (run_engine he hd hclear).trans (run_engine (e := e.goto .mdioAddress) rfl hd haddress)

/-- MDIO_RD from its data read on: the read, the clear, OK with the upper half. -/
theorem run_mdioRd_data {x : Dword} {more : List Answer} (he : s.engine = some e) (hp : e.pos = .mdioData)
    (hd : decode e.snap.cmd = .ok (.mdioRd a phy dev)) (hb : s.params.busMayError = false)
    (hans : s.env.answers = scripted [v.setWidth 64, x] ++ more) :
    ∃ t, Host.Core.run Sys2Proof.core 3 { s with inputs := engineOnly 3 } = .next t
      ∧ t.engine = none ∧ t.csr.done = true ∧ t.csr.err = false ∧ t.csr.code = .ok ∧ t.csr.phase = .none
      ∧ t.csr.result = v >>> 16
      ∧ t.env.history = [(.engine, .w32 (mdioSts e a) 0x00000001), (.engine, .r32 (mdioAcc e a) v)] ++ s.env.history := by
  have hread := exec_mdioRd_data (a := a) (phy := phy) (dev := dev) he (busFails_of_not_may hb) hp
    (regValue_scripted hans _).symm
  have hclear := exec_mdioRd_readAck (s := s.didRead (mdioAcc e a) v (e.readAt v .mdioReadAck)) (phy := phy) (dev := dev)
    (a := a) (e := e.readAt v .mdioReadAck) rfl (busFails_of_not_may hb) rfl
  refine ⟨_, (run_engine (k := 2) (l := engineOnly 2) he hd hread).trans
    ((run_engine (k := 1) (l := engineOnly 1) (e := e.readAt v .mdioReadAck) rfl hd hclear).trans
      (run_engine (k := 0) (l := []) (e := (e.readAt v .mdioReadAck).ends (okWith (readResult v))) rfl hd
        (exec_finish (e := (e.readAt v .mdioReadAck).ends (okWith (readResult v))) (by simp) rfl rfl))), ?_⟩
  rw [finish_eq_of_not_mode (by simp), ← readResult_eq]
  exact ⟨rfl, rfl, rfl, rfl, rfl, rfl, rfl⟩

/-- After steps 3 and 4 of MDIO_RD: address-complete cleared, the op phase written, its poll entered. -/
def State.mdioOpWritten (s : State) (e : Engine) (a : Slot) (phy dev : Nat) : State :=
  (s.didWrite (mdioSts e a) addrDone (e.goto .mdioOp)).didWrite (mdioAcc e a) (readWord phy dev) (e.firstRead .op)

/-- Steps 3 and 4 of MDIO_RD, in a run, when T > 0. -/
theorem run_mdioOpWritten (he : s.engine = some e) (hp : e.pos = .mdioAck)
    (hd : decode e.snap.cmd = .ok (.mdioRd a phy dev)) (hb : s.params.busMayError = false) (hT : 0 < e.bound)
    (k : Nat) (l : List Event) :
    Host.Core.run Sys2Proof.core (k + 2) { s with inputs := .engine :: .engine :: l }
      = Host.Core.run Sys2Proof.core k { s.mdioOpWritten e a phy dev with inputs := l } := by
  have hack := exec_mdio_ack (i := .mdioRd a phy dev) (.inl rfl) he (busFails_of_not_may hb) hp
  have hop := exec_mdioRd_op (s := s.didWrite (mdioSts e a) addrDone (e.goto .mdioOp)) (a := a) (phy := phy) (dev := dev)
    (e := e.goto .mdioOp) rfl (busFails_of_not_may hb) rfl
  rw [enterPoll_of_pos (e := e.goto .mdioOp) hT] at hop
  exact (run_engine he hd hack).trans (run_engine (e := e.goto .mdioOp) rfl hd hop)

/-- MDIO_RD from its acknowledgement of the address phase on, when the op phase's first read matches. -/
theorem run_mdioRd_ack {f2 : Word} {x : Dword} {more : List Answer} (he : s.engine = some e) (hp : e.pos = .mdioAck)
    (hd : decode e.snap.cmd = .ok (.mdioRd a phy dev)) (hb : s.params.busMayError = false) (hT : 0 < e.bound)
    (hflag : f2.getLsbD 0 = true)
    (hans : s.env.answers = scripted [x, x, f2.setWidth 64, v.setWidth 64, x] ++ more) :
    ∃ t, Host.Core.run Sys2Proof.core 6 { s with inputs := engineOnly 6 } = .next t
      ∧ t.engine = none ∧ t.csr.done = true ∧ t.csr.err = false ∧ t.csr.code = .ok ∧ t.csr.phase = .none
      ∧ t.csr.result = v >>> 16
      ∧ t.env.history
          = [(.engine, .w32 (mdioSts e a) 0x00000001), (.engine, .r32 (mdioAcc e a) v), (.engine, .r32 (mdioSts e a) f2),
             (.engine, .w32 (mdioAcc e a) (readWord phy dev)), (.engine, .w32 (mdioSts e a) 0x00000004)]
            ++ s.env.history := by
  have hop := run_mdioOpWritten he hp hd hb hT 4 (engineOnly 4)
  have hans2 : (s.mdioOpWritten e a phy dev).env.answers = scripted [f2.setWidth 64, v.setWidth 64, x] ++ more :=
    tail_scripted (tail_scripted hans)
  have hpoll := exec_mdioRd_opRound (s := s.mdioOpWritten e a phy dev) (a := a) (phy := phy) (dev := dev)
    (e := e.firstRead .op) rfl (busFails_of_not_may hb) rfl (regValue_scripted hans2 _).symm
  rw [polled_flag _ _ _ _ rdDone_eq (by decide), if_pos hflag] at hpoll
  obtain ⟨t, hrun, h1, h2, h3, h4, h5, h6, h7⟩ := run_mdioRd_data
    (s := (s.mdioOpWritten e a phy dev).didPoll (mdioSts e a) f2 (((e.firstRead .op).counted f2).goto .mdioData))
    (e := ((e.firstRead .op).counted f2).goto .mdioData) rfl rfl hd hb (tail_scripted hans2)
  exact ⟨t, hop.trans ((run_engine (k := 3) (l := engineOnly 3) (e := e.firstRead .op) rfl hd hpoll).trans hrun),
    h1, h2, h3, h4, h5, h6, h7⟩

/-- An address-phase read that lacks address-complete and is the last one T allows: TIMEOUT in two turns. -/
theorem run_mdio_addressTimeout (hi : i = .mdioRd a phy dev ∨ i = .mdioWr a phy dev) (he : s.engine = some e)
    (hd : decode e.snap.cmd = .ok i) (hp : e.pos = .pollRead .address) (hb : s.params.busMayError = false)
    (hv : v = s.env.regValue (mdioSts e a)) (hflag : v.getLsbD 2 = false) (hn : ¬e.n + 1 < e.bound) :
    Host.Core.run Sys2Proof.core 2 { s with inputs := engineOnly 2 } = .next { s with
      csr := s.csr.countPoll.finish (timeoutAt .address v)
      env := s.env.performed .engine (.r32 (mdioSts e a) v)
      engine := none, inputs := [] } := by
  have hround := exec_mdio_addressRound hi he (busFails_of_not_may hb) hp hv
  rw [polled_flag _ _ _ _ addrDone_eq (by decide), if_neg (ne_true_of_eq_false hflag), if_neg hn] at hround
  have hfinish := exec_finish (i := i) (e := (e.counted v).ends (timeoutAt .address v))
    (s := s.didPoll (mdioSts e a) v ((e.counted v).ends (timeoutAt .address v)))
    (by rcases hi with rfl | rfl <;> simp) rfl rfl
  rw [finish_eq_of_not_mode (by rcases hi with rfl | rfl <;> simp)] at hfinish
  exact (run_engine (l := [.engine]) he hd hround).trans
    (run_engine (l := []) (k := 0) (e := (e.counted v).ends (timeoutAt .address v)) rfl hd hfinish)

end Sys2Proof.Machine

/-- Settles O49: a phase word is the concatenation of its fields. -/
theorem mdioPhaseWordsFollowTheLayout : Obligations.MdioPhaseWordsFollowTheLayout := by
  intro phy dev reg data _ _
  refine ⟨mdioWord_eq_append reg 0 phy dev, ?_, mdioWord_eq_append data 1 phy dev⟩
  refine Eq.trans ?_ (mdioWord_eq_append 0 3 phy dev)
  exact congrArg (· ||| mdioFrame phy dev) (BitVec.zero_or (x := 0x3#32 <<< 13)).symm

/-- Settles O50: the four positions that write. -/
theorem mdioWritesFollowThePseudocode : Obligations.MdioWritesFollowThePseudocode := by
  rintro s e a phy dev _ _ he hb rfl rfl i hi
  refine ⟨fun hp => exec_mdio_start hi he hb hp, ?_, fun hp => exec_mdio_ack hi he hb hp, ?_⟩
  · rintro _ hp rfl
    rw [exec_mdio_address hi he hb hp, enterPoll_eq]
    rfl
  · rintro _ hp rfl
    rcases hi with rfl | rfl
    · rw [exec_mdioRd_op he hb hp, enterPoll_eq, if_pos rfl]
      rfl
    · rw [exec_mdioWr_op he hb hp, enterPoll_eq,
        if_neg (show Instr.mdioWr a phy dev ≠ .mdioRd a phy dev from Instr.noConfusion)]
      rfl

/-- Settles O51: a poll for one flag, and where a match leads. -/
theorem mdioPollsItsOwnFlagInEachPhase : Obligations.MdioPollsItsOwnFlagInEachPhase := by
  rintro s e a phy dev _ v he hb rfl hv i hi
  refine ⟨fun hp => ?_, fun hp => ?_⟩
  · rw [exec_mdio_addressRound hi he hb hp hv, polled_flag _ _ _ _ addrDone_eq (by decide)]
    rfl
  · rcases hi with rfl | rfl
    · rw [exec_mdioRd_opRound he hb hp hv, polled_flag _ _ _ _ rdDone_eq (by decide), if_pos rfl, if_pos rfl]
      rfl
    · have hne : Instr.mdioWr a phy dev ≠ .mdioRd a phy dev := by simp
      rw [exec_mdioWr_opRound he hb hp hv, polled_flag _ _ _ _ wrDone_eq (by decide), if_neg hne, if_neg hne]
      rfl

/-- Settles O52: the read, the clear and the `finish`. -/
theorem mdioRdCompletesWithTheUpperHalf : Obligations.MdioRdCompletesWithTheUpperHalf := by
  rintro s e a phy dev _ _ v he hp hb rfl rfl hv
  refine ⟨_, _, _, exec_mdioRd_data he (busFails_of_not_may hb) hp hv,
    exec_mdioRd_readAck (e := e.readAt v .mdioReadAck) rfl (busFails_of_not_may hb) rfl,
    exec_finish (e := (e.readAt v .mdioReadAck).ends (okWith (readResult v))) (by simp) rfl rfl, rfl, rfl, ?_⟩
  rw [finish_eq_of_not_mode (by simp), ← readResult_eq]
  exact ⟨rfl, rfl, rfl, rfl⟩

/-- Settles O53: the matching read leaves MDIO_WR about to finish. -/
theorem mdioWrCompletesOnWriteComplete : Obligations.MdioWrCompletesOnWriteComplete := by
  rintro s e a phy dev _ v he hp hb rfl hv hflag
  have hround := exec_mdioWr_opRound (phy := phy) (dev := dev) he hb hp hv
  rw [polled_flag _ _ _ _ wrDone_eq (by decide), if_pos hflag] at hround
  refine ⟨_, _, hround, exec_finish (e := (e.counted v).ends (okWith 0)) (by simp) rfl rfl, ?_⟩
  rw [finish_eq_of_not_mode (by simp)]
  exact ⟨rfl, rfl, rfl⟩

/-- Settles O54: the address phase, its first read, and the op phase. -/
theorem mdioRdTransactionRunsBothPhasesInOrder : Obligations.MdioRdTransactionRunsBothPhasesInOrder := by
  intro s e a phy dev f1 f2 v x more he hp hd hb hT hf1 hf2 hans
  have hstart := run_mdioAddressed (.inl rfl) he hp hd hb (bound_pos hT) 7 (engineOnly 7)
  have hans2 : (s.mdioAddressed e a phy dev).env.answers
      = scripted [f1.setWidth 64, x, x, f2.setWidth 64, v.setWidth 64, x] ++ more :=
    tail_scripted (tail_scripted hans)
  have hpoll := exec_mdio_addressRound (s := s.mdioAddressed e a phy dev) (i := .mdioRd a phy dev)
    (e := e.firstRead .address) (.inl rfl) rfl (busFails_of_not_may hb) rfl (regValue_scripted hans2 _).symm
  rw [polled_flag _ _ _ _ addrDone_eq (by decide), if_pos hf1] at hpoll
  obtain ⟨t, hrun, h1, h2, h3, h4, h5, h6, h7⟩ := run_mdioRd_ack
    (s := (s.mdioAddressed e a phy dev).didPoll (mdioSts e a) f1 (((e.firstRead .address).counted f1).goto .mdioAck))
    (e := ((e.firstRead .address).counted f1).goto .mdioAck) rfl rfl hd hb (bound_pos hT) hf2 (tail_scripted hans2)
  exact ⟨t, hstart.trans ((run_engine (k := 6) (l := engineOnly 6) (e := e.firstRead .address) rfl hd hpoll).trans hrun),
    h1, h2, h3, h4, h5, h6, h7⟩

/-- Settles O55: the address phase, the reads that fail, and the last one T allows. -/
theorem mdioFailedAddressPhaseNeverWritesTheOpPhase : Obligations.MdioFailedAddressPhaseNeverWritesTheOpPhase := by
  intro s e a phy dev i bad lastBad x more he hp hi hd hb hc hT hbad hans
  have hbound : bad.length + 1 = e.bound := hT
  have hstart := run_mdioAddressed hi he hp hd hb (by omega) (2 * bad.length + 2)
    (fairRounds bad.length ++ engineOnly 2)
  have hans2 : (s.mdioAddressed e a phy dev).env.answers
      = scripted (bad.map (BitVec.setWidth 64)) ++ (scripted [lastBad.setWidth 64] ++ more) := by
    refine (tail_scripted (tail_scripted hans)).trans ?_
    simp [scripted]
  have hexec (s : State) (f : Engine) (hf : s.engine = some f) (hs : f.snap = e.snap)
      (hpos : f.pos = .pollRead .address) :
      exec i s = pollRound i f .address (mdioSts e a) addrDone addrDone (fun g => g.goto .mdioAck) s := by
    rw [exec_mdio_addressPoll hi hf hpos, mdioSts, mdioSts, hs]
  have hfails (v : Word) (hv : v ∈ bad) : v &&& addrDone ≠ addrDone := by
    rw [addrDone_eq, Ne, and_flag_eq_iff v 2 (by decide), hbad v (by simp [hv])]
    simp
  obtain ⟨t, f, hreads, hrun⟩ := run_reads_fail e.snap hd (a := mdioSts e a) (regFault_regAddr _) hexec bad
    (s.mdioAddressed e a phy dev) (e.firstRead .address) _ rfl rfl rfl hb hfails
    (by simp only [Engine.firstRead_n, Engine.firstRead_bound]; omega) hans2
  have hsnap : f.snap = e.snap := hreads.snap
  have hsts : mdioSts f a = mdioSts e a := by rw [mdioSts, mdioSts, hsnap]
  have hn : f.n = bad.length := by simpa using hreads.n
  have hlast := run_mdio_addressTimeout hi hreads.engine (hsnap ▸ hd) hreads.pos (hreads.params ▸ hb)
    (regValue_scripted (hreads.answers _ hans2) _).symm (hbad lastBad (by simp))
    (by rw [hn, Engine.bound, hsnap]; omega)
  refine ⟨_, hstart.trans ((hrun 2 (engineOnly 2)).trans hlast), rfl, rfl, rfl, rfl, rfl, rfl, ?_, ?_⟩
  · have hlt := e.snap.setup.timeout.isLt
    have hcount : t.csr.pollCount.toNat = bad.length := by
      have hreads' := hreads.count
      simp only [State.mdioAddressed, State.didWrite_csr, hc] at hreads'
      simpa using hreads' (by simp; omega)
    apply BitVec.eq_of_toNat_eq
    exact (countPoll_toNat (by omega)).trans (by omega)
  · simp [hreads.history, hsts, State.mdioAddressed, allFlags]

end

section
/-! PROOFS. A whole FORMAT (42_ring.md R170): an invariant on the words of the ring written so far, kept by every step
up to the table entry. -/

open Sys2Proof Sys2Proof.Machine

namespace Sys2Proof

/-- A load reads 8 bytes and nothing else of memory. -/
theorem Memory.load8_congr {m m' : List Host.Cell} {pa : Nat} (free : Dword)
    (h : ∀ k < 8, Memory.byte m (pa + k) = Memory.byte m' (pa + k)) :
    Memory.load8 m pa free = Memory.load8 m' pa free := by
  simp only [Memory.load8, h 0 (by decide), h 1 (by decide), h 2 (by decide), h 3 (by decide), h 4 (by decide),
    h 5 (by decide), h 6 (by decide), h 7 (by decide)]

/-- Bytes listed as those of v load as v. -/
theorem Memory.load8_of_bytes {m : List Host.Cell} {pa : Nat} {v : Dword} (free : Dword)
    (h : ∀ k < 8, Memory.byte m (pa + k) = some (byteOf v k)) : Memory.load8 m pa free = v := by
  refine Eq.trans (Memory.load8_congr free fun k hk => ?_) (Memory.load8_store8 m pa v free)
  rw [h k hk, Memory.byte_store8, if_pos (by omega), Nat.add_sub_cancel_left]

end Sys2Proof

namespace Sys2Proof.Machine

/-- While the environment lists answers that give no data, a memory read gives the bytes last written. -/
theorem memValue_unlisted {v : Env} (hnone : ∀ a ∈ v.answers, a.data = none) (hlen : 0 < v.answers.length) (pa : Nat) :
    v.memValue pa = Memory.load8 v.mem pa (Config.freeDword v.draws) := by
  obtain ⟨a, as, ha⟩ := List.exists_cons_of_length_pos hlen
  have hdata : v.answer.data = none := by
    rw [Env.answer, ha]
    exact hnone a (by simp [ha])
  rw [Env.memValue, hdata]

/-! ## The words of a ring -/

/-- A ring to lay out: FORMAT's snapshot and operands, and the buffer-table entries. -/
structure RingJob where
  snap   : Snapshot
  chain  : Nat
  layout : Layout
  dir    : Dir
  buf    : Nat → Dword

/-- Where word w of slot i stands. -/
def RingJob.addr (r : RingJob) (i : Nat) (w : SlotWord) : Nat := slotAddr r.snap r.layout i + w.offset

/-- What word w of slot i is to hold (R174-R177). -/
def RingJob.word (r : RingJob) (i : Nat) (w : SlotWord) : Dword :=
  w.value (if i + 1 < r.snap.numRing then dataHeader r.snap r.dir (r.buf i) else linkHeader r.snap r.dir)

/-- The end of the ring. -/
def RingJob.top (r : RingJob) : Nat := r.snap.ringBase.toNat + r.snap.numRing * slotSize r.layout

/-- The command. -/
def RingJob.cmd (r : RingJob) : Instr := .format r.chain r.layout r.dir

variable {r : RingJob} {s s0 t : State} {e f : Engine} {i i' cur todo todo' : Nat} {w w' : SlotWord}
  {m m0 : List Host.Cell}

theorem RingJob.base_le_addr (r : RingJob) (i : Nat) (w : SlotWord) : r.snap.ringBase.toNat ≤ r.addr i w := by
  unfold RingJob.addr slotAddr
  omega

/-- Each word inside the layout is inside the ring. -/
theorem RingJob.addr_le_top (hi : i < r.snap.numRing) (hw : w.inLayout r.layout = true) : r.addr i w + 8 ≤ r.top := by
  obtain ⟨hoff, -⟩ := (inLayout_iff ..).1 hw
  have hmul : (i + 1) * slotSize r.layout ≤ r.snap.numRing * slotSize r.layout := Nat.mul_le_mul_right _ hi
  rw [Nat.succ_mul] at hmul
  unfold RingJob.addr RingJob.top slotAddr
  omega

theorem SlotWord.offset_inj (h : w.offset = w'.offset) : w = w' := by
  revert h
  cases w <;> cases w' <;> decide

/-- Two words of the ring are the same one or do not overlap. -/
theorem RingJob.addr_before_or_same (hw : w.inLayout r.layout = true) (hw' : w'.inLayout r.layout = true)
    (h : r.addr i' w' < r.addr i w + 8) : r.addr i' w' + 8 ≤ r.addr i w ∨ (i' = i ∧ w' = w) := by
  obtain ⟨hoff, h8⟩ := (inLayout_iff ..).1 hw
  obtain ⟨hoff', h8'⟩ := (inLayout_iff ..).1 hw'
  have hsplit : r.addr i' w' + 8 ≤ r.addr i w ∨ (i' = i ∧ w'.offset = w.offset) := by
    unfold RingJob.addr slotAddr at h ⊢
    cases hl : r.layout <;> rw [hl] at h hoff hoff' <;> simp only [slotSize] at h hoff hoff' ⊢ <;> omega
  exact hsplit.imp_right fun ⟨hi, ho⟩ => ⟨hi, SlotWord.offset_inj ho⟩

/-- The next word of a slot follows at once. -/
theorem RingJob.addr_next (h : w.next r.layout = some w') : r.addr i w' = r.addr i w + 8 := by
  have hoff : w'.offset = w.offset + 8 := by
    revert h
    cases w <;> cases r.layout <;> cases w' <;> decide
  rw [RingJob.addr, hoff, RingJob.addr, Nat.add_assoc]

/-- After the last word of a slot the next slot begins. -/
theorem RingJob.addr_succ (hw : w.inLayout r.layout = true) (h : w.next r.layout = none) :
    r.addr (i + 1) .header = r.addr i w + 8 := by
  have hoff : w.offset + 8 = slotSize r.layout := by
    revert h hw
    cases w <;> cases r.layout <;> decide
  unfold RingJob.addr slotAddr
  rw [Nat.succ_mul, ← hoff]
  simp only [SlotWord.offset]
  omega

/-- After the last word of the link slot the ring ends. -/
theorem RingJob.top_eq (hN : 2 ≤ r.snap.numRing) (hw : w.inLayout r.layout = true) (h : w.next r.layout = none) :
    r.top = r.addr (r.snap.numRing - 1) w + 8 := by
  rw [← RingJob.addr_succ hw h, Nat.sub_add_cancel (by omega)]
  rfl

/-! ## A ring filled up to an address -/

/-- From memory m0 to m the words below cur have been written, and nothing else. -/
structure RingJob.Filled (r : RingJob) (m0 m : List Host.Cell) (cur : Nat) : Prop where
  words : ∀ (i : Nat) (w : SlotWord) (j : Nat), w.inLayout r.layout = true → j < 8 → r.addr i w + 8 ≤ cur →
    Memory.byte m (r.addr i w + j) = some (byteOf (r.word i w) j)
  rest  : ∀ a, ¬(r.snap.ringBase.toNat ≤ a ∧ a < cur) → Memory.byte m a = Memory.byte m0 a

/-- Nothing is written yet. -/
theorem RingJob.Filled.start (r : RingJob) (m : List Host.Cell) : r.Filled m m (r.addr 0 .header) where
  words i w j _ _ h := by
    simp only [RingJob.addr, slotAddr, SlotWord.offset] at h
    omega
  rest _ _ := rfl

/-- The next word written. -/
theorem RingJob.Filled.store (h : r.Filled m0 m (r.addr i w)) (hw : w.inLayout r.layout = true) :
    r.Filled m0 (Memory.store8 m (r.addr i w) (r.word i w)) (r.addr i w + 8) where
  words i' w' j hw' hj hcur := by
    rw [Memory.byte_store8]
    rcases RingJob.addr_before_or_same (i := i) (i' := i') hw hw' (by omega) with hbefore | ⟨rfl, rfl⟩
    · rw [if_neg (by omega)]
      exact h.words i' w' j hw' hj hbefore
    · rw [if_pos (by omega), Nat.add_sub_cancel_left]
  rest a ha := by
    have hbase := r.base_le_addr i w
    rw [Memory.byte_store8, if_neg (by omega)]
    exact h.rest a (by omega)

/-! ## FORMAT in its ring -/

/-- FORMAT's positions up to the table entry, with the address of the next word to write and a bound on the accesses
up to the last read of a buffer-table entry. -/
inductive RingJob.At (r : RingJob) (e : Engine) : Nat → Nat → Prop
  | entryRead : e.pos = .entryRead → r.dir = .receive → e.idx + 1 < r.snap.numRing →
      r.At e (r.addr e.idx .header) (4 * (r.snap.numRing - 1 - e.idx))
  | slot (w : SlotWord) : e.pos = .slot w → e.idx + 1 < r.snap.numRing → w.inLayout r.layout = true →
      (w = .header → r.dir = .receive → e.entry = r.buf e.idx) →
      r.At e (r.addr e.idx w) (4 * (r.snap.numRing - 1 - e.idx) - 1 - w.offset / 8)
  | link (w : SlotWord) : e.pos = .link w → w.inLayout r.layout = true → r.At e (r.addr (r.snap.numRing - 1) w) 0
  | table : e.pos = .table → r.At e r.top 0

theorem RingJob.At.eq_of_table (h : r.At e cur todo) (hp : e.pos = .table) : cur = r.top ∧ todo = 0 := by
  cases h with
  | entryRead hq | slot w hq | link w hq => cases hp.symm.trans hq
  | table => exact ⟨rfl, rfl⟩

/-- A data slot is begun at its entry's read or at its header. -/
theorem RingJob.At.slotStart (hi : i + 1 < r.snap.numRing) (e : Engine) :
    ∃ todo ≤ 4 * (r.snap.numRing - 1 - i),
      r.At { e with pos := slotStart r.dir, idx := i } (r.addr i .header) todo := by
  cases hd : r.dir with
  | receive => exact ⟨_, Nat.le_refl _, .entryRead rfl hd hi⟩
  | transmit =>
    exact ⟨_, (Nat.sub_le _ _).trans (Nat.sub_le _ _), .slot .header rfl hi (header_inLayout _) (by simp [hd])⟩

/-- After a word of a data slot. -/
theorem RingJob.At.afterSlotWord (hs : e.snap = r.snap) (hi : e.idx + 1 < r.snap.numRing) (hw : w.inLayout r.layout = true) :
    ∃ todo ≤ 4 * (r.snap.numRing - 1 - e.idx) - 1 - w.offset / 8 - 1,
      r.At (afterSlotWord r.layout r.dir w e) (r.addr e.idx w + 8) todo := by
  cases hnext : w.next r.layout with
  | some w' =>
    rw [afterSlotWord_of_next hnext, ← RingJob.addr_next hnext]
    have hoff : w'.offset = w.offset + 8 := by
      have := RingJob.addr_next (i := 0) hnext
      unfold RingJob.addr at this
      omega
    refine ⟨_, ?_, .slot w' rfl hi (next_inLayout hnext) ?_⟩
    · simp only [Engine.goto]
      omega
    · rintro rfl
      simp [SlotWord.offset] at hoff
  | none =>
    rw [afterSlotWord_of_last hnext, ← RingJob.addr_succ hw hnext]
    have hoff : w.offset ≤ 16 := by cases w <;> decide
    split <;> rename_i hmore <;> rw [hs] at hmore
    · obtain ⟨todo, htodo, hat⟩ := RingJob.At.slotStart (i := e.idx + 1) hmore e
      exact ⟨todo, by omega, hat⟩
    · have hlast : e.idx + 1 = r.snap.numRing - 1 := by omega
      rw [hlast]
      exact ⟨0, Nat.zero_le _, .link .header rfl (header_inLayout _)⟩

/-- After a word of the link slot. -/
theorem RingJob.At.afterLinkWord (hN : 2 ≤ r.snap.numRing) (hw : w.inLayout r.layout = true) (e : Engine) :
    r.At (afterLinkWord r.layout w e) (r.addr (r.snap.numRing - 1) w + 8) 0 := by
  unfold Machine.afterLinkWord
  cases hnext : w.next r.layout with
  | some w' =>
    rw [← RingJob.addr_next hnext]
    exact .link w' rfl (next_inLayout hnext)
  | none =>
    rw [← RingJob.top_eq hN hw hnext]
    exact .table rfl

/-- What FORMAT is given: it passes VALIDATE, the bus makes no error, and a receive ring's buffer-table entries are in
memory, apart from the ring. -/
structure RingJob.Ready (r : RingJob) (s : State) : Prop where
  valid   : validate s.params r.snap r.chain r.layout r.dir = true
  noError : s.params.busMayError = false
  entries : r.dir = .receive → ∀ i, i + 1 < r.snap.numRing → (r.buf i) >>> 40 = 0
      ∧ (∀ k, k < 8 → Memory.byte s.env.mem (entryAddr r.snap i + k) = some (byteOf (r.buf i) k))
      ∧ (entryAddr r.snap i + 8 ≤ r.snap.ringBase.toNat ∨ r.top ≤ entryAddr r.snap i)

/-- FORMAT, begun in s0, stands in s with engine e; the ring is filled up to cur. -/
structure RingJob.Running (r : RingJob) (s0 s : State) (e : Engine) (cur todo : Nat) : Prop where
  engine   : s.engine = some e
  snap     : e.snap = r.snap
  pos      : r.At e cur todo
  params   : s.params = s0.params
  csr      : s.csr = s0.csr
  regs     : s.env.regs = s0.env.regs
  unlisted : ∀ a ∈ s.env.answers, a.data = none
  answers  : todo ≤ s.env.answers.length
  filled   : r.Filled s0.env.mem s.env.mem cur

theorem RingJob.Ready.two_le (h : r.Ready s) : 2 ≤ r.snap.numRing := ((validate_iff ..).1 h.valid).1

theorem RingJob.Running.busFails (h : r.Running s0 s e cur todo) (h0 : r.Ready s0) : s.busFails = false :=
  busFails_of_not_may (h.params ▸ h0.noError)

theorem RingJob.Running.valid (h : r.Running s0 s e cur todo) (h0 : r.Ready s0) :
    validate s.params e.snap r.chain r.layout r.dir = true := by
  rw [h.params, h.snap]
  exact h0.valid

/-- The next word of the ring stored. -/
theorem RingJob.Running.store (h : r.Running s0 s e (r.addr i w) todo) (hw : w.inLayout r.layout = true)
    (hs : f.snap = r.snap) (hat : r.At f (r.addr i w + 8) todo') (htodo : todo' ≤ todo - 1) :
    r.Running s0 (s.didStore (r.addr i w) (r.word i w) f) f (r.addr i w + 8) todo' where
  engine := rfl
  snap := hs
  pos := hat
  params := h.params
  csr := h.csr
  regs := h.regs
  unlisted a ha := h.unlisted a (List.mem_of_mem_tail ha)
  answers := by
    have hlen : (s.didStore (r.addr i w) (r.word i w) f).env.answers.length = s.env.answers.length - 1 :=
      List.length_tail
    have := h.answers
    omega
  filled := h.filled.store hw

/-- The buffer-table entry in memory is the value its read gives. -/
theorem RingJob.Running.entry (h : r.Running s0 s e (r.addr e.idx .header) todo) (h0 : r.Ready s0)
    (hd : r.dir = .receive) (hi : e.idx + 1 < r.snap.numRing) (htodo : 0 < todo) :
    s.env.memValue (entryAddr r.snap e.idx) = r.buf e.idx := by
  obtain ⟨-, hbytes, hapart⟩ := h0.entries hd e.idx hi
  have htop := RingJob.addr_le_top (r := r) (i := e.idx) (by omega) (header_inLayout r.layout)
  rw [memValue_unlisted h.unlisted (Nat.lt_of_lt_of_le htodo h.answers)]
  refine Memory.load8_of_bytes _ fun k hk => ?_
  rw [h.filled.rest _ (by omega), hbytes k hk]

/-- A word of a data slot, written with the entry its slot began with. -/
theorem RingJob.dataWord (hs : e.snap = r.snap) (hi : e.idx + 1 < r.snap.numRing)
    (hentry : w = .header → r.dir = .receive → e.entry = r.buf e.idx) :
    w.value (dataHeader e.snap r.dir e.entry) = r.word e.idx w := by
  rw [RingJob.word, if_pos hi, hs]
  cases w with
  | header =>
    cases hd : r.dir with
    | receive => rw [hentry rfl hd]
    | transmit => rfl
  | extension => simp only [SlotWord.value]
  | timestamp => simp only [SlotWord.value]

/-- A word of the link slot. -/
theorem RingJob.linkWord (hs : e.snap = r.snap) (hN : 2 ≤ r.snap.numRing) :
    w.value (linkHeader e.snap r.dir) = r.word (r.snap.numRing - 1) w := by
  have hlast : ¬r.snap.numRing - 1 + 1 < r.snap.numRing := by omega
  rw [RingJob.word, if_neg hlast, hs]

/-- FORMAT goes on in its ring, nearer to the table entry. -/
def RingJob.Steps (r : RingJob) (s0 s : State) (e : Engine) : Prop :=
  ∃ t f cur todo, exec r.cmd s = .next t ∧ r.Running s0 t f cur todo ∧ f.rank < e.rank

section
variable (h0 : r.Ready s0)
include h0

/-- The read of a buffer-table entry. -/
theorem RingJob.Running.step_entryRead (h : r.Running s0 s e (r.addr e.idx .header) todo) (hp : e.pos = .entryRead)
    (hd : r.dir = .receive) (hi : e.idx + 1 < r.snap.numRing) (htodo : todo = 4 * (r.snap.numRing - 1 - e.idx)) :
    r.Steps s0 s e := by
  have hv := h.valid h0
  have hs := h.snap
  have ha : memFault (entryAddr e.snap e.idx) = none := entryAddr_ok (hd ▸ hv) (hs ▸ hi)
  have hstep := exec_format_entryRead_done (c := r.chain) (l := r.layout) (d := r.dir) h.engine hp (h.busFails h0) ha
  have hrank := (afterEntry_advances (v := r.buf e.idx) hp hv (hs ▸ hi)).rank
  rw [hs, h.entry h0 hd hi (by omega)] at hstep
  rw [afterEntry_fits (h0.entries hd e.idx hi).1] at hstep hrank
  refine ⟨_, _, _, _, hstep, ⟨rfl, hs, .slot .header rfl hi (header_inLayout _) fun _ _ => rfl, h.params, h.csr, h.regs,
    fun a ha => h.unlisted a (List.mem_of_mem_tail ha), ?_, h.filled⟩, hrank⟩
  have hlen : s.env.answers.tail.length = s.env.answers.length - 1 := List.length_tail
  have := h.answers
  simp only [Env.performed, Env.took, hlen, SlotWord.offset]
  omega

/-- A word of a data slot. -/
theorem RingJob.Running.step_slot (h : r.Running s0 s e (r.addr e.idx w) todo) (hp : e.pos = .slot w)
    (hi : e.idx + 1 < r.snap.numRing) (hw : w.inLayout r.layout = true)
    (hentry : w = .header → r.dir = .receive → e.entry = r.buf e.idx)
    (htodo : todo = 4 * (r.snap.numRing - 1 - e.idx) - 1 - w.offset / 8) : r.Steps s0 s e := by
  have hv := h.valid h0
  have hs := h.snap
  have ha : memFault (slotAddr e.snap r.layout e.idx + w.offset) = none := slotAddr_ok hv (by rw [hs]; omega) hw
  have hstep := exec_format_slot_done (c := r.chain) (d := r.dir) h.engine hp (h.busFails h0) ha
  obtain ⟨todo', hle, hat⟩ := RingJob.At.afterSlotWord hs hi hw
  rw [RingJob.dataWord hs hi hentry, hs] at hstep
  exact ⟨_, _, _, _, hstep, h.store hw ((afterSlotWord_snap ..).trans hs) hat (htodo ▸ hle),
    (afterSlotWord_advances hp hv (hs ▸ hi)).rank⟩

/-- A word of the link slot. -/
theorem RingJob.Running.step_link (h : r.Running s0 s e (r.addr (r.snap.numRing - 1) w) todo) (hp : e.pos = .link w)
    (hw : w.inLayout r.layout = true) : r.Steps s0 s e := by
  have hv := h.valid h0
  have hs := h.snap
  have hN := h0.two_le
  have ha : memFault (slotAddr e.snap r.layout (e.snap.numRing - 1) + w.offset) = none :=
    slotAddr_ok hv (by rw [hs]; omega) hw
  have hstep := exec_format_link_done (c := r.chain) (d := r.dir) h.engine hp (h.busFails h0) ha
  rw [RingJob.linkWord hs hN, hs] at hstep
  exact ⟨_, _, _, _, hstep, h.store hw ((afterLinkWord_snap ..).trans hs) (.afterLinkWord hN hw e) (Nat.zero_le _),
    (afterLinkWord_advances hp hv).rank⟩

/-- Every step up to the table entry. -/
theorem RingJob.Running.step (h : r.Running s0 s e cur todo) (hp : e.pos ≠ .table) : r.Steps s0 s e := by
  have hat := h.pos
  cases hat with
  | entryRead hpos hd hi => exact h.step_entryRead h0 hpos hd hi rfl
  | slot w hpos hi hw hentry => exact h.step_slot h0 hpos hi hw hentry rfl
  | link w hpos hw => exact h.step_link h0 hpos hw
  | table hpos => exact absurd hpos hp

end

/-- FORMAT, the engine alone moving, comes to the table entry. -/
theorem RingJob.Running.run_to_table (h : r.Running s0 s e cur todo) (h0 : r.Ready s0)
    (hd : decode r.snap.cmd = .ok r.cmd) :
    ∃ k t f, (∀ j, Host.Core.run Sys2Proof.core (k + j) { s with inputs := engineOnly (k + j) }
        = Host.Core.run Sys2Proof.core j { t with inputs := engineOnly j })
      ∧ r.Running s0 t f r.top 0 ∧ f.pos = .table := by
  induction hn : e.rank using Nat.strong_induction_on generalizing s e cur todo with
  | _ n ih =>
    by_cases hp : e.pos = .table
    · obtain ⟨rfl, rfl⟩ := h.pos.eq_of_table hp
      exact ⟨0, s, e, fun j => by rw [Nat.zero_add], h, hp⟩
    · obtain ⟨t, f, cur', todo', hstep, ht, hrank⟩ := h.step h0 hp
      obtain ⟨k, u, g, hrun, hu⟩ := ih f.rank (hn ▸ hrank) ht rfl
      refine ⟨k + 1, u, g, fun j => ?_, hu⟩
      rw [← hrun j, Nat.add_right_comm]
      exact run_engine h.engine (h.snap ▸ hd) hstep

/-- From the table entry on: the entry, the control register, OK. -/
theorem RingJob.Running.run_from_table (h : r.Running s0 s e r.top 0) (h0 : r.Ready s0)
    (hd : decode r.snap.cmd = .ok r.cmd) (hp : e.pos = .table) :
    ∃ t, Host.Core.run Sys2Proof.core 3 { s with inputs := engineOnly 3 } = .next t ∧ t.engine = none
      ∧ t.csr = { s0.csr with result := 0, code := .ok, phase := .none, err := false, done := true }
      ∧ t.env.mem = Memory.store8 s.env.mem (tableAddr r.snap r.chain) (tableHeader r.snap)
      ∧ t.env.regs = Cells.put s0.env.regs (controlAddr r.snap r.chain) (controlWord r.dir r.layout) := by
  have hv := h.valid h0
  have hb := h.busFails h0
  rw [← h.csr, ← h.regs]
  rw [← h.snap] at hd ⊢
  have htable := exec_format_table_done (l := r.layout) (d := r.dir) h.engine hp hb (tableAddr_ok hv)
  have hcontrol := exec_format_control_done (c := r.chain) (l := r.layout) (d := r.dir)
    (s := s.didStore (tableAddr e.snap r.chain) (tableHeader e.snap) (e.goto .control)) (e := e.goto .control)
    rfl rfl (busFails_of_not_may (h.params ▸ h0.noError)) (controlAddr_ok hv)
  refine ⟨_, (run_engine (k := 2) (l := engineOnly 2) h.engine hd htable).trans
    ((run_engine (k := 1) (l := engineOnly 1) (e := e.goto .control) rfl hd hcontrol).trans
      (run_engine (k := 0) (l := []) (e := (e.goto .control).ends (okWith 0)) rfl hd
        (exec_finish (e := (e.goto .control).ends (okWith 0)) (by simp [RingJob.cmd]) rfl rfl))), ?_⟩
  rw [finish_eq_of_not_mode (by simp [RingJob.cmd])]
  exact ⟨rfl, rfl, rfl, rfl⟩

/-- FORMAT's first step, when it is given what it needs, is its first one in the ring. -/
theorem RingJob.Ready.start (h0 : r.Ready s) (he : s.engine = some e) (hp : e.pos = .start) (hs : e.snap = r.snap)
    (hnone : ∀ a ∈ s.env.answers, a.data = none) (hlen : 4 * r.snap.numRing ≤ s.env.answers.length) :
    ∃ t f cur todo, exec r.cmd s = .next t ∧ r.Running s t f cur todo := by
  have hN := h0.two_le
  obtain ⟨todo, htodo, hat⟩ := RingJob.At.slotStart (r := r) (i := 0) (by omega) e
  have hfirst : r.Running s (s.setEngine { e with pos := slotStart r.dir, idx := 0 })
      { e with pos := slotStart r.dir, idx := 0 } (r.addr 0 .header) todo :=
    ⟨rfl, hs, hat, rfl, rfl, rfl, hnone, by simp only [State.setEngine_env]; omega, .start r _⟩
  have hne : slotStart r.dir ≠ .table := by cases r.dir <;> simp [slotStart]
  obtain ⟨t, f, cur, todo', hstep, ht, -⟩ := hfirst.step h0 hne
  exact ⟨t, f, cur, todo', (exec_format_start_valid he hp (hs ▸ h0.valid)).trans hstep, ht⟩

end Sys2Proof.Machine

/-- Settles O48: the ring is filled word by word up to the table entry, which lies apart from it. -/
theorem formatLaysOutTheClosedRing : Obligations.FormatLaysOutTheClosedRing := by
  intro s e c l d buf he hp hd hv hb hnone hlen hentries hapart
  have h0 : RingJob.Ready ⟨e.snap, c, l, d, buf⟩ s := ⟨hv, hb, hentries⟩
  obtain ⟨t, f, cur, todo, hstep, ht⟩ := h0.start he hp rfl hnone (Nat.le_of_add_right_le hlen)
  obtain ⟨k, u, g, hrun, hu, hg⟩ := ht.run_to_table h0 hd
  obtain ⟨v, hend, hidle, hcsr, hmem, hregs⟩ := hu.run_from_table h0 hd hg
  refine ⟨k + 3 + 1, v, (run_engine he hd hstep).trans ((hrun 3).trans hend), hidle, hcsr, fun i w j hi hw hj => ?_,
    fun j hj => ?_, ?_, fun a hring htable => ?_, fun a ha => ?_⟩
  · have hbase := RingJob.base_le_addr ⟨e.snap, c, l, d, buf⟩ i w
    have htop := RingJob.addr_le_top (r := ⟨e.snap, c, l, d, buf⟩) hi hw
    have hword := hu.filled.words i w j hw hj htop
    simp only [RingJob.addr, RingJob.top, RingJob.word] at hbase htop hword
    rw [hmem, Memory.byte_store8, if_neg (by simp only; omega), hword]
  · rw [hmem, Memory.byte_store8, if_pos (by simp only; omega), Nat.add_sub_cancel_left]
  · rw [hregs]
    exact Registers.word_put_same _ _ _
  · rw [hmem, Memory.byte_store8, if_neg htable]
    exact hu.filled.rest a hring
  · rw [hregs]
    exact Registers.word_put_other _ _ ha

end
